-- ==== Sys2Proof/Word.lean ====
section
/-! DEFINITION. The widths of the machine: bytes, selectors, 32-bit words. -/

namespace Sys2Proof

/-- A byte of memory or of an instruction (20_memory.md R80). -/
abbrev Byte := BitVec 8

/-- A 16-bit value: a segment selector, or the error information of an exception (00_scope.md R5, 60_exceptions.md R231). -/
abbrev Half := BitVec 16

/-- A 32-bit value: a general register, EIP, EFLAGS, a linear or physical address (00_scope.md R5). -/
abbrev Word := BitVec 32

end Sys2Proof
end

