-- ==== Sys2Proof/Syntax.lean ====
section
/-! DEFINITION. The instructions: one constructor for each row of spec/opcode_table.json, with operands as the encoding
has them, so that an instruction fixes its bytes and its length. -/

namespace Sys2Proof

/-- The general registers, in the order that numbers them 0 to 7 (00_scope.md R8, 10_state.md R21). -/
inductive Reg where
  | eax | ecx | edx | ebx | esp | ebp | esi | edi
  deriving DecidableEq, Repr, Inhabited

/-- The segment registers, in the order that numbers them 0 to 5 (00_scope.md R8, 10_state.md R27). -/
inductive SegName where
  | es | cs | ss | ds | fs | gs
  deriving DecidableEq, Repr, Inhabited

/-- A SIB byte's three fields. An `index` of ESP, number 100b, means that there is no index (30_encoding.md R114). -/
structure Sib where
  scale : BitVec 2
  index : Reg
  base : Reg
  deriving DecidableEq, Repr, Inhabited

/-- A memory operand, one constructor for each line of the table of 30_encoding.md R114 (two for the SIB line with mod 00,
whose base 101b means no base register and a 32-bit displacement). -/
inductive Addr where
  | base (r : Reg)
  | disp32 (d : Word)
  | baseDisp8 (r : Reg) (d : Byte)
  | baseDisp32 (r : Reg) (d : Word)
  | sib (s : Sib)
  | sibNoBase (scale : BitVec 2) (index : Reg) (d : Word)
  | sibDisp8 (s : Sib) (d : Byte)
  | sibDisp32 (s : Sib) (d : Word)
  deriving DecidableEq, Repr, Inhabited

/-- The operand of LTR and STR: the low half of a general register, or a memory word (40_task_register.md). -/
inductive RM16 where
  | reg (r : Reg)
  | mem (a : Addr)
  deriving DecidableEq, Repr, Inhabited

/-- The interrupt instruction's forms: INT n with its vector, and the two one-byte forms INT 3 and INTO that behave as
INT n with a fixed vector and their own length (30_encoding.md R119). -/
inductive IntForm where
  | imm (v : Byte)
  | int3
  | into
  deriving DecidableEq, Repr, Inhabited

/-- The instructions in scope, one constructor for each row of spec/opcode_table.json (30_encoding.md R117). -/
inductive Instr where
  /-- STR r/m16 -/
  | str (dst : RM16)
  /-- LTR r/m16 -/
  | ltr (src : RM16)
  /-- JMP ptr16:32 -/
  | jmpPtr (off : Word) (sel : Half)
  /-- JMP m16:32 -/
  | jmpMem (a : Addr)
  /-- CALL ptr16:32 -/
  | callPtr (off : Word) (sel : Half)
  /-- CALL m16:32 -/
  | callMem (a : Addr)
  /-- IRET -/
  | iret
  /-- INT n, and its one-byte forms INT 3 and INTO -/
  | intN (f : IntForm)
  deriving DecidableEq, Repr, Inhabited

end Sys2Proof
end

