-- ==== Sys2Proof/WellFormed.lean ====
section
/-! DEFINITION. Which instruction terms stand for an encoding: the exceptions in the table of 30_encoding.md R114, where a
register number in `rm` or in a SIB base means something else. -/

namespace Sys2Proof

/-- 30_encoding.md R114: with mod 00, rm 100 is the SIB line and rm 101 the disp32 line; with mod 01 and 10, rm 100 is the SIB
line; a SIB base of 101 with mod 00 means no base register. -/
def Addr.wf : Addr → Bool
  | .base r => decide (r ≠ .esp) && decide (r ≠ .ebp)
  | .disp32 _ => true
  | .baseDisp8 r _ => decide (r ≠ .esp)
  | .baseDisp32 r _ => decide (r ≠ .esp)
  | .sib s => decide (s.base ≠ .ebp)
  | .sibNoBase _ _ _ => true
  | .sibDisp8 _ _ => true
  | .sibDisp32 _ _ => true

/-- A register operand is always encodable; a memory operand is as `Addr.wf` says. -/
def RM16.wf : RM16 → Bool
  | .reg _ => true
  | .mem a => a.wf

/-- The instruction terms that the encodings of 30_encoding.md can express. -/
def Instr.wf : Instr → Bool
  | .str d => d.wf
  | .ltr d => d.wf
  | .jmpPtr _ _ => true
  | .jmpMem a => a.wf
  | .callPtr _ _ => true
  | .callMem a => a.wf
  | .iret => true
  | .intN _ => true

end Sys2Proof
end

