-- ==== Sys2Proof/Decode.lean ====
section
/-! DEFINITION. The decoder of 30_encoding.md R110 to R120, total on any bytes, and the encoder written from the same tables. -/

namespace Sys2Proof

/-! ## Register numbers and bytes -/

/-- 00_scope.md R8: general register number i. -/
def regOfNum (b : BitVec 3) : Reg :=
  match b.toNat with
  | 0 => .eax
  | 1 => .ecx
  | 2 => .edx
  | 3 => .ebx
  | 4 => .esp
  | 5 => .ebp
  | 6 => .esi
  | _ => .edi

/-- 00_scope.md R8: the number of a general register. -/
def regNum : Reg → BitVec 3
  | .eax => 0
  | .ecx => 1
  | .edx => 2
  | .ebx => 3
  | .esp => 4
  | .ebp => 5
  | .esi => 6
  | .edi => 7

/-- The four bytes of a 32-bit value, lowest first (20_memory.md R82). -/
def wordBytes (w : Word) : List Byte :=
  [w.extractLsb' 0 8, w.extractLsb' 8 8, w.extractLsb' 16 8, w.extractLsb' 24 8]

/-- The two bytes of a 16-bit value, lowest first (20_memory.md R82). -/
def halfBytes (h : Half) : List Byte :=
  [h.extractLsb' 0 8, h.extractLsb' 8 8]

/-- The 16-bit value of two bytes, lowest first. -/
def halfOfBytes (b0 b1 : Byte) : Half := b1 ++ b0

/-- The 32-bit value of four bytes, lowest first. -/
def wordOfBytes (b0 b1 b2 b3 : Byte) : Word := b3 ++ b2 ++ b1 ++ b0

/-- The bytes of a row of spec/opcode_table.json whose first byte is the most significant of the number `w`, as the row's own
`match`, `mask` and `fixed` number them (log 19). -/
def bytesHighFirst (w : Nat) : Nat → List Byte
  | 0 => []
  | n + 1 => BitVec.ofNat 8 (w >>> (8 * n)) :: bytesHighFirst w n

/-- The same bytes when the first byte is the least significant of the number. -/
def bytesLowFirst (w : Nat) : Nat → List Byte
  | 0 => []
  | n + 1 => BitVec.ofNat 8 w :: bytesLowFirst (w >>> 8) n

/-! ## What decoding answers -/

/-- The answers of the decoder (30_encoding.md R118): an instruction and its length in bytes; `more`, where the bytes given
end before the instruction does; the invalid forms of R120, which raise UD; a prefix byte (R111; log 43); an
instruction outside the spec. -/
inductive Decoded where
  | instr (i : Instr) (len : Nat)
  | more
  | undefined
  | prefixByte (b : Byte)
  | outOfScope (b : Byte)
  deriving DecidableEq, Repr, Inhabited

/-! ## Memory operands -/

/-- A 32-bit displacement at the head of the bytes. -/
def takeWord : List Byte → Option Word
  | b0 :: b1 :: b2 :: b3 :: _ => some (wordOfBytes b0 b1 b2 b3)
  | _ => none

/-- The fields of a SIB byte (30_encoding.md R114): scale 7:6, index 5:3, base 2:0. -/
def sibOfByte (b : Byte) : Sib :=
  { scale := b.extractLsb' 6 2, index := regOfNum (b.extractLsb' 3 3), base := regOfNum (b.extractLsb' 0 3) }

/-- The SIB byte with these fields. -/
def sibByte (s : Sib) : Byte := s.scale ++ regNum s.index ++ regNum s.base

/-- The SIB lines of 30_encoding.md R114, from the bytes after the SIB byte; the count includes the SIB byte. -/
def decodeSib (mod : BitVec 2) (s : Sib) (rest : List Byte) : Option (Addr × Nat) :=
  if mod = 0 then
    if s.base = .ebp then (takeWord rest).map fun d => (.sibNoBase s.scale s.index d, 5)
    else some (.sib s, 1)
  else if mod = 1 then rest.head?.map fun d => (.sibDisp8 s d, 2)
  else (takeWord rest).map fun d => (.sibDisp32 s d, 5)

/-- The table of 30_encoding.md R114 for `mod` other than 11b: the memory operand and how many bytes follow the ModRM byte;
`none` where the bytes end too soon. -/
def decodeAddr (mod : BitVec 2) (rm : BitVec 3) (rest : List Byte) : Option (Addr × Nat) :=
  if rm = 4 then
    match rest with
    | [] => none
    | b :: rest' => decodeSib mod (sibOfByte b) rest'
  else if mod = 0 then
    if rm = 5 then (takeWord rest).map fun d => (.disp32 d, 4)
    else some (.base (regOfNum rm), 0)
  else if mod = 1 then rest.head?.map fun d => (.baseDisp8 (regOfNum rm) d, 1)
  else (takeWord rest).map fun d => (.baseDisp32 (regOfNum rm) d, 4)

/-! ## The decoder -/

/-- The prefix bytes of 30_encoding.md R111. -/
def isPrefix (b : Byte) : Bool :=
  [0x66#8, 0x67#8, 0x26#8, 0x2E#8, 0x36#8, 0x3E#8, 0x64#8, 0x65#8, 0xF0#8, 0xF2#8, 0xF3#8].contains b

/-- The formats `OP_PTR` (30_encoding.md R112, R115): a 4-byte offset, then a 2-byte selector. -/
def decodePtr (mk : Word → Half → Instr) : List Byte → Decoded
  | o0 :: o1 :: o2 :: o3 :: s0 :: s1 :: _ => .instr (mk (wordOfBytes o0 o1 o2 o3) (halfOfBytes s0 s1)) 7
  | _ => .more

/-- A ModRM byte and its memory operand, for the formats `OP_M` and `OP2_M`; `n` is how many bytes stand before what follows
the ModRM byte. -/
def decodeMem (mk : Addr → Instr) (n : Nat) (m : Byte) (rest : List Byte) : Decoded :=
  match decodeAddr (m.extractLsb' 6 2) (m.extractLsb' 0 3) rest with
  | some (a, k) => .instr (mk a) (n + k)
  | none => .more

/-- An r/m16 operand (30_encoding.md R113): a register with `mod` 11b, memory otherwise. -/
def decodeRM16 (mk : RM16 → Instr) (m : Byte) (rest : List Byte) : Decoded :=
  if m.extractLsb' 6 2 = 3 then .instr (mk (.reg (regOfNum (m.extractLsb' 0 3)))) 3
  else decodeMem (fun a => mk (.mem a)) 3 m rest

/-- After FFh (30_encoding.md R117, R118, R120): /5 and /3 with a memory operand; with `mod` 11b those two are not
instructions; any other `reg` is out of scope. -/
def decodeFF : List Byte → Decoded
  | [] => .more
  | m :: rest =>
    if m.extractLsb' 3 3 = 5 then
      if m.extractLsb' 6 2 = 3 then .undefined else decodeMem .jmpMem 2 m rest
    else if m.extractLsb' 3 3 = 3 then
      if m.extractLsb' 6 2 = 3 then .undefined else decodeMem .callMem 2 m rest
    else .outOfScope 0xFF

/-- After 0Fh (30_encoding.md R117, R118): 00h and then ModRM with `reg` 001 or 011. -/
def decode0F : List Byte → Decoded
  | [] => .more
  | b1 :: rest =>
    if b1 = 0x00 then
      match rest with
      | [] => .more
      | m :: rest' =>
        if m.extractLsb' 3 3 = 1 then decodeRM16 .str m rest'
        else if m.extractLsb' 3 3 = 3 then decodeRM16 .ltr m rest'
        else .outOfScope 0x0F
    else .outOfScope 0x0F

/-- The decoder (30_encoding.md R117 to R120), total on any bytes. INT 3 (CCh) and INTO (CEh) are the one-byte forms of R119.
A first byte that is a prefix answers `prefixByte` whatever follows it. R111 says so before one of the eight instructions; before
other bytes R118 would have any first byte it does not list be an instruction outside the spec: DESIGN CHOICE, log 43. -/
def decode : List Byte → Decoded
  | [] => .more
  | b :: rest =>
    if b = 0xEA then decodePtr .jmpPtr rest
    else if b = 0x9A then decodePtr .callPtr rest
    else if b = 0xCF then .instr .iret 1
    else if b = 0xCD then
      match rest with
      | [] => .more
      | v :: _ => .instr (.intN (.imm v)) 2
    else if b = 0xCC then .instr (.intN .int3) 1
    else if b = 0xCE then .instr (.intN .into) 1
    else if b = 0xFF then decodeFF rest
    else if b = 0x0F then decode0F rest
    else if isPrefix b then .prefixByte b
    else .outOfScope b

/-! ## The encoder -/

/-- A ModRM byte from its three fields (30_encoding.md R113). -/
def modRM (mod : BitVec 2) (reg rm : BitVec 3) : Byte := mod ++ reg ++ rm

/-- ModRM, SIB and displacement bytes of a memory operand, with `reg` the opcode extension (30_encoding.md R113, R114). -/
def encodeAddr (reg : BitVec 3) : Addr → List Byte
  | .base r => [modRM 0 reg (regNum r)]
  | .disp32 d => modRM 0 reg 5 :: wordBytes d
  | .baseDisp8 r d => [modRM 1 reg (regNum r), d]
  | .baseDisp32 r d => modRM 2 reg (regNum r) :: wordBytes d
  | .sib s => [modRM 0 reg 4, sibByte s]
  | .sibNoBase sc ix d => modRM 0 reg 4 :: sibByte { scale := sc, index := ix, base := .ebp } :: wordBytes d
  | .sibDisp8 s d => [modRM 1 reg 4, sibByte s, d]
  | .sibDisp32 s d => modRM 2 reg 4 :: sibByte s :: wordBytes d

/-- ModRM and what follows it for an r/m16 operand. -/
def encodeRM16 (reg : BitVec 3) : RM16 → List Byte
  | .reg r => [modRM 3 reg (regNum r)]
  | .mem a => encodeAddr reg a

/-- The bytes of an instruction (30_encoding.md R112, R117, R119). -/
def encode : Instr → List Byte
  | .str d => 0x0F :: 0x00 :: encodeRM16 1 d
  | .ltr d => 0x0F :: 0x00 :: encodeRM16 3 d
  | .jmpPtr off sel => 0xEA :: (wordBytes off ++ halfBytes sel)
  | .jmpMem a => 0xFF :: encodeAddr 5 a
  | .callPtr off sel => 0x9A :: (wordBytes off ++ halfBytes sel)
  | .callMem a => 0xFF :: encodeAddr 3 a
  | .iret => [0xCF]
  | .intN (.imm v) => [0xCD, v]
  | .intN .int3 => [0xCC]
  | .intN .into => [0xCE]

/-! ## Lengths -/

/-- How many bytes a memory operand takes, its ModRM byte included (30_encoding.md R114). -/
def addrLength : Addr → Nat
  | .base _ => 1
  | .disp32 _ => 5
  | .baseDisp8 _ _ => 2
  | .baseDisp32 _ _ => 5
  | .sib _ => 2
  | .sibNoBase _ _ _ => 6
  | .sibDisp8 _ _ => 3
  | .sibDisp32 _ _ => 6

/-- How many bytes an r/m16 operand takes. -/
def rm16Length : RM16 → Nat
  | .reg _ => 1
  | .mem a => addrLength a

/-- The length in bytes of an instruction (30_encoding.md R112, and the lengths of spec/opcode_table.json). -/
def instrLength : Instr → Nat
  | .str d => 2 + rm16Length d
  | .ltr d => 2 + rm16Length d
  | .jmpPtr _ _ => 7
  | .jmpMem a => 1 + addrLength a
  | .callPtr _ _ => 7
  | .callMem a => 1 + addrLength a
  | .iret => 1
  | .intN (.imm _) => 2
  | .intN .int3 => 1
  | .intN .into => 1

/-- The longest instruction of the model: LTR or STR with SIB and a 32-bit displacement. -/
def maxLength : Nat := 8

/-! ## A row's word, as the host hands it over -/

/-- `bs` begins with an instruction of at least `n` bytes. -/
def readsInstr (n : Nat) (bs : List Byte) : Bool :=
  match decode bs with
  | .instr _ k => decide (n ≤ k)
  | _ => false

/-- The bytes of the instruction whose bits are `w`, zeros after them up to `maxLength`. The table's own numbers have the first
byte most significant; where those bytes are no instruction, the other layout is taken. Log 19. -/
def tableBytes (nbits w : Nat) : List Byte :=
  let n := (nbits + 7) / 8
  let zeros := List.replicate (maxLength - n) (0 : Byte)
  let high := bytesHighFirst w n ++ zeros
  let low := bytesLowFirst w n ++ zeros
  if readsInstr n high then high else if readsInstr n low then low else high

/-- The instruction the decoder reads from an instruction whose bits are `w`, numbered as spec/opcode_table.json numbers them;
the bits it has above `nbits` are 0. -/
def decodeTableWord (nbits w : Nat) : Option Instr :=
  match decode (tableBytes nbits w) with
  | .instr i _ => some i
  | _ => none

end Sys2Proof
end

