-- ==== Sys2Proof/Config.lean ====
section
/-! DEFINITION. The parameters of 00_scope.md R6 that do not speak of the whole state, and the free values. Each open one is an
opaque constant with no body: nothing can be proved of its value. The parameters that take the state are in
Sys2Proof/Machine/Params.lean. -/

namespace Sys2Proof

/-- The two kinds of access that `Translate` and `SegToLinear` are asked about (00_scope.md R11, R12). -/
inductive Access where
  | read | write
  deriving DecidableEq, Repr, Inhabited

/-- The exception classes the parameters `LoadSeg`, `LoadLDT` and `SegToLinear` may answer with. 00_scope.md R12 says only 'an
exception'; 60_exceptions.md R232 row 14 names these four for `LoadLDT` and `LoadSeg`, and R230 gives SS to `LoadSeg` alone.
That `SegToLinear` answers with one of the same four and no other is the model's choice: DESIGN CHOICE, log 6. -/
inductive SegClass where
  | ts | np | ss | gp
  deriving DecidableEq, Repr, Inhabited

/-- The exception that `LoadSeg`, `LoadLDT` or `SegToLinear` answers: class and error selector (00_scope.md R12). -/
structure SegFault where
  cls : SegClass
  err : Half
  deriving DecidableEq, Repr, Inhabited

/-- The hidden part of a segment register (10_state.md R27), which the spec keeps opaque: `flat` is the instantiation of
00_scope.md R12 and 95_test_vectors.md section 3.1 (`SegToLinear` returns the offset unchanged); `other` is anything else the
parameter `LoadSeg` may answer, known by a token only. Log 6. -/
inductive SegHidden where
  | flat
  | other (token : Nat)
  deriving DecidableEq, Repr, Inhabited

/-- The hidden part of the LDT register: no table, or its base and its limit (10_state.md R31, R59). PRESUMED, log 7. -/
inductive LdtHidden where
  | absent
  | table (base limit : Word)
  deriving DecidableEq, Repr, Inhabited

/-- The parameter `int_n_checks_gate_dpl` (42_task_transfer_instructions.md R207): OPEN. Log 9. -/
opaque Config.intNChecksGateDpl : Bool

/-- The parameter `Translate` with paging enabled (00_scope.md R11): a function of PDBR, of physical memory, of the linear
address and of the access; `none` is `NotPresent`. OPEN. Log 5. -/
opaque Config.translatePaged : Word → List Host.Cell → Word → Access → Option Word

/-- The parameter `SegToLinear` for a hidden part that is not `flat` (00_scope.md R12): a function of the segment register, of
the token its hidden part holds, of CPL, offset, width and access. OPEN. Log 6. -/
opaque Config.segToLinear : SegName → Nat → BitVec 2 → Word → Nat → Access → Except SegFault Word

/-- The relation of `ext_int_enabled` to EFLAGS, which 60_exceptions.md R238 leaves OPEN: whether an EFLAGS image lets external
interrupts in, by bits the source does not name (R241). Log 15. -/
opaque Config.eflagsAdmitExternal : Word → Bool

/-- Free value: bits 31:16 of the register that STR writes (40_task_register.md R141). Log 10. -/
opaque Config.strUpper : Nat → Half

/-- Free value: what a save puts into the reserved half of a selector slot (10_state.md R41). Log 11. -/
opaque Config.reservedHalf : Nat → Half

end Sys2Proof
end

