-- ==== Sys2Proof/Machine/State.lean ====
section
/-! DEFINITION. The state of the machine (10_state.md part 1), the reasons a step can stop, and the state after reset. -/

namespace Sys2Proof.Machine

/-! ## Exceptions and stops -/

/-- The exception classes of 60_exceptions.md R230 with the error information each carries (R231); a page fault carries the
faulting linear address and nothing else (R235). -/
inductive Exn where
  /-- debug exception, vector 1 -/
  | db
  /-- invalid opcode, vector 6 -/
  | ud
  /-- invalid TSS, vector 10 -/
  | ts (err : Half)
  /-- segment not present, vector 11 -/
  | np (err : Half)
  /-- stack fault, vector 12 -/
  | ss (err : Half)
  /-- general protection, vector 13 -/
  | gp (err : Half)
  /-- page fault, vector 14 -/
  | pf (lin : Word)
  deriving DecidableEq, Repr, Inhabited

/-- What the processor is delivering: an exception or an external interrupt (60_exceptions.md R243). -/
inductive Event where
  | exception (e : Exn)
  | external (v : Byte)
  deriving DecidableEq, Repr, Inhabited

/-- Where an event that vectors comes from (42_task_transfer_instructions.md R208). -/
inductive Origin where
  | software | external | exception
  deriving DecidableEq, Repr, Inhabited

/-- The outcome `Fault` of 00_scope.md R14: the spec does not settle what the hardware does, and no claim holds of it. -/
inductive Fault where
  /-- Raised by the delivery of an exception or of an external interrupt that itself raises (60_exceptions.md R243). Safe: the
  model stops where the hardware goes on in a way the spec does not give. -/
  | exceptionDuringDelivery (during : Event) (raised : Exn)
  /-- Raised by an access of a task switch after its commit point that meets a not-present page (20_memory.md R91). Safe. -/
  | pageFaultInsideTaskSwitch
  /-- Raised by a read of a byte of memory that nothing has written (10_state.md R61). Safe. -/
  | unwrittenMemory (addr : Word)
  deriving DecidableEq, Repr, Inhabited

/-- The outcome `Refuse` of 00_scope.md R14: a form that the spec gives no meaning because it is out of scope. -/
inductive Refusal where
  /-- Raised by `exec` for an instruction that has no meaning yet. Safe. -/
  | notModelled (mnemonic : String)
  /-- Raised by LTR and the task switch where a descriptor of type 1 or 3 stands for a TSS descriptor (30_encoding.md R121). Safe. -/
  | tss16NotModelled
  /-- Raised by a step whose instruction begins with a prefix byte: before one of the eight instructions by 30_encoding.md R111,
  before any other bytes by the model's choice (log 43). Safe. -/
  | prefixNotModelled (b : Byte)
  /-- Raised by a step for bytes that are none of the instructions in scope (30_encoding.md R118) and begin with no prefix byte
  (log 43). Safe. -/
  | instructionOutOfScope (b : Byte)
  deriving DecidableEq, Repr, Inhabited

/-- How an operation ends without a next state: it raises an exception, or it stops the model. -/
inductive Stop where
  | raise (e : Exn)
  | fault (f : Fault)
  | refuse (r : Refusal)
  deriving DecidableEq, Repr, Inhabited

/-! ## Registers -/

/-- The eight general registers (10_state.md R21). -/
structure Gprs where
  eax : Word
  ecx : Word
  edx : Word
  ebx : Word
  esp : Word
  ebp : Word
  esi : Word
  edi : Word
  deriving DecidableEq, Repr, Inhabited

/-- A segment register: visible selector and hidden part (10_state.md R27). -/
structure SegReg where
  sel : Half
  hidden : SegHidden
  deriving DecidableEq, Repr, Inhabited

/-- The six segment registers (10_state.md R27). -/
structure Segs where
  es : SegReg
  cs : SegReg
  ss : SegReg
  ds : SegReg
  fs : SegReg
  gs : SegReg
  deriving DecidableEq, Repr, Inhabited

/-- The task register: visible selector, invisible base and limit (10_state.md R30). -/
structure TaskReg where
  sel : Half
  base : Word
  limit : Word
  deriving DecidableEq, Repr, Inhabited

/-- The LDT register: selector and hidden part (10_state.md R31). -/
structure LdtReg where
  sel : Half
  hidden : LdtHidden
  deriving DecidableEq, Repr, Inhabited

/-- GDTR and IDTR: linear base, and the offset of the table's last byte (10_state.md R35). -/
structure TableReg where
  base : Word
  limit : Half
  deriving DecidableEq, Repr, Inhabited

/-! ## The state -/

/-- The machine's state. Which rule names each field, and its reset value, stands in INVENTORY.md under State. -/
structure State where
  /-- EAX to EDI (10_state.md R21) -/
  gpr : Gprs
  /-- EIP (10_state.md R23) -/
  eip : Word
  /-- EFLAGS, NT its bit 14 (10_state.md R25, R26) -/
  eflags : Word
  /-- ES, CS, SS, DS, FS, GS (10_state.md R27) -/
  segs : Segs
  /-- CPL, a component of its own (10_state.md R28) -/
  cpl : BitVec 2
  /-- TR (10_state.md R30) -/
  tr : TaskReg
  /-- The LDT register (10_state.md R31) -/
  ldtr : LdtReg
  /-- PDBR (10_state.md R32) -/
  pdbr : Word
  /-- The TS bit of MSW (10_state.md R33) -/
  ts : Bool
  /-- Paging is enabled (10_state.md R34) -/
  pg : Bool
  /-- GDTR (10_state.md R35) -/
  gdtr : TableReg
  /-- IDTR (10_state.md R35) -/
  idtr : TableReg
  /-- Physical memory: the bytes that have a value, addresses strictly rising (20_memory.md R80; log 2) -/
  mem : List Host.Cell
  /-- The model-level bit `ext_int_enabled` (60_exceptions.md R238), which nothing writes; EFLAGS has its say in `admitsExternal`
  (R241; log 15) -/
  extIntEnabled : Bool
  /-- The free input of external interrupts: what is presented at the coming boundaries (42 R209; log 15) -/
  extInts : List (Option Byte)
  /-- MODEL'S OWN: an exception raised in the incoming task at the end of a task switch, not yet delivered (log 12) -/
  pending : Option Exn
  /-- MODEL'S OWN: the last exception delivered, with its error information (42 R210; log 16) -/
  lastExn : Option Exn
  /-- MODEL'S OWN: the counter that indexes the free values (log 10, log 11) -/
  freeCount : Nat
  deriving DecidableEq, Repr, Inhabited

/-- The machine right after reset. The spec gives no reset value at all (10_state.md R61): every register is zero by a DESIGN
CHOICE (log 1), the segment registers' hidden parts are flat (log 6), there is no LDT (log 7), nothing is listed in memory (log 2)
and no external interrupt is presented (log 15). -/
def State.reset : State where
  gpr := { eax := 0, ecx := 0, edx := 0, ebx := 0, esp := 0, ebp := 0, esi := 0, edi := 0 }
  eip := 0
  eflags := 0
  segs := { es := ⟨0, .flat⟩, cs := ⟨0, .flat⟩, ss := ⟨0, .flat⟩, ds := ⟨0, .flat⟩, fs := ⟨0, .flat⟩, gs := ⟨0, .flat⟩ }
  cpl := 0
  tr := { sel := 0, base := 0, limit := 0 }
  ldtr := { sel := 0, hidden := .absent }
  pdbr := 0
  ts := false
  pg := false
  gdtr := { base := 0, limit := 0 }
  idtr := { base := 0, limit := 0 }
  mem := []
  extIntEnabled := false
  extInts := []
  pending := none
  lastExn := none
  freeCount := 0

end Sys2Proof.Machine
end

