-- ==== Sys2Proof/Machine/Descriptors.lean ====
section
/-! DEFINITION. Selectors, descriptors and their fields (10_state.md parts 3 to 5), and error information (60_exceptions.md R231). -/

namespace Sys2Proof.Machine

/-! ## Selectors (10_state.md R57) -/

/-- The index, bits 15:3. -/
def selIndex (sel : Half) : Nat := (sel >>> 3).toNat

/-- TI, bit 2: true names the current LDT. -/
def selTI (sel : Half) : Bool := sel.getLsbD 2

/-- RPL, bits 1:0. -/
def selRPL (sel : Half) : BitVec 2 := sel.extractLsb' 0 2

/-- The null selector: bits 15:2 all zero. -/
def selNull (sel : Half) : Bool := decide (sel >>> 2 = 0)

/-! ## Error information (60_exceptions.md R231) -/

/-- `E(sel)`: the selector with bits 1:0 cleared. -/
def errSel (sel : Half) : Half := sel &&& 0xFFFC

/-- `E(sel)`, plus 1 where an external interrupt or an exception started the transfer (60_exceptions.md R231, 41_task_switch.md R171). -/
def errSelExt (ext : Bool) (sel : Half) : Half := if ext then errSel sel + 1 else errSel sel

/-- The event did not come from the program's own instruction. -/
def originExt : Origin → Bool
  | .software => false
  | .external => true
  | .exception => true

/-- `IdtErr(v, origin)`: 8v + 2, plus 1 when the event did not come from the program's own instruction. -/
def idtErr (v : Byte) (origin : Origin) : Half :=
  let e : Half := 8 * v.setWidth 16 + 2
  if originExt origin then e + 1 else e

/-- The vector of an exception class (60_exceptions.md R230). -/
def exnVector : Exn → Byte
  | .db => 1
  | .ud => 6
  | .ts _ => 10
  | .np _ => 11
  | .ss _ => 12
  | .gp _ => 13
  | .pf _ => 14

/-- The exception that a segmentation parameter's answer stands for. -/
def segFaultExn (f : SegFault) : Exn :=
  match f.cls with
  | .ts => .ts f.err
  | .np => .np f.err
  | .ss => .ss f.err
  | .gp => .gp f.err

/-! ## Descriptors (10_state.md R45 to R58) -/

/-- An 8-byte descriptor as its two 32-bit rows, the low row at its address and the high row at its address plus 4. -/
structure Desc where
  low : Word
  high : Word
  deriving DecidableEq, Repr, Inhabited

/-- Bit 12 of the high row clear: a system descriptor (10_state.md R48, R58). -/
def descSystem (d : Desc) : Bool := !d.high.getLsbD 12

/-- TYPE, bits 11:8 of the high row. -/
def descType (d : Desc) : BitVec 4 := d.high.extractLsb' 8 4

/-- `IsTSS(d)`: a 32-bit TSS descriptor, available (9) or busy (11) (10_state.md R58). -/
def isTss (d : Desc) : Bool := descSystem d && (descType d == 9 || descType d == 11)

/-- A 16-bit TSS descriptor, types 1 and 3 (10_state.md R58, 30_encoding.md R121). -/
def isTss16 (d : Desc) : Bool := descSystem d && (descType d == 1 || descType d == 3)

/-- `IsTaskGate(d)`: type 5 (10_state.md R53, R58). -/
def isTaskGate (d : Desc) : Bool := descSystem d && descType d == 5

/-- `Busy(d)`: bit 9 of the high row (10_state.md R47). -/
def descBusy (d : Desc) : Bool := d.high.getLsbD 9

/-- `DPL(d)`: bits 14:13 of the high row. -/
def descDPL (d : Desc) : BitVec 2 := d.high.extractLsb' 13 2

/-- `P(d)`: bit 15 of the high row. -/
def descPresent (d : Desc) : Bool := d.high.getLsbD 15

/-- G: bit 23 of the high row. -/
def descG (d : Desc) : Bool := d.high.getLsbD 23

/-- `GateSel(d)`: bits 31:16 of the low row (10_state.md R53). -/
def gateSel (d : Desc) : Half := d.low.extractLsb' 16 16

/-- `Base(d)`: BASE 31..24, 23..16, 15..0 (10_state.md R46). -/
def descBase (d : Desc) : Word :=
  d.high.extractLsb' 24 8 ++ d.high.extractLsb' 0 8 ++ d.low.extractLsb' 16 16

/-- `Limit20(d)`: LIMIT 19..16, 15..0 (10_state.md R46). -/
def descLimit20 (d : Desc) : BitVec 20 := d.high.extractLsb' 16 4 ++ d.low.extractLsb' 0 16

/-- `EffLimit(d)`: the limit in bytes; with G set it is scaled by 4096 and its low 12 bits are ones (10_state.md R46). -/
def effLimit (d : Desc) : Word :=
  if descG d then descLimit20 d ++ 0xFFF#12 else (descLimit20 d).setWidth 32

/-- The high row with its busy bit replaced (10_state.md R60). -/
def withBusy (b : Bool) (high : Word) : Word :=
  if b then high ||| 0x200 else high &&& ~~~0x200

end Sys2Proof.Machine
end

