-- ==== Sys2Proof/Machine/Flags.lean ====
section
/-! DEFINITION. The flag computations: NT of Table 7-2 (41_task_switch.md R170) and the flag INTO reads. -/

namespace Sys2Proof.Machine

/-- The cause of a task switch (41_task_switch.md R151); `int` stands for an interrupt instruction, an external interrupt or an
exception. -/
inductive SwitchKind where
  | jmp | call | iret | int
  deriving DecidableEq, Repr, Inhabited

/-- NT is bit 14 of EFLAGS (10_state.md R26). -/
def ntMask : Word := 0x4000

/-- The NT flag of a flags image. -/
def flagNT (f : Word) : Bool := f.getLsbD 14

/-- The EFLAGS image saved in the outgoing TSS: NT is cleared by an IRET, and everything else is the live value
(41_task_switch.md R160). -/
def savedFlags (k : SwitchKind) (f : Word) : Word :=
  match k with
  | .iret => f &&& ~~~ntMask
  | .jmp | .call | .int => f

/-- EFLAGS as the incoming task starts: NT set by CALL and interrupts, cleared by JMP, as loaded on IRET (41_task_switch.md R167). -/
def incomingFlags (k : SwitchKind) (f : Word) : Word :=
  match k with
  | .call | .int => f ||| ntMask
  | .jmp => f &&& ~~~ntMask
  | .iret => f

/-- The switch places the outgoing task in the chain: it links, and leaves the task busy (41_task_switch.md R162, R167). -/
def links : SwitchKind → Bool
  | .call | .int => true
  | .jmp | .iret => false

/-- The overflow flag, which INTO reads (30_encoding.md R119). The spec gives no position: bit 11 is PRESUMED, log 18. -/
def flagOF (f : Word) : Bool := f.getLsbD 11

end Sys2Proof.Machine
end

