-- ==== Sys2Proof/Machine/Memory.lean ====
section
/-! DEFINITION. Physical memory as a list of cells in one canonical form: addresses strictly rising and below 2^32. -/

namespace Sys2Proof.Machine

/-- The byte at a physical address; `none` where nothing has written one (10_state.md R61; log 2). -/
def memGet : List Host.Cell → Nat → Option Byte
  | [], _ => none
  | (c, x) :: rest, a => if c = a then some x else memGet rest a

/-- Store a byte, keeping the addresses rising. -/
def memPut : List Host.Cell → Nat → Byte → List Host.Cell
  | [], a, b => [(a, b)]
  | (c, x) :: rest, a, b =>
    if a < c then (a, b) :: (c, x) :: rest
    else if a = c then (a, b) :: rest
    else (c, x) :: memPut rest a b

/-- Every address is at least `lo` and they rise strictly. -/
def memRising (lo : Nat) : List Host.Cell → Bool
  | [] => true
  | (a, _) :: rest => decide (lo ≤ a) && memRising (a + 1) rest

/-- The canonical form: addresses strictly rising, each a 32-bit address. There is no value that an unlisted byte reads as, so no
entry is barred for its value. -/
def Memory.wf (m : List Host.Cell) : Bool :=
  memRising 0 m && m.all fun c => decide (c.1 < 2 ^ 32)

end Sys2Proof.Machine
end

