-- ==== Sys2Proof/Machine/Params.lean ====
section
/-! DEFINITION. The parameters of 00_scope.md R12 that may look at the whole state: `LoadSeg`, `LoadLDT`, `OtherTransfer`, and, for
20_memory.md R91, whether an access that the first two make meets a not-present page. Each is an opaque constant with no body. -/

namespace Sys2Proof

open Machine

/-- What is asked of the standard mechanism (00_scope.md R12): a far JMP or CALL with its pointer and the offset of the next
instruction; an IRET with NT clear; an interrupt or exception through an IDT entry that is no task gate. -/
inductive OtherRequest where
  | jmp (sel : Half) (off next : Word)
  | call (sel : Half) (off next : Word)
  | iret (next : Word)
  | int (v : Byte) (origin : Origin) (retEip : Word)
  deriving DecidableEq, Repr, Inhabited

/-- What the standard mechanism leaves behind: the general registers, EIP, EFLAGS, the segment registers with their hidden
parts, CPL, and bytes it stored at physical addresses. It cannot write TR (40_task_register.md R142), nor LDTR, PDBR, MSW.TS, PG,
GDTR, IDTR, `ext_int_enabled` (60_exceptions.md R238): it lets external interrupts in or shuts them out through EFLAGS alone.
Log 8. -/
structure OtherEffect where
  gpr : Gprs
  eip : Word
  eflags : Word
  segs : Segs
  cpl : BitVec 2
  stores : List (Word × Byte)
  deriving DecidableEq, Repr, Inhabited

/-- The answers of `OtherTransfer`: an effect, or an exception of any class. 60_exceptions.md R236 gives DB no cause but the T-bit;
an answer of DB is taken as a fault (log 8). -/
inductive OtherAnswer where
  | effect (e : OtherEffect)
  | raise (e : Exn)
  deriving DecidableEq, Repr, Inhabited

/-- The parameter `LoadSeg(k, sel, cpl)` (00_scope.md R12), in the state it is asked in: a hidden part, or an exception.
OPEN. Log 6. -/
opaque Config.loadSeg : SegName → Half → BitVec 2 → State → Except SegFault SegHidden

/-- The parameter `LoadLDT(sel)` (00_scope.md R12), in the state it is asked in. OPEN. Log 7. -/
opaque Config.loadLdt : Half → State → Except SegFault LdtHidden

/-- An access that `LoadSeg(k, sel, cpl)` makes in this state meets a not-present page. It is asked only of a task switch with
paging on (20_memory.md R91); which accesses the load makes is `LoadSeg`'s own business. OPEN. Log 14. -/
opaque Config.loadSegNotPresent : SegName → Half → BitVec 2 → State → Bool

/-- The same of `LoadLDT(sel)`. OPEN. Log 14. -/
opaque Config.loadLdtNotPresent : Half → State → Bool

/-- The parameter `OtherTransfer(kind, operand)` (00_scope.md R12), in the state it is asked in. OPEN. Log 8. -/
opaque Config.otherTransfer : OtherRequest → State → OtherAnswer

end Sys2Proof
end

