-- ==== Sys2Proof/Machine/Ops.lean ====
section
/-! DEFINITION. The shared operations: registers, memory, descriptor tables, the task switch (41_task_switch.md R171), vectoring,
taking an exception and returning from an interrupt task. An operation ends in a value or in a `Stop`. -/

namespace Sys2Proof.Machine

open Host (Outcome)

/-! ## Registers -/

/-- `x[i]` (00_scope.md R8). -/
def gprGet (g : Gprs) : Reg → Word
  | .eax => g.eax
  | .ecx => g.ecx
  | .edx => g.edx
  | .ebx => g.ebx
  | .esp => g.esp
  | .ebp => g.ebp
  | .esi => g.esi
  | .edi => g.edi

/-- `x[i] <- v` (00_scope.md R8). -/
def gprSet (g : Gprs) (r : Reg) (v : Word) : Gprs :=
  match r with
  | .eax => { g with eax := v }
  | .ecx => { g with ecx := v }
  | .edx => { g with edx := v }
  | .ebx => { g with ebx := v }
  | .esp => { g with esp := v }
  | .ebp => { g with ebp := v }
  | .esi => { g with esi := v }
  | .edi => { g with edi := v }

/-- `sreg[k]` (00_scope.md R8). -/
def segGet (g : Segs) : SegName → SegReg
  | .es => g.es
  | .cs => g.cs
  | .ss => g.ss
  | .ds => g.ds
  | .fs => g.fs
  | .gs => g.gs

/-- Replace the hidden part of a segment register. -/
def segSetHidden (g : Segs) (k : SegName) (h : SegHidden) : Segs :=
  match k with
  | .es => { g with es := { g.es with hidden := h } }
  | .cs => { g with cs := { g.cs with hidden := h } }
  | .ss => { g with ss := { g.ss with hidden := h } }
  | .ds => { g with ds := { g.ds with hidden := h } }
  | .fs => { g with fs := { g.fs with hidden := h } }
  | .gs => { g with gs := { g.gs with hidden := h } }

/-- The general registers in the order of their numbers, which is the order of their TSS slots (10_state.md R37). -/
def regOrder : List Reg := [.eax, .ecx, .edx, .ebx, .esp, .ebp, .esi, .edi]

/-- The segment registers in the order of their numbers, which is the order of their TSS slots (10_state.md R37). -/
def segOrder : List SegName := [.es, .cs, .ss, .ds, .fs, .gs]

/-! ## Memory (00_scope.md R9, R11; 20_memory.md part 2) -/

/-- `Translate(lin, access)`: the identity with PG = 0, the parameter with PG = 1; a not-present page raises PF
(00_scope.md R9, R11; 60_exceptions.md R235). -/
def translate (s : State) (lin : Word) (acc : Access) : Except Stop Word :=
  if s.pg then
    match Config.translatePaged s.pdbr s.mem lin acc with
    | some p => .ok p
    | none => .error (.raise (.pf lin))
  else .ok lin

/-- `SegToLinear(k, off, n, access)` (00_scope.md R12): the offset itself in a flat segment, the parameter otherwise. -/
def segToLinear (s : State) (k : SegName) (off : Word) (n : Nat) (acc : Access) : Except Stop Word :=
  match (segGet s.segs k).hidden with
  | .flat => .ok off
  | .other t =>
    match Config.segToLinear k t s.cpl off n acc with
    | .ok lin => .ok lin
    | .error f => .error (.raise (segFaultExn f))

/-- `MemRead(lin, 1)`. A byte that nothing has written has no value (10_state.md R61). -/
def readByte (s : State) (lin : Word) : Except Stop Byte := do
  let p ← translate s lin .read
  match memGet s.mem p.toNat with
  | some b => .ok b
  | none => .error (.fault (.unwrittenMemory p))

/-- `MemRead(lin, 2)`: the bytes one after the other, lowest first (20_memory.md R82, R84). -/
def read16 (s : State) (lin : Word) : Except Stop Half := do
  let b0 ← readByte s lin
  let b1 ← readByte s (lin + 1)
  .ok (halfOfBytes b0 b1)

/-- `MemRead(lin, 4)`. -/
def read32 (s : State) (lin : Word) : Except Stop Word := do
  let b0 ← readByte s lin
  let b1 ← readByte s (lin + 1)
  let b2 ← readByte s (lin + 2)
  let b3 ← readByte s (lin + 3)
  .ok (wordOfBytes b0 b1 b2 b3)

/-- Store a byte at a physical address. -/
def putPhys (s : State) (p : Word) (b : Byte) : State := { s with mem := memPut s.mem p.toNat b }

/-- A byte that a task switch stores. A `reserved` byte belongs to the reserved half of a selector slot, into which a save may
put any value (10_state.md R41): a not-present page there raises nothing. -/
structure StoreByte where
  val : Byte
  reserved : Bool
  deriving DecidableEq, Repr, Inhabited

/-- Bytes that must be stored. -/
def plainBytes (bs : List Byte) : List StoreByte := bs.map fun b => ⟨b, false⟩

/-- Store bytes at consecutive linear addresses, each translated on its own (20_memory.md R84). -/
def storeBytes : List StoreByte → Word → State → Except Stop State
  | [], _, s => .ok s
  | b :: bs, a, s =>
    match translate s a .write with
    | .ok p => storeBytes bs (a + 1) (putPhys s p b.val)
    | .error e => if b.reserved then storeBytes bs (a + 1) s else .error e

/-- `MemWrite(lin, 2, v)`. -/
def write16 (s : State) (lin : Word) (v : Half) : Except Stop State :=
  storeBytes (plainBytes (halfBytes v)) lin s

/-- `MemWrite(lin, 4, v)`. -/
def write32 (s : State) (lin : Word) (v : Word) : Except Stop State :=
  storeBytes (plainBytes (wordBytes v)) lin s

/-! ## Descriptor tables (10_state.md R59, R60) -/

/-- The address of entry `i` of a table whose last byte is at offset `limit`; `none` is `OutOfTable`. -/
def tableEntry (base : Word) (limit i : Nat) : Option Word :=
  if 8 * i + 7 > limit then none else some (base + BitVec.ofNat 32 (8 * i))

/-- The address of the descriptor that a selector names: in the GDT, or with TI set in the current LDT. -/
def descAddr (s : State) (sel : Half) : Option Word :=
  if selTI sel then
    match s.ldtr.hidden with
    | .absent => none
    | .table base limit => tableEntry base limit.toNat (selIndex sel)
  else tableEntry s.gdtr.base s.gdtr.limit.toNat (selIndex sel)

/-- The descriptor at a linear address, low row first. -/
def readDescAt (s : State) (a : Word) : Except Stop Desc := do
  let low ← read32 s a
  let high ← read32 s (a + 4)
  .ok { low := low, high := high }

/-- `ReadDesc(sel)`: the descriptor's address and rows; `none` is `OutOfTable`. -/
def readDesc (s : State) (sel : Half) : Except Stop (Option (Word × Desc)) :=
  match descAddr s sel with
  | none => .ok none
  | some a => do
    let d ← readDescAt s a
    .ok (some (a, d))

/-- `ReadIDT(v)`: IDT entry `v`. -/
def readIdt (s : State) (v : Byte) : Except Stop (Option Desc) :=
  match tableEntry s.idtr.base s.idtr.limit.toNat v.toNat with
  | none => .ok none
  | some a => do
    let d ← readDescAt s a
    .ok (some d)

/-- `SetBusy(a, b)`: the locked read-modify-write of the high row (10_state.md R60, 20_memory.md R88). -/
def setBusy (a : Word) (b : Bool) (s : State) : Except Stop State := do
  let high ← read32 s (a + 4)
  write32 s (a + 4) (withBusy b high)

/-! ## The task switch: the checks before the commit point (41_task_switch.md R153 to R159) -/

/-- The exception of a selector that names no TSS descriptor: TS on IRET, GP otherwise (41_task_switch.md R153). -/
def badTarget (k : SwitchKind) (err : Half) : Exn :=
  match k with
  | .iret => .ts err
  | .jmp | .call | .int => .gp err

/-- The checks on the descriptor found: present, busy or not busy, limit, in that order (41_task_switch.md R155 to R157, R159). -/
def checkTss (k : SwitchKind) (err : Half) (d : Desc) : Except Stop Unit :=
  if isTss16 d then .error (.refuse .tss16NotModelled)
  else if !isTss d then .error (.raise (badTarget k err))
  else if !descPresent d then .error (.raise (.np err))
  else if k ≠ .iret ∧ descBusy d then .error (.raise (.gp err))
  else if k = .iret ∧ !descBusy d then .error (.raise (.ts err))
  else if effLimit d < 103 then .error (.raise (.ts err))
  else .ok ()

/-- Locate and check the incoming task's TSS descriptor; nothing is written. `ext` says that an external interrupt or an
exception started the switch. -/
def findTss (k : SwitchKind) (ext : Bool) (tsel : Half) (s : State) : Except Stop (Word × Desc) :=
  if selTI tsel || selNull tsel then .error (.raise (badTarget k (errSelExt ext tsel)))
  else do
    match ← readDesc s tsel with
    | none => .error (.raise (badTarget k (errSelExt ext tsel)))
    | some (a, d) => do
      checkTss k (errSelExt ext tsel) d
      .ok (a, d)

/-! ## The task switch: saving the outgoing task (41_task_switch.md R160 to R162) -/

/-- One selector slot: the selector, then its reserved half with a free value (10_state.md R41). -/
def selectorSlot (sel : Half) (n : Nat) : List StoreByte :=
  plainBytes (halfBytes sel) ++ (halfBytes (Config.reservedHalf n)).map fun b => ⟨b, true⟩

/-- What a save writes from offset 32 of the outgoing TSS to offset 95: EIP, EFLAGS, the eight general registers, the six selector
slots (10_state.md R37). -/
def saveImage (k : SwitchKind) (retEip : Word) (s : State) : List StoreByte :=
  plainBytes (wordBytes retEip) ++ plainBytes (wordBytes (savedFlags k s.eflags))
    ++ regOrder.flatMap (fun r => plainBytes (wordBytes (gprGet s.gpr r)))
    ++ selectorSlot s.segs.es.sel s.freeCount ++ selectorSlot s.segs.cs.sel (s.freeCount + 1)
    ++ selectorSlot s.segs.ss.sel (s.freeCount + 2) ++ selectorSlot s.segs.ds.sel (s.freeCount + 3)
    ++ selectorSlot s.segs.fs.sel (s.freeCount + 4) ++ selectorSlot s.segs.gs.sel (s.freeCount + 5)

/-- Save the outgoing task through `TR.base`; `TR.limit` is not consulted. -/
def saveTask (k : SwitchKind) (retEip : Word) (s : State) : Except Stop State := do
  let s' ← storeBytes (saveImage k retEip s) (s.tr.base + 32) s
  .ok { s' with freeCount := s'.freeCount + 6 }

/-- The address of the outgoing TSS descriptor, found afresh in the GDT through `TR.sel` (41_task_switch.md R162). -/
def outgoingDesc (s : State) : Word := s.gdtr.base + BitVec.ofNat 32 (8 * selIndex s.tr.sel)

/-- Step 3: save, and clear the busy bit of a task that is not placed in the chain. -/
def leaveTask (k : SwitchKind) (retEip : Word) (s : State) : Except Stop State := do
  let s' ← saveTask k retEip s
  if links k then .ok s' else setBusy (outgoingDesc s) false s'

/-! ## The task switch: the task register and the link (41_task_switch.md R163, R167) -/

/-- The incoming descriptor's busy bit is set, except on IRET, where it is set already (41_task_switch.md R163). -/
def markBusy (k : SwitchKind) (a : Word) (s : State) : Except Stop State :=
  if k = .iret then .ok s else setBusy a true s

/-- A switch that links records the outgoing task's selector `osel` in the back-link of the TSS at `nb` (41_task_switch.md R167). -/
def linkTask (k : SwitchKind) (osel : Half) (nb : Word) (s : State) : Except Stop State :=
  if links k then write16 s nb osel else .ok s

/-- Step 4 and the back-link of step 5: load TR, mark the incoming descriptor at `a` busy, set MSW.TS, link. -/
def enterTask (k : SwitchKind) (osel tsel : Half) (a : Word) (d : Desc) (s : State) : Except Stop State := do
  let s' ← markBusy k a { s with tr := { sel := tsel, base := descBase d, limit := effLimit d } }
  linkTask k osel (descBase d) { s' with ts := true }

/-! ## The task switch: loading the incoming task (41_task_switch.md R164 to R168) -/

/-- What is read of the incoming TSS; `pd` only with paging enabled. -/
structure TssImage where
  ldt : Half
  pd : Option Word
  eip : Word
  flags : Word
  gpr : Gprs
  es : Half
  cs : Half
  ss : Half
  ds : Half
  fs : Half
  gs : Half
  t : Bool
  deriving DecidableEq, Repr, Inhabited

/-- The general registers' slots of a TSS, offsets 40 to 68. -/
def readGprs (nb : Word) (s : State) : Except Stop Gprs := do
  let eax ← read32 s (nb + 40)
  let ecx ← read32 s (nb + 44)
  let edx ← read32 s (nb + 48)
  let ebx ← read32 s (nb + 52)
  let esp ← read32 s (nb + 56)
  let ebp ← read32 s (nb + 60)
  let esi ← read32 s (nb + 64)
  let edi ← read32 s (nb + 68)
  .ok { eax, ecx, edx, ebx, esp, ebp, esi, edi }

/-- The PDBR slot, read only when paging is enabled (41_task_switch.md R165). -/
def readPd (nb : Word) (s : State) : Except Stop (Option Word) :=
  if s.pg then do
    let pd ← read32 s (nb + 28)
    .ok (some pd)
  else .ok none

/-- Read the incoming TSS in the order of 41_task_switch.md R171. -/
def readImage (nb : Word) (s : State) : Except Stop TssImage := do
  let ldt ← read16 s (nb + 96)
  let pd ← readPd nb s
  let eip ← read32 s (nb + 32)
  let flags ← read32 s (nb + 36)
  let gpr ← readGprs nb s
  let es ← read16 s (nb + 72)
  let cs ← read16 s (nb + 76)
  let ss ← read16 s (nb + 80)
  let ds ← read16 s (nb + 84)
  let fs ← read16 s (nb + 88)
  let gs ← read16 s (nb + 92)
  let t ← read16 s (nb + 100)
  .ok { ldt, pd, eip, flags, gpr, es, cs, ss, ds, fs, gs, t := t.getLsbD 0 }

/-- The registers of the incoming task, their hidden parts not yet filled (41_task_switch.md R164 to R168). CPL is the RPL of the new
CS selector. -/
def install (k : SwitchKind) (img : TssImage) (s : State) : State :=
  { s with
    ldtr := { s.ldtr with sel := img.ldt }
    pdbr := img.pd.getD s.pdbr
    eip := img.eip
    eflags := incomingFlags k img.flags
    gpr := img.gpr
    segs :=
      { es := { s.segs.es with sel := img.es }
        cs := { s.segs.cs with sel := img.cs }
        ss := { s.segs.ss with sel := img.ss }
        ds := { s.segs.ds with sel := img.ds }
        fs := { s.segs.fs with sel := img.fs }
        gs := { s.segs.gs with sel := img.gs } }
    cpl := selRPL img.cs }

/-! ## The task switch: making the segment registers usable (41_task_switch.md R168, R169) -/

/-- How the filling of a hidden part ends without one: in an exception of the incoming task (41_task_switch.md R168), or at a
not-present page, which after the commit point is no exception (20_memory.md R91). -/
inductive FillStop where
  | raise (e : Exn)
  | notPresentPage
  deriving DecidableEq, Repr, Inhabited

/-- The descriptor a selector names, read in the incoming task's address space: `none` for a null selector, for one beyond its
table, and where nothing has written the descriptor; a not-present page stops (20_memory.md R91, R92; log 14, log 27). -/
def peekDesc (s : State) (sel : Half) : Except FillStop (Option Desc) :=
  if selNull sel then .ok none
  else match readDesc s sel with
    | .ok r => .ok (r.map Prod.snd)
    | .error (.raise _) => .error .notPresentPage
    | .error (.fault _) => .ok none
    | .error (.refuse _) => .ok none

/-- A segment register can never hold this descriptor: a TSS descriptor, or, in a data or stack segment register, a task gate
(60_exceptions.md R237). -/
def segForbidden (k : SegName) (d : Desc) : Bool := isTss d || (isTaskGate d && decide (k ≠ .cs))

/-- `LoadSeg(k, sreg[k].sel, CPL)` inside a task switch: a not-present page under the descriptor stops (20_memory.md R91); then
TS(E(sel)) for what 60_exceptions.md R237 forbids; then a not-present page under another access of the load; the parameter otherwise.
That this TS carries E(sel) with bit 0 clear also where an external interrupt or an exception started the switch is the model's
choice: R231 adds 1 for a transfer that failed, 41_task_switch.md R171 and 42 R208 add it only before the commit point, and the
load comes after it. DESIGN CHOICE, log 27. -/
def loadSeg (k : SegName) (s : State) : Except FillStop SegHidden :=
  let sel := (segGet s.segs k).sel
  match peekDesc s sel with
  | .error st => .error st
  | .ok d =>
    if d.any (segForbidden k) then .error (.raise (.ts (errSel sel)))
    else if s.pg && Config.loadSegNotPresent k sel s.cpl s then .error .notPresentPage
    else match Config.loadSeg k sel s.cpl s with
      | .ok h => .ok h
      | .error f => .error (.raise (segFaultExn f))

/-- The page under the descriptor that `LDTR.sel` names in the GDT is not present; with TI set it names none there (log 14). -/
def ldtDescNotPresent (s : State) : Bool := !selTI s.ldtr.sel && decide (peekDesc s s.ldtr.sel = .error .notPresentPage)

/-- `LoadLDT(LDTR.sel)` inside a task switch: a not-present page under the descriptor, or under another access of the load, stops
(20_memory.md R91); the parameter otherwise. -/
def loadLdt (s : State) : Except FillStop LdtHidden :=
  if s.pg && (ldtDescNotPresent s || Config.loadLdtNotPresent s.ldtr.sel s) then .error .notPresentPage
  else match Config.loadLdt s.ldtr.sel s with
    | .ok h => .ok h
    | .error f => .error (.raise (segFaultExn f))

/-- Hidden parts filled so far, and what ended the filling. -/
structure Filled where
  segs : Segs
  ldt : LdtHidden
  stop : Option FillStop
  deriving DecidableEq, Repr, Inhabited

/-- Fill one segment register's hidden part, unless the filling has ended. -/
def fillSeg (s : State) (f : Filled) (k : SegName) : Filled :=
  match f.stop with
  | some _ => f
  | none =>
    match loadSeg k { s with segs := f.segs, ldtr := { s.ldtr with hidden := f.ldt } } with
    | .ok h => { f with segs := segSetHidden f.segs k h }
    | .error st => { f with stop := some st }

/-- LDT, then CS, SS, DS, ES, FS, GS (41_task_switch.md R168); the first stop ends the filling, and what is not filled keeps
its hidden part (log 28). -/
def fillHidden (s : State) : Filled :=
  match loadLdt s with
  | .error st => { segs := s.segs, ldt := s.ldtr.hidden, stop := some st }
  | .ok l =>
    [SegName.cs, .ss, .ds, .es, .fs, .gs].foldl (fillSeg s) { segs := s.segs, ldt := l, stop := none }

/-- The exception that ended the filling. -/
def fillExn (f : Filled) : Option Exn :=
  match f.stop with
  | some (.raise e) => some e
  | some .notPresentPage => none
  | none => none

/-- The exception the switch ends with in the incoming task: that of a segment load, else DB when the T-bit is set
(41_task_switch.md R168, R169; 60_exceptions.md R239). -/
def switchExn (f : Filled) (t : Bool) : Option Exn :=
  match fillExn f with
  | some e => some e
  | none => if t then some .db else none

/-- A segment register with the selector of one and the hidden part of another. -/
def withHidden (r h : SegReg) : SegReg := { sel := r.sel, hidden := h.hidden }

/-- Fill the hidden parts and leave the exception, if there is one, pending in the incoming task (log 12). -/
def makeUsable (t : Bool) (s : State) : State :=
  { s with
    segs :=
      { es := withHidden s.segs.es (fillHidden s).segs.es
        cs := withHidden s.segs.cs (fillHidden s).segs.cs
        ss := withHidden s.segs.ss (fillHidden s).segs.ss
        ds := withHidden s.segs.ds (fillHidden s).segs.ds
        fs := withHidden s.segs.fs (fillHidden s).segs.fs
        gs := withHidden s.segs.gs (fillHidden s).segs.gs }
    ldtr := { sel := s.ldtr.sel, hidden := (fillHidden s).ldt }
    pending := switchExn (fillHidden s) t }

/-- The end of a switch: a not-present page that the filling meets is `Fault(PageFaultInsideTaskSwitch)` (20_memory.md R91,
60_exceptions.md R232 row 17), which needs paging on; otherwise the incoming task stands. -/
def finishSwitch (t : Bool) (s : State) : Except Stop State :=
  if s.pg && decide ((fillHidden s).stop = some .notPresentPage) then .error (.fault .pageFaultInsideTaskSwitch)
  else .ok (makeUsable t s)

/-! ## The whole task switch (41_task_switch.md R171) -/

/-- From the commit point to the last read of the incoming TSS a not-present page is `Fault(PageFaultInsideTaskSwitch)`
(20_memory.md R91); after that read, `finishSwitch` says the same. -/
def committed {α : Type} : Except Stop α → Except Stop α
  | .ok x => .ok x
  | .error (.raise _) => .error (.fault .pageFaultInsideTaskSwitch)
  | .error (.fault f) => .error (.fault f)
  | .error (.refuse r) => .error (.refuse r)

/-- Everything from the commit point to the last read of the incoming TSS: the state then, and what was read. -/
def commitSwitch (k : SwitchKind) (tsel : Half) (retEip : Word) (a : Word) (d : Desc) (s : State) :
    Except Stop (State × TssImage) := do
  let s1 ← leaveTask k retEip s
  let s2 ← enterTask k s.tr.sel tsel a d s1
  let img ← readImage (descBase d) s2
  .ok (s2, img)

/-- `TaskSwitch(K, tsel, ret_eip)`. -/
def taskSwitch (k : SwitchKind) (ext : Bool) (tsel : Half) (retEip : Word) (s : State) : Except Stop State := do
  let (a, d) ← findTss k ext tsel s
  let (s', img) ← committed (commitSwitch k tsel retEip a d s)
  finishSwitch img.t (install k img s')

/-! ## The standard mechanism -/

/-- What the standard mechanism leaves behind, stored into the state. -/
def applyOther (e : OtherEffect) (s : State) : State :=
  { s with
    gpr := e.gpr, eip := e.eip, eflags := e.eflags, segs := e.segs, cpl := e.cpl
    mem := e.stores.foldl (fun m c => memPut m c.1.toNat c.2) s.mem }

/-- `OtherTransfer(kind, operand)` (00_scope.md R12). -/
def otherTransfer (r : OtherRequest) (s : State) : Except Stop State :=
  match Config.otherTransfer r s with
  | .effect e => .ok (applyOther e s)
  | .raise x => .error (.raise x)

/-! ## Vectoring, taking an exception, returning (42_task_transfer_instructions.md R206 to R210) -/

/-- The interrupt instruction is stopped by the gate's DPL: only where the parameter `int_n_checks_gate_dpl` says that it is
looked at (42_task_transfer_instructions.md R207, R208). -/
def gateDplRefuses (origin : Origin) (g : Desc) (s : State) : Bool :=
  decide (origin = .software) && (decide ((descDPL g).toNat < s.cpl.toNat) && Config.intNChecksGateDpl)

/-- `Vector(v, origin, ret_eip)` (42_task_transfer_instructions.md R208). -/
def vectorTo (v : Byte) (origin : Origin) (retEip : Word) (s : State) : Except Stop State := do
  match ← readIdt s v with
  | none => .error (.raise (.gp (idtErr v origin)))
  | some g =>
    if isTaskGate g then
      if gateDplRefuses origin g s then .error (.raise (.gp (idtErr v origin)))
      else if !descPresent g then .error (.raise (.np (idtErr v origin)))
      else taskSwitch .int (originExt origin) (gateSel g) retEip s
    else otherTransfer (.int v origin retEip) s

/-- The outcome of a delivery: an exception raised while an exception or an external interrupt is delivered is
`Fault(ExceptionDuringDelivery)` (60_exceptions.md R243; log 13). -/
def delivered (during : Event) : Except Stop State → Outcome State Fault Refusal
  | .ok s => .next s
  | .error (.raise e) => .fault (.exceptionDuringDelivery during e)
  | .error (.fault f) => .fault f
  | .error (.refuse r) => .refused r

/-- TAKING AN EXCEPTION (42_task_transfer_instructions.md R210, 60_exceptions.md R240): vector by the class, with the state's own EIP
saved. For a fault that is the raising instruction, whose state nothing has changed; for an exception pending in an
incoming task it is the loaded EIP (41_task_switch.md R161, R168, R169). The error information is kept in `lastExn` (log 16).
A DB that `OtherTransfer` answers is taken like a fault, with the raising instruction's EIP saved: 60_exceptions.md R230 calls DB a
trap for the T-bit only, and R236 gives it no other cause. DESIGN CHOICE, log 8. -/
def takeException (e : Exn) (s : State) : Outcome State Fault Refusal :=
  delivered (.exception e) (vectorTo (exnVector e) .exception s.eip { s with lastExn := some e })

/-- An external interrupt with vector `v` between two instructions (42_task_transfer_instructions.md R209). -/
def takeExternal (v : Byte) (s : State) : Outcome State Fault Refusal :=
  delivered (.external v) (vectorTo v .external s.eip s)

/-- Returning from an interrupt task: switch back to the task the back-link of the current TSS names
(42_task_transfer_instructions.md R206, 60_exceptions.md R242). -/
def returnFromTask (next : Word) (s : State) : Except Stop State := do
  let bl ← read16 s s.tr.base
  taskSwitch .iret false bl next s

/-- The outcome of an instruction that started in `s`: an exception it raises is taken in `s`, of which nothing was changed
(60_exceptions.md R234), a DB that `OtherTransfer` answers like any other (DESIGN CHOICE, log 8). -/
def complete (s : State) : Except Stop State → Outcome State Fault Refusal
  | .ok s' => .next s'
  | .error (.raise e) => takeException e s
  | .error (.fault f) => .fault f
  | .error (.refuse r) => .refused r

end Sys2Proof.Machine
end

