-- ==== Sys2Proof/Machine/Operands.lean ====
section
/-! DEFINITION. The operand forms: the memory operand of 30_encoding.md R114, r/m16 operands, far pointers in memory. -/

namespace Sys2Proof.Machine

/-- The index part of a SIB: 0 when the index is 100b, else the register shifted left by the scale (30_encoding.md R114). -/
def sibIndex (g : Gprs) (scale : BitVec 2) (index : Reg) : Word :=
  if index = .esp then 0 else gprGet g index <<< scale.toNat

/-- The offset of a memory operand, modulo 2^32 (30_encoding.md R114). -/
def addrOffset (g : Gprs) : Addr → Word
  | .base r => gprGet g r
  | .disp32 d => d
  | .baseDisp8 r d => gprGet g r + d.signExtend 32
  | .baseDisp32 r d => gprGet g r + d
  | .sib s => gprGet g s.base + sibIndex g s.scale s.index
  | .sibNoBase sc ix d => sibIndex g sc ix + d
  | .sibDisp8 s d => gprGet g s.base + sibIndex g s.scale s.index + d.signExtend 32
  | .sibDisp32 s d => gprGet g s.base + sibIndex g s.scale s.index + d

/-- SS for a base register of ESP or EBP, DS otherwise (30_encoding.md R114). -/
def segOfBase (r : Reg) : SegName := if r = .esp ∨ r = .ebp then .ss else .ds

/-- The default segment of a memory operand (30_encoding.md R114). -/
def addrSeg : Addr → SegName
  | .base r => segOfBase r
  | .disp32 _ => .ds
  | .baseDisp8 r _ => segOfBase r
  | .baseDisp32 r _ => segOfBase r
  | .sib s => segOfBase s.base
  | .sibNoBase _ _ _ => .ds
  | .sibDisp8 s _ => segOfBase s.base
  | .sibDisp32 s _ => segOfBase s.base

/-- The linear address of an `n`-byte memory operand (30_encoding.md R114). -/
def operandLinear (s : State) (a : Addr) (n : Nat) (acc : Access) : Except Stop Word :=
  segToLinear s (addrSeg a) (addrOffset s.gpr a) n acc

/-- Read an r/m16 operand: bits 15:0 of a register, or a memory word (40_task_register.md R140). -/
def readRM16 (s : State) : RM16 → Except Stop Half
  | .reg r => .ok ((gprGet s.gpr r).extractLsb' 0 16)
  | .mem a => do
    let lin ← operandLinear s a 2 .read
    read16 s lin

/-- Write an r/m16 operand. In a register bits 15:0 are written and bits 31:16 take a free value (40_task_register.md R141,
log 10); in memory a word is stored. -/
def writeRM16 (s : State) (v : Half) : RM16 → Except Stop State
  | .reg r => .ok { s with gpr := gprSet s.gpr r (Config.strUpper s.freeCount ++ v), freeCount := s.freeCount + 1 }
  | .mem a => do
    let lin ← operandLinear s a 2 .write
    write16 s lin v

/-- The far pointer of JMP m16:32 and CALL m16:32: a 4-byte offset, then a 2-byte selector (30_encoding.md R115). -/
def readFarPtr (s : State) (a : Addr) : Except Stop (Half × Word) := do
  let lin ← operandLinear s a 6 .read
  let off ← read32 s lin
  let sel ← read16 s (lin + 4)
  .ok (sel, off)

/-- `next_eip`: EIP plus the instruction's length, modulo 2^32 (10_state.md R23). -/
def nextEip (s : State) (i : Instr) : Word := s.eip + BitVec.ofNat 32 (instrLength i)

end Sys2Proof.Machine
end

