-- ==== Sys2Proof/Machine/TaskRegister.lean ====
section
/-! DEFINITION. LTR and STR (40_task_register.md). -/

namespace Sys2Proof.Machine

open Host (Outcome)

/-- STR (40_task_register.md R141): the visible part of TR into the operand; not privileged. -/
def storeTaskRegister (dst : RM16) (next : Word) (s : State) : Except Stop State := do
  let s' ← writeRM16 s s.tr.sel dst
  .ok { s' with eip := next }

/-- LTR's checks on the descriptor its operand names (40_task_register.md R140). -/
def checkLtr (sel : Half) (d : Desc) : Except Stop Unit :=
  if isTss16 d then .error (.refuse .tss16NotModelled)
  else if !isTss d then .error (.raise (.gp (errSel sel)))
  else if descBusy d then .error (.raise (.gp (errSel sel)))
  else if !descPresent d then .error (.raise (.np (errSel sel)))
  else .ok ()

/-- LTR once its operand has been read: the checks on the selector, then the load (40_task_register.md R140). -/
def loadTaskRegister (sel : Half) (next : Word) (s : State) : Except Stop State :=
  if selNull sel then .error (.raise (.gp 0))
  else if selTI sel then .error (.raise (.gp (errSel sel)))
  else do
    match ← readDesc s sel with
    | none => .error (.raise (.gp (errSel sel)))
    | some (a, d) => do
      checkLtr sel d
      let s' ← setBusy a true s
      .ok { s' with tr := { sel := sel, base := descBase d, limit := effLimit d }, eip := next }

/-- LTR (40_task_register.md R140): privileged, GP(0) unless CPL is zero. -/
def ltrOperand (src : RM16) (next : Word) (s : State) : Except Stop State :=
  if s.cpl ≠ 0 then .error (.raise (.gp 0))
  else do
    let sel ← readRM16 s src
    loadTaskRegister sel next s

/-- The meaning of STR r/m16. -/
def execStr (dst : RM16) (s : State) : Outcome State Fault Refusal :=
  complete s (storeTaskRegister dst (nextEip s (.str dst)) s)

/-- The meaning of LTR r/m16. -/
def execLtr (src : RM16) (s : State) : Outcome State Fault Refusal :=
  complete s (ltrOperand src (nextEip s (.ltr src)) s)

end Sys2Proof.Machine
end

