-- ==== Sys2Proof/Machine/Transfers.lean ====
section
/-! DEFINITION. The control transfers that may switch tasks (42_task_transfer_instructions.md). -/

namespace Sys2Proof.Machine

open Host (Outcome)

/-- The two far transfers that name a descriptor (42_task_transfer_instructions.md R201). -/
inductive FarKind where
  | jmp | call
  deriving DecidableEq, Repr, Inhabited

/-- The kind of task switch a far transfer causes. -/
def farSwitch : FarKind → SwitchKind
  | .jmp => .jmp
  | .call => .call

/-- What a far transfer asks of the standard mechanism. -/
def farOther (k : FarKind) (sel : Half) (off next : Word) : OtherRequest :=
  match k with
  | .jmp => .jmp sel off next
  | .call => .call sel off next

/-- The privilege check of step 1 fails: max(CPL, RPL) is above the DPL of the descriptor named (41_task_switch.md R152). -/
def privilegeFails (s : State) (sel : Half) (dn : Desc) : Bool :=
  decide (max s.cpl.toNat (selRPL sel).toNat > (descDPL dn).toNat)

/-- A far transfer once the descriptor `dn` that its selector names has been read (42_task_transfer_instructions.md R201). -/
def farThrough (k : FarKind) (sel : Half) (off next : Word) (dn : Desc) (s : State) : Except Stop State :=
  if isTss dn || isTss16 dn then
    if selTI sel then .error (.raise (.gp (errSel sel)))
    else if privilegeFails s sel dn then .error (.raise (.gp (errSel sel)))
    else taskSwitch (farSwitch k) false sel next s
  else if isTaskGate dn then
    if privilegeFails s sel dn then .error (.raise (.gp (errSel sel)))
    else if !descPresent dn then .error (.raise (.np (errSel sel)))
    else taskSwitch (farSwitch k) false (gateSel dn) next s
  else otherTransfer (farOther k sel off next) s

/-- `FarTransfer(K, sel, off)` (42_task_transfer_instructions.md R201). -/
def farTransfer (k : FarKind) (sel : Half) (off next : Word) (s : State) : Except Stop State :=
  if selNull sel then .error (.raise (.gp 0))
  else do
    match ← readDesc s sel with
    | none => .error (.raise (.gp (errSel sel)))
    | some (_, dn) => farThrough k sel off next dn s

/-- A far transfer through memory: the pointer is read before any check on the selector (42_task_transfer_instructions.md R203). -/
def farThroughMem (k : FarKind) (a : Addr) (next : Word) (s : State) : Except Stop State := do
  let (sel, off) ← readFarPtr s a
  farTransfer k sel off next s

/-- The meaning of JMP ptr16:32 (42_task_transfer_instructions.md R202). -/
def execJmpPtr (off : Word) (sel : Half) (s : State) : Outcome State Fault Refusal :=
  complete s (farTransfer .jmp sel off (nextEip s (.jmpPtr off sel)) s)

/-- The meaning of JMP m16:32 (42_task_transfer_instructions.md R203). -/
def execJmpMem (a : Addr) (s : State) : Outcome State Fault Refusal :=
  complete s (farThroughMem .jmp a (nextEip s (.jmpMem a)) s)

/-- The meaning of CALL ptr16:32 (42_task_transfer_instructions.md R204). -/
def execCallPtr (off : Word) (sel : Half) (s : State) : Outcome State Fault Refusal :=
  complete s (farTransfer .call sel off (nextEip s (.callPtr off sel)) s)

/-- The meaning of CALL m16:32 (42_task_transfer_instructions.md R205). -/
def execCallMem (a : Addr) (s : State) : Outcome State Fault Refusal :=
  complete s (farThroughMem .call a (nextEip s (.callMem a)) s)

/-- IRET (42_task_transfer_instructions.md R206): with NT set, the return from an interrupt task; with NT clear, the standard
mechanism. -/
def interruptReturn (next : Word) (s : State) : Except Stop State :=
  if flagNT s.eflags then returnFromTask next s else otherTransfer (.iret next) s

/-- The meaning of IRET (42_task_transfer_instructions.md R206). -/
def execIret (s : State) : Outcome State Fault Refusal :=
  complete s (interruptReturn (nextEip s .iret) s)

/-- The interrupt instruction (42_task_transfer_instructions.md R207, 30_encoding.md R119): INT n vectors through entry n, INT 3
through entry 3, INTO through entry 4 when the overflow flag is set and otherwise only goes on. -/
def interruptInstr (f : IntForm) (next : Word) (s : State) : Except Stop State :=
  match f with
  | .imm v => vectorTo v .software next s
  | .int3 => vectorTo 3 .software next s
  | .into => if flagOF s.eflags then vectorTo 4 .software next s else .ok { s with eip := next }

/-- The meaning of INT n and its one-byte forms (42_task_transfer_instructions.md R207). -/
def execIntN (f : IntForm) (s : State) : Outcome State Fault Refusal :=
  complete s (interruptInstr f (nextEip s (.intN f)) s)

end Sys2Proof.Machine
end

