-- ==== Sys2Proof/Machine/Dispatch.lean ====
section
/-! DEFINITION. One arm per instruction, each a direct call of its meaning. -/

namespace Sys2Proof.Machine

open Host (Outcome)

def exec (i : Instr) (s : State) : Host.Outcome State Fault Refusal :=
  match i with
  | .str dst => Sys2Proof.Machine.execStr dst s
  | .ltr src => Sys2Proof.Machine.execLtr src s
  | .jmpPtr off sel => Sys2Proof.Machine.execJmpPtr off sel s
  | .jmpMem a => Sys2Proof.Machine.execJmpMem a s
  | .callPtr off sel => Sys2Proof.Machine.execCallPtr off sel s
  | .callMem a => Sys2Proof.Machine.execCallMem a s
  | .iret => Sys2Proof.Machine.execIret s
  | .intN f => Sys2Proof.Machine.execIntN f s

end Sys2Proof.Machine
end

