-- ==== Sys2Proof/Machine/Fetch.lean ====
section
/-! DEFINITION. What happens at an instruction boundary: the pending exception, the external interrupt, the fetch of an
instruction's bytes, and the placing of an instruction where the next fetch finds it. -/

namespace Sys2Proof.Machine

open Host (Outcome)

/-- Byte `j` of the instruction at EIP, through CS (20_memory.md R81, R97; log 29). -/
def fetchByte (s : State) (j : Nat) : Except Stop Byte := do
  let lin ← segToLinear s .cs (s.eip + BitVec.ofNat 32 j) 1 .read
  readByte s lin

/-- Fetch bytes until the decoder has its answer; no byte is read that the decoder does not need (30_encoding.md R110, R118). -/
def fetchFrom (s : State) : Nat → List Byte → Except Stop Decoded
  | 0, bs => .ok (decode bs)
  | fuel + 1, bs =>
    match decode bs with
    | .more => do
      let b ← fetchByte s bs.length
      fetchFrom s fuel (bs ++ [b])
    | .instr i n => .ok (.instr i n)
    | .undefined => .ok .undefined
    | .prefixByte b => .ok (.prefixByte b)
    | .outOfScope b => .ok (.outOfScope b)

/-- Fetch and decode the instruction at EIP, of at most `maxLength` bytes. -/
def fetch (s : State) : Except Stop Decoded := fetchFrom s maxLength []

/-- What a step does at the boundary it starts from. -/
inductive BoundaryEvent where
  /-- an exception is pending in the task just entered: deliver it (log 12) -/
  | deliver (e : Exn)
  /-- an external interrupt with this vector is accepted -/
  | external (v : Byte)
  /-- an instruction runs -/
  | run
  deriving DecidableEq, Repr, Inhabited

/-- External interrupts are accepted: `ext_int_enabled` is 1 (60_exceptions.md R238), and EFLAGS admits them, which in a task just
entered or returned to is the image its TSS held (R241, R242). How the two combine is the model's choice (log 15). -/
def admitsExternal (s : State) : Bool := s.extIntEnabled && Config.eflagsAdmitExternal s.eflags

/-- The pending exception comes first, then an external interrupt that is presented while external interrupts are accepted, at
most one at a boundary; otherwise an instruction runs (41_task_switch.md R168; 42 R209; 60_exceptions.md R238, R239; log 12).
Every step begins at a boundary, the one after the entry into a handler too: a further external interrupt may be accepted there
before any instruction of the handler has run. R239 does not say whether an entry opens a boundary: DESIGN CHOICE, log 15. -/
def boundaryEvent (s : State) : BoundaryEvent :=
  match s.pending with
  | some e => .deliver e
  | none =>
    match admitsExternal s, s.extInts.head? with
    | true, some (some v) => .external v
    | _, _ => .run

/-- The state the boundary's event starts from: the pending exception is taken out of it, and, where none was pending and
external interrupts are accepted, what the outside presents at this boundary is used up. -/
def boundaryState (s : State) : State :=
  { s with
    pending := none
    extInts := if s.pending.isNone && admitsExternal s then s.extInts.tail else s.extInts }

/-- Bytes stored from a physical address upwards, modulo 2^32. -/
def placeBytes : List Byte → Word → List Host.Cell → List Host.Cell
  | [], _, m => m
  | b :: bs, a, m => placeBytes bs (a + 1) (memPut m a.toNat b)

/-- Place the instruction whose bits are `w` where the next step fetches: at EIP, through a flat CS, with paging off, nothing
pending and no external interrupt presented (log 4). -/
def placeInstr (s : State) (nbits w : Nat) : State :=
  { s with
    mem := placeBytes (tableBytes nbits w) s.eip s.mem
    segs := { s.segs with cs := { s.segs.cs with hidden := .flat } }
    pg := false
    pending := none
    extInts := [] }

end Sys2Proof.Machine
end

