-- ==== Sys2Proof/Machine/Step.lean ====
section
/-! DEFINITION. One step of the processor (00_scope.md R13, R14). -/

namespace Sys2Proof.Machine

open Host (Outcome)

/-- Run the instruction at EIP. A fetch that raises is an exception of that instruction; the invalid forms raise UD
(30_encoding.md R120). A prefix byte is refused as one whatever follows it (R111; DESIGN CHOICE where none of the eight
instructions follows, log 43). -/
def runInstr (s : State) : Outcome State Fault Refusal :=
  match fetch s with
  | .ok (.instr i _) => exec i s
  | .ok .undefined => takeException .ud s
  | .ok (.prefixByte b) => .refused (.prefixNotModelled b)
  | .ok (.outOfScope b) => .refused (.instructionOutOfScope b)
  | .ok .more => .refused (.instructionOutOfScope 0)
  | .error st => complete s (.error st)

/-- One step: at the boundary a pending exception is delivered, or an external interrupt is taken, or an instruction runs. -/
def step (s : State) : Host.Outcome State Fault Refusal :=
  match boundaryEvent s with
  | .deliver e => takeException e (boundaryState s)
  | .external v => takeExternal v (boundaryState s)
  | .run => runInstr (boundaryState s)

/-- The state with an instruction of spec/opcode_table.json stored where `step` fetches its next instruction. -/
def State.withFetchWord (s : State) (nbits w : Nat) : State := placeInstr s nbits w

end Sys2Proof.Machine
end

