-- ==== Sys2Proof/Safety.lean ====
section
/-! DEFINITION. The terms the statements use: the launch premises of 70_reset_and_hazards.md R271 and what a completed task switch
leaves behind. -/

namespace Sys2Proof.Machine

/-! ## Readable memory and disjoint ranges -/

/-- With paging off, the `n` bytes from linear address `a` upwards have a value (70_reset_and_hazards.md R271, P-written). -/
def listed (s : State) (a : Word) (n : Nat) : Bool :=
  (List.range n).all fun j => (memGet s.mem (a + BitVec.ofNat 32 j).toNat).isSome

/-- The ranges of `n` bytes from `a` and of `m` bytes from `b` have no byte in common, modulo 2^32. -/
def apart (a : Word) (n : Nat) (b : Word) (m : Nat) : Bool :=
  decide (n ≤ (b - a).toNat) && decide (m ≤ (a - b).toNat)

/-- The linear address `p` lies in the range of `n` bytes from `a`. -/
def inRange (p a : Word) (n : Nat) : Bool := decide ((p - a).toNat < n)

/-! ## Launch premises (70_reset_and_hazards.md R271)

Four of the seven speak of a state and are defined here. The other three hold of every state of the model by construction:
P-protected, because State has no mode without tables, privilege levels and TR (log 32); P-single, because nothing but the
processor writes memory (log 25); P-written for registers, because every register has a value (log 3), while a byte of memory
that has none ends a read in `Fault.unwrittenMemory` (log 2). -/

/-- `sel` names, in the GDT, the TSS descriptor `d` at `a`. -/
def NamesTss (s : State) (sel : Half) (a : Word) (d : Desc) : Prop :=
  selTI sel = false ∧ selNull sel = false ∧ readDesc s sel = .ok (some (a, d)) ∧ isTss d = true

/-- P-tr: TR names a TSS descriptor that is present and busy, and its invisible part is that descriptor's. -/
def PremiseTr (s : State) : Prop :=
  ∃ a d, NamesTss s s.tr.sel a d ∧ descPresent d = true ∧ descBusy d = true
    ∧ s.tr.base = descBase d ∧ s.tr.limit = effLimit d

/-- The `n` bytes from linear address `a` upwards can be read. -/
def readable (s : State) (a : Word) (n : Nat) : Prop :=
  ∀ j, j < n → ∃ b, readByte s (a + BitVec.ofNat 32 j) = .ok b

/-- The `n` bytes from linear address `a` upwards are mapped for reading and for writing. -/
def mapped (s : State) (a : Word) (n : Nat) : Prop :=
  ∀ j, j < n → (∃ p, translate s (a + BitVec.ofNat 32 j) .read = .ok p) ∧ ∃ p, translate s (a + BitVec.ofNat 32 j) .write = .ok p

/-- P-tables: GDTR and IDTR hold the base and the limit of tables that lie in linear memory. -/
def PremiseTables (s : State) : Prop :=
  readable s s.gdtr.base (s.gdtr.limit.toNat + 1) ∧ readable s s.idtr.base (s.idtr.limit.toNat + 1)

/-- The descriptor tables: the GDT, the IDT, and the LDT where there is one, each by its base and its number of bytes. -/
def tables (s : State) : List (Word × Nat) :=
  [(s.gdtr.base, s.gdtr.limit.toNat + 1), (s.idtr.base, s.idtr.limit.toNat + 1)]
    ++ match s.ldtr.hidden with
      | .absent => []
      | .table base limit => [(base, limit.toNat + 1)]

/-- The 104 bytes of a TSS at `b` overlap no descriptor table. -/
def offTables (s : State) (b : Word) : Bool := (tables s).all fun x => apart b 104 x.1 x.2

/-- Entry `i` of the GDT, which is not the null entry, is the TSS descriptor `d`. -/
def TssEntry (s : State) (i : Nat) (d : Desc) : Prop :=
  i ≠ 0 ∧ 8 * i + 7 ≤ s.gdtr.limit.toNat ∧ readDescAt s (s.gdtr.base + BitVec.ofNat 32 (8 * i)) = .ok d ∧ isTss d = true

/-- P-tss: the running task's TSS is not shorter than 104 bytes (92_eei_decisions.md D8), is mapped and writable, and overlaps no
descriptor table and no other task's TSS, which is as long as its limit says. -/
def PremiseTss (s : State) : Prop :=
  103 ≤ s.tr.limit.toNat ∧ mapped s s.tr.base 104 ∧ offTables s s.tr.base = true
    ∧ ∀ i d, TssEntry s i d → i ≠ selIndex s.tr.sel → apart s.tr.base 104 (descBase d) ((effLimit d).toNat + 1) = true

/-- The selector names a task behind the running one in its chain: the one in the back-link of the current TSS if NT is set, and
after it the one in the back-link of each such task whose saved NT is set (41_task_switch.md R172). -/
inductive Suspended (s : State) : Half → Prop where
  | first (bl : Half) : flagNT s.eflags = true → read16 s s.tr.base = .ok bl → Suspended s bl
  | next (sel bl : Half) (a : Word) (d : Desc) (f : Word) :
    Suspended s sel → NamesTss s sel a d → read32 s (descBase d + 36) = .ok f → flagNT f = true →
    read16 s (descBase d) = .ok bl → Suspended s bl

/-- Entry `i` of the GDT is the running task's or that of a task in its chain: TR or a back-link of the chain names it, by a selector
that names a TSS descriptor of the GDT at all (41_task_switch.md R153, R172). -/
def InChain (s : State) (i : Nat) : Prop :=
  ∃ sel a d, (sel = s.tr.sel ∨ Suspended s sel) ∧ NamesTss s sel a d ∧ selIndex sel = i

/-- P-busy: a TSS descriptor of the GDT is busy exactly when its task is the running one or is in the running one's chain
(41_task_switch.md R172, R173). -/
def PremiseBusy (s : State) : Prop := ∀ i d, TssEntry s i d → (descBusy d = true ↔ InChain s i)

/-- A legal start (70_reset_and_hazards.md R271): every premise that speaks of the state. -/
structure LaunchPremises (s : State) : Prop where
  tables : PremiseTables s
  tr : PremiseTr s
  tss : PremiseTss s
  busy : PremiseBusy s

/-! ## When a task switch runs to its end, with paging off -/

/-- The busy bit is as a switch of kind `k` needs it: set for IRET, clear otherwise (41_task_switch.md R156). -/
def busyAsNeeded (k : SwitchKind) (d : Desc) : Bool := descBusy d == decide (k = .iret)

/-- Every condition of 41_task_switch.md R153 to R157 holds for `tsel`, whose descriptor is `d` at `a`; paging is off, and what the
switch reads has values: the incoming TSS from offset 32 to offset 101, and the outgoing descriptor's high row where its busy
bit is to be cleared. -/
structure SwitchReady (k : SwitchKind) (tsel : Half) (a : Word) (d : Desc) (s : State) : Prop where
  paging : s.pg = false
  names : NamesTss s tsel a d
  present : descPresent d = true
  busy : busyAsNeeded k d = true
  limit : 103 ≤ (effLimit d).toNat
  image : listed s (descBase d + 32) 70 = true
  outgoing : links k = false → listed s (outgoingDesc s + 4) 4 = true

/-- The selector of a segment register as the number of its TSS slot (10_state.md R37). -/
def segNum : SegName → Nat
  | .es => 0
  | .cs => 1
  | .ss => 2
  | .ds => 3
  | .fs => 4
  | .gs => 5

/-- The TSS slot of a general register (10_state.md R37). -/
def gprSlot (b : Word) (r : Reg) : Word := b + 40 + BitVec.ofNat 32 (4 * (regNum r).toNat)

/-- The TSS slot of a segment register (10_state.md R37). -/
def segSlot (b : Word) (g : SegName) : Word := b + 72 + BitVec.ofNat 32 (4 * segNum g)

/-- What holds of the state `t` in which a switch of kind `k` from `s` to the TSS descriptor `d`, named by `tsel`, has ended, paging
off: TR and MSW.TS (41_task_switch.md R163); every register of the incoming task is what its TSS holds in `t`'s memory (R164, R166,
R167); CPL (R168); and what no switch writes. -/
structure Entered (k : SwitchKind) (tsel : Half) (d : Desc) (s t : State) : Prop where
  tr : t.tr = { sel := tsel, base := descBase d, limit := effLimit d }
  ts : t.ts = true
  eip : read32 t (descBase d + 32) = .ok t.eip
  eflags : ∃ f, read32 t (descBase d + 36) = .ok f ∧ t.eflags = incomingFlags k f
  gpr : ∀ r, read32 t (gprSlot (descBase d) r) = .ok (gprGet t.gpr r)
  segs : ∀ g, read16 t (segSlot (descBase d) g) = .ok (segGet t.segs g).sel
  ldtr : read16 t (descBase d + 96) = .ok t.ldtr.sel
  pdbr : t.pdbr = s.pdbr
  cpl : t.cpl = selRPL t.segs.cs.sel
  pg : t.pg = s.pg
  gdtr : t.gdtr = s.gdtr
  idtr : t.idtr = s.idtr
  extIntEnabled : t.extIntEnabled = s.extIntEnabled
  extInts : t.extInts = s.extInts
  lastExn : t.lastExn = s.lastExn

/-- Paging on or off: the checks of a switch pass and find `d` at `a`, its accesses from the commit point on all succeed, `s'` is the
state after the last of those to the TSSs and to the two TSS descriptors, `img` what was read of the incoming TSS, and the filling of
the hidden parts meets no not-present page (41_task_switch.md R158, R168, R171; 20_memory.md R91). -/
structure SwitchRuns (k : SwitchKind) (ext : Bool) (tsel : Half) (ret a : Word) (d : Desc) (s s' : State) (img : TssImage) : Prop where
  finds : findTss k ext tsel s = .ok (a, d)
  commits : commitSwitch k tsel ret a d s = .ok (s', img)
  fills : (fillHidden (install k img s')).stop ≠ some .notPresentPage

/-- The state in which a switch from `s` that ends in `t` asks `LoadLDT` and `LoadSeg`: every register is the incoming task's, the
hidden parts are still those of `s`, and nothing more is pending than in `s` (41_task_switch.md R168). -/
def beforeFilling (s t : State) : State :=
  { t with
    segs :=
      { es := withHidden t.segs.es s.segs.es
        cs := withHidden t.segs.cs s.segs.cs
        ss := withHidden t.segs.ss s.segs.ss
        ds := withHidden t.segs.ds s.segs.ds
        fs := withHidden t.segs.fs s.segs.fs
        gs := withHidden t.segs.gs s.segs.gs }
    ldtr := { sel := t.ldtr.sel, hidden := s.ldtr.hidden }
    pending := s.pending }

/-- From `u` on, in which the registers before these have been filled, the segment registers of the list are filled in its order,
each load asked in the state the ones before it left, and `t` is what they leave: the first exception is pending in `t`, and the
hidden parts from there on stay as they were; without one, nothing is pending but the T-bit's DB; no load meets a not-present page
(41_task_switch.md R168, R169; 20_memory.md R91). -/
def FillsInOrder : List SegName → State → State → Prop
  | [], u, t => t.segs = u.segs ∧ (t.pending = none ∨ t.pending = some .db)
  | k :: ks, u, t =>
    match loadSeg k u with
    | .error (.raise e) => t.pending = some e ∧ t.segs = u.segs
    | .error .notPresentPage => False
    | .ok h => FillsInOrder ks { u with segs := segSetHidden u.segs k h } t

/-- What holds of the outgoing TSS in `t` when a switch of kind `k` from `s` has saved the outgoing task with `retEip`, paging off
(41_task_switch.md R160). -/
structure Saved (k : SwitchKind) (retEip : Word) (s t : State) : Prop where
  eip : read32 t (s.tr.base + 32) = .ok retEip
  eflags : read32 t (s.tr.base + 36) = .ok (savedFlags k s.eflags)
  gpr : ∀ r, read32 t (gprSlot s.tr.base r) = .ok (gprGet s.gpr r)
  segs : ∀ g, read16 t (segSlot s.tr.base g) = .ok (segGet s.segs g).sel

/-- The bytes a switch of kind `k` may change, paging off: the dynamic set of the outgoing TSS from offset 32 to 95, the byte that
holds the outgoing descriptor's busy bit where it is cleared, that of the incoming descriptor at `a` where it is set, and the
incoming TSS's back-link where the switch links (41_task_switch.md R160, R162, R163, R167). -/
def switchWrites (k : SwitchKind) (a : Word) (d : Desc) (s : State) (p : Word) : Bool :=
  inRange p (s.tr.base + 32) 64
    || (!links k && p == outgoingDesc s + 5)
    || (decide (k ≠ .iret) && p == a + 5)
    || (links k && inRange p (descBase d) 2)

/-- Of P-tss (70_reset_and_hazards.md R271): the dynamic set of the outgoing TSS overlaps neither descriptor nor the incoming
task's back-link, and the back-link overlaps neither descriptor. -/
def switchApart (a : Word) (d : Desc) (s : State) : Bool :=
  apart (s.tr.base + 32) 64 a 8 && apart (s.tr.base + 32) 64 (outgoingDesc s) 8
    && apart (s.tr.base + 32) 64 (descBase d) 2
    && apart (descBase d) 2 a 8 && apart (descBase d) 2 (outgoingDesc s) 8

/-- P-tss and R277 (70_reset_and_hazards.md R271, R277): the 104 bytes of the outgoing TSS, the 104 bytes of the incoming TSS and the
two descriptors have no byte in common. -/
def tasksApart (a : Word) (d : Desc) (s : State) : Bool :=
  apart s.tr.base 104 (descBase d) 104 && apart s.tr.base 104 a 8 && apart s.tr.base 104 (outgoingDesc s) 8
    && apart (descBase d) 104 a 8 && apart (descBase d) 104 (outgoingDesc s) 8 && apart a 8 (outgoingDesc s) 8

/-- The running task can be returned to: P-tr holds with the descriptor `d` at `a`, its limit is at least 103, and what a switch reads
of its TSS beyond what a save writes, the LDT selector and the T-bit's word, has values. -/
structure CanReturn (a : Word) (d : Desc) (s : State) : Prop where
  names : NamesTss s s.tr.sel a d
  present : descPresent d = true
  busy : descBusy d = true
  base : s.tr.base = descBase d
  limit : 103 ≤ (effLimit d).toNat
  statics : listed s (s.tr.base + 96) 6 = true

/-! ## Which far transfer an instruction is -/

/-- The far pointer of a JMP or CALL: its kind, selector and offset, the pointer read from memory in the m16:32 forms; `none` for
any other instruction and where the pointer cannot be read. -/
def farOf (i : Instr) (s : State) : Option (FarKind × Half × Word) :=
  match i with
  | .jmpPtr off sel => some (.jmp, sel, off)
  | .callPtr off sel => some (.call, sel, off)
  | .jmpMem a =>
    match readFarPtr s a with
    | .ok (sel, off) => some (.jmp, sel, off)
    | .error _ => none
  | .callMem a =>
    match readFarPtr s a with
    | .ok (sel, off) => some (.call, sel, off)
    | .error _ => none
  | .str _ | .ltr _ | .iret | .intN _ => none

/-- A far transfer through `sel` leads to the task of `tsel`: directly, or through a present task gate, and the privilege check on the
descriptor named passes (42_task_transfer_instructions.md R201). -/
def FarLeadsTo (s : State) (sel tsel : Half) : Prop :=
  selNull sel = false ∧
    ((∃ a d, NamesTss s sel a d ∧ privilegeFails s sel d = false ∧ tsel = sel) ∨
      (∃ a g, readDesc s sel = .ok (some (a, g)) ∧ isTaskGate g = true ∧ privilegeFails s sel g = false
        ∧ descPresent g = true ∧ tsel = gateSel g))

/-- The vector an interrupt instruction goes through: that of INT n, 3 for INT 3, 4 for INTO with the overflow flag set, none
for INTO with it clear (30_encoding.md R119). -/
def intVector (f : IntForm) (s : State) : Option Byte :=
  match f with
  | .imm v => some v
  | .int3 => some 3
  | .into => if flagOF s.eflags then some 4 else none

/-- Entry `v` of the IDT holds the task gate `g`, which is present and whose DPL does not refuse an event of this origin
(42_task_transfer_instructions.md R208). -/
def GateOpen (s : State) (v : Byte) (origin : Origin) (g : Desc) : Prop :=
  readIdt s v = .ok (some g) ∧ isTaskGate g = true ∧ gateDplRefuses origin g s = false ∧ descPresent g = true

end Sys2Proof.Machine
end

