-- ==== Sys2Proof/Certificates/Slice0/Obligations.lean ====
section
/-! DEFINITION. The statements for the provers. "Log <n>" is notes/assumptions/<n>.md. -/

section Statements

open Sys2Proof Sys2Proof.Machine

/-! ## Encoding and decoding -/

/-- Decoding what the encoder writes gives the instruction back with its length, whatever bytes follow (30_encoding.md R112 to
R117, R119). -/
def Obligations.DecodeOfEncode : Prop :=
  ∀ (i : Instr) (rest : List Byte), i.wf = true → decode (encode i ++ rest) = .instr i (instrLength i)

/-- Whatever the decoder calls an instruction is a well-formed one, and its bytes are those the encoder writes: every word has one
meaning (30_encoding.md R112 to R118). -/
def Obligations.EncodeOfDecode : Prop :=
  ∀ (bs : List Byte) (i : Instr) (n : Nat), decode bs = .instr i n →
    i.wf = true ∧ n = instrLength i ∧ bs.take n = encode i

/-- The bytes of 95_test_vectors.md section 2.8, V80 to V96, decode to what they stand for: the instructions, the two invalid forms,
the two instructions outside the spec. -/
def Obligations.SpecWordsDecode : Prop :=
  decode [0x0F, 0x00, 0xD8] = .instr (.ltr (.reg .eax)) 3
    ∧ decode [0x0F, 0x00, 0xCB] = .instr (.str (.reg .ebx)) 3
    ∧ decode [0x0F, 0x00, 0x1B] = .instr (.ltr (.mem (.base .ebx))) 3
    ∧ decode [0x0F, 0x00, 0x5D, 0x08] = .instr (.ltr (.mem (.baseDisp8 .ebp 0x08))) 4
    ∧ decode [0x0F, 0x00, 0x1D, 0x00, 0x40, 0x00, 0x00] = .instr (.ltr (.mem (.disp32 0x00004000))) 7
    ∧ decode [0x0F, 0x00, 0x0C, 0x24] = .instr (.str (.mem (.sib ⟨0, .esp, .esp⟩))) 4
    ∧ decode [0x0F, 0x00, 0x4C, 0x88, 0xFC] = .instr (.str (.mem (.sibDisp8 ⟨2, .ecx, .eax⟩ 0xFC))) 5
    ∧ decode [0xEA, 0x78, 0x56, 0x34, 0x12, 0x20, 0x00] = .instr (.jmpPtr 0x12345678 0x0020) 7
    ∧ decode [0x9A, 0x00, 0x00, 0x00, 0x00, 0x2B, 0x00] = .instr (.callPtr 0 0x002B) 7
    ∧ decode [0xFF, 0x2E] = .instr (.jmpMem (.base .esi)) 2
    ∧ decode [0xFF, 0x1B] = .instr (.callMem (.base .ebx)) 2
    ∧ decode [0xFF, 0x9C, 0x24, 0x00, 0x01, 0x00, 0x00] = .instr (.callMem (.sibDisp32 ⟨0, .esp, .esp⟩ 0x100)) 7
    ∧ decode [0xCF] = .instr .iret 1
    ∧ decode [0xCD, 0x20] = .instr (.intN (.imm 0x20)) 2
    ∧ decode [0xFF, 0xDB] = .undefined ∧ decode [0xFF, 0xEB] = .undefined
    ∧ decode [0x0F, 0x00, 0xC0] = .outOfScope 0x0F ∧ decode [0xFF, 0x15] = .outOfScope 0xFF

/-- The memory operand that ModRM, SIB and displacement bytes stand for: its offset, its default segment and how many bytes follow
ModRM, line by line of the table of 30_encoding.md R114; and the linear address is `SegToLinear` of the two. -/
def Obligations.MemoryOperandAddress : Prop :=
  (∀ (g : Gprs) (rm : BitVec 3) (rest : List Byte), rm ≠ 4 → rm ≠ 5 →
      ∃ a, decodeAddr 0 rm rest = some (a, 0) ∧ addrOffset g a = gprGet g (regOfNum rm) ∧ addrSeg a = .ds)
    ∧ (∀ (g : Gprs) (d : Word) (rest : List Byte),
      ∃ a, decodeAddr 0 5 (wordBytes d ++ rest) = some (a, 4) ∧ addrOffset g a = d ∧ addrSeg a = .ds)
    ∧ (∀ (g : Gprs) (rm : BitVec 3) (d : Byte) (rest : List Byte), rm ≠ 4 →
      ∃ a, decodeAddr 1 rm (d :: rest) = some (a, 1) ∧ addrOffset g a = gprGet g (regOfNum rm) + d.signExtend 32
        ∧ addrSeg a = if rm = 5 then .ss else .ds)
    ∧ (∀ (g : Gprs) (rm : BitVec 3) (d : Word) (rest : List Byte), rm ≠ 4 →
      ∃ a, decodeAddr 2 rm (wordBytes d ++ rest) = some (a, 4) ∧ addrOffset g a = gprGet g (regOfNum rm) + d
        ∧ addrSeg a = if rm = 5 then .ss else .ds)
    ∧ (∀ (g : Gprs) (scale : BitVec 2) (index base : BitVec 3) (d8 : Byte) (d : Word) (rest : List Byte) (ix : Word),
      ix = (if index = 4 then 0 else gprGet g (regOfNum index) <<< scale.toNat) →
      (base ≠ 5 → ∃ a, decodeAddr 0 4 ((scale ++ index ++ base) :: rest) = some (a, 1)
        ∧ addrOffset g a = gprGet g (regOfNum base) + ix ∧ addrSeg a = if base = 4 then .ss else .ds)
      ∧ (∃ a, decodeAddr 0 4 ((scale ++ index ++ 5#3) :: (wordBytes d ++ rest)) = some (a, 5)
        ∧ addrOffset g a = ix + d ∧ addrSeg a = .ds)
      ∧ (∃ a, decodeAddr 1 4 ((scale ++ index ++ base) :: d8 :: rest) = some (a, 2)
        ∧ addrOffset g a = gprGet g (regOfNum base) + ix + d8.signExtend 32
        ∧ addrSeg a = if base = 4 ∨ base = 5 then .ss else .ds)
      ∧ (∃ a, decodeAddr 2 4 ((scale ++ index ++ base) :: (wordBytes d ++ rest)) = some (a, 5)
        ∧ addrOffset g a = gprGet g (regOfNum base) + ix + d
        ∧ addrSeg a = if base = 4 ∨ base = 5 then .ss else .ds))
    ∧ ∀ (s : State) (a : Addr) (n : Nat) (acc : Access),
      operandLinear s a n acc = segToLinear s (addrSeg a) (addrOffset s.gpr a) n acc

/-- The decoder on any eight bytes (30_encoding.md R118 to R120): which first bytes, second bytes and `reg` fields decide what;
`mod` 11b of FF /3 and /5 is the invalid form; every other byte is refused. INT 3 and INTO are those of R119 (log 17, log 18).
Before the bytes of one of the eight instructions a prefix byte is answered as one (R111); that it is so before any other bytes,
INT 3 and INTO among them, is the model's choice (log 43). -/
def Obligations.DecodingOrder : Prop :=
  ∀ (b b1 b2 b3 b4 b5 b6 b7 : Byte) (reg : BitVec 3) (prefixes : List Byte), reg = b1.extractLsb' 3 3 →
    prefixes = [0x66, 0x67, 0x26, 0x2E, 0x36, 0x3E, 0x64, 0x65, 0xF0, 0xF2, 0xF3] →
    (b = 0xEA → decode [b, b1, b2, b3, b4, b5, b6, b7] = .instr (.jmpPtr (b4 ++ b3 ++ b2 ++ b1) (b6 ++ b5)) 7)
    ∧ (b = 0x9A → decode [b, b1, b2, b3, b4, b5, b6, b7] = .instr (.callPtr (b4 ++ b3 ++ b2 ++ b1) (b6 ++ b5)) 7)
    ∧ (b = 0xCF → decode [b, b1, b2, b3, b4, b5, b6, b7] = .instr .iret 1)
    ∧ (b = 0xCD → decode [b, b1, b2, b3, b4, b5, b6, b7] = .instr (.intN (.imm b1)) 2)
    ∧ (b = 0xCC → decode [b, b1, b2, b3, b4, b5, b6, b7] = .instr (.intN .int3) 1)
    ∧ (b = 0xCE → decode [b, b1, b2, b3, b4, b5, b6, b7] = .instr (.intN .into) 1)
    ∧ (b = 0xFF → (reg = 5 ∨ reg = 3) → b1.extractLsb' 6 2 = 3 →
      decode [b, b1, b2, b3, b4, b5, b6, b7] = .undefined)
    ∧ (b = 0xFF → reg = 5 → b1.extractLsb' 6 2 ≠ 3 →
      ∃ a n, decode [b, b1, b2, b3, b4, b5, b6, b7] = .instr (.jmpMem a) n)
    ∧ (b = 0xFF → reg = 3 → b1.extractLsb' 6 2 ≠ 3 →
      ∃ a n, decode [b, b1, b2, b3, b4, b5, b6, b7] = .instr (.callMem a) n)
    ∧ (b = 0xFF → reg ≠ 5 → reg ≠ 3 → decode [b, b1, b2, b3, b4, b5, b6, b7] = .outOfScope 0xFF)
    ∧ (b = 0x0F → b1 = 0x00 → b2.extractLsb' 3 3 = 1 →
      ∃ d n, decode [b, b1, b2, b3, b4, b5, b6, b7] = .instr (.str d) n)
    ∧ (b = 0x0F → b1 = 0x00 → b2.extractLsb' 3 3 = 3 →
      ∃ d n, decode [b, b1, b2, b3, b4, b5, b6, b7] = .instr (.ltr d) n)
    ∧ (b = 0x0F → b1 = 0x00 → b2.extractLsb' 3 3 ≠ 1 → b2.extractLsb' 3 3 ≠ 3 →
      decode [b, b1, b2, b3, b4, b5, b6, b7] = .outOfScope 0x0F)
    ∧ (b = 0x0F → b1 ≠ 0x00 → decode [b, b1, b2, b3, b4, b5, b6, b7] = .outOfScope 0x0F)
    ∧ (b ∈ prefixes → ∀ i : Instr, i.wf = true → i ≠ .intN .int3 → i ≠ .intN .into →
      decode (b :: encode i) = .prefixByte b)
    ∧ (b ∈ prefixes → decode [b, b1, b2, b3, b4, b5, b6, b7] = .prefixByte b)
    ∧ (b ∉ [0xEA, 0x9A, 0xCF, 0xCD, 0xCC, 0xCE, 0xFF, 0x0F] → b ∉ prefixes →
      decode [b, b1, b2, b3, b4, b5, b6, b7] = .outOfScope b)

/-! ## A step runs the decoded instruction -/

/-- When an instruction is to run and the bytes at EIP decode to `i`, the step is `exec i` in the state the boundary leaves, which
differs from the state before in the used up presentation of the outside alone (00_scope.md R13, R14; log 15). -/
def Obligations.StepRunsDecodedInstr : Prop :=
  ∀ (s : State) (i : Instr) (n : Nat), boundaryEvent s = .run → fetch (boundaryState s) = .ok (.instr i n) →
    step s = exec i (boundaryState s)
      ∧ boundaryState s = { s with extInts := if admitsExternal s then s.extInts.tail else s.extInts }

/-- When an instruction is to run and memory at EIP holds the bytes of the well-formed instruction `i`, byte after byte through CS,
the step is `exec i` (20_memory.md R97, 30_encoding.md R110, R112; log 29). -/
def Obligations.StepRunsBytesAtEip : Prop :=
  ∀ (s : State) (i : Instr), i.wf = true → boundaryEvent s = .run →
    (∀ j, j < (encode i).length → ∃ b, (encode i)[j]? = some b ∧ fetchByte (boundaryState s) j = .ok b) →
    step s = exec i (boundaryState s)

/-- What a step does with bytes that are no instruction of the model: the invalid forms raise UD (30_encoding.md R120), an
instruction outside the spec is refused (R118), and so is what the decoder takes for a prefix byte, under a name of its own,
which before bytes that are none of the eight instructions is the model's choice (log 43). A fetch that ends in an exception, a
fault or a refusal ends the step so: the exception is a fault of the instruction (20_memory.md R81, 60_exceptions.md R234; which
bytes a fetch reads and what becomes of its exceptions is the model's choice, log 29). -/
def Obligations.StepOnOtherBytes : Prop :=
  ∀ s : State, boundaryEvent s = .run →
    (fetch (boundaryState s) = .ok .undefined → step s = takeException .ud (boundaryState s))
    ∧ (∀ b, fetch (boundaryState s) = .ok (.prefixByte b) → step s = .refused (.prefixNotModelled b))
    ∧ (∀ b, fetch (boundaryState s) = .ok (.outOfScope b) → step s = .refused (.instructionOutOfScope b))
    ∧ (∀ st, fetch (boundaryState s) = .error st → step s = complete (boundaryState s) (.error st))

/-- The model's choice of how a program is placed (log 4): the very next step after `withFetchWord` runs the instruction the
table word stands for. -/
def Obligations.PlacedWordRuns : Prop :=
  ∀ (s : State) (nbits w : Nat) (i : Instr), nbits ≤ 64 → decodeTableWord nbits w = some i →
    step (s.withFetchWord nbits w) = exec i (s.withFetchWord nbits w)

/-! ## LTR and STR -/

/-- LTR at CPL 0 of a present, available TSS descriptor of the GDT, paging off (40_task_register.md R140): TR gets selector, base and
effective limit, EIP goes on, the busy bit, bit 1 of the byte at the descriptor's address plus 5, is set, and nothing else
changes: no other register, no other byte of memory. -/
def Obligations.LtrLoadsTaskRegister : Prop :=
  ∀ (src : RM16) (s : State) (sel : Half) (a : Word) (d : Desc),
    s.pg = false → s.cpl = 0 → readRM16 s src = .ok sel → NamesTss s sel a d →
    descBusy d = false → descPresent d = true →
    ∃ t, exec (.ltr src) s = .next t
      ∧ t = { s with
          tr := { sel := sel, base := descBase d, limit := effLimit d }
          eip := s.eip + BitVec.ofNat 32 (2 + rm16Length src)
          mem := t.mem }
      ∧ (∃ b, memGet s.mem (a + 5).toNat = some b ∧ memGet t.mem (a + 5).toNat = some (b ||| 2))
      ∧ ∀ p : Word, p ≠ a + 5 → memGet t.mem p.toNat = memGet s.mem p.toNat

/-- The same with paging on or off: where the locked update of the busy bit succeeds, LTR completes, and what it leaves is that
update with TR and EIP written (40_task_register.md R140, 10_state.md R60). -/
def Obligations.LtrUnderPaging : Prop :=
  ∀ (src : RM16) (s s' : State) (sel : Half) (a : Word) (d : Desc),
    s.cpl = 0 → readRM16 s src = .ok sel → NamesTss s sel a d → descBusy d = false → descPresent d = true →
    setBusy a true s = .ok s' →
    exec (.ltr src) s = .next { s' with
      tr := { sel := sel, base := descBase d, limit := effLimit d }
      eip := s.eip + BitVec.ofNat 32 (2 + rm16Length src) }

/-- Every check of LTR, in its order, with the exception each raises in the unchanged state (40_task_register.md R140, 60_exceptions.md
R232 rows 1 to 4): privilege first; null; TI = 1; beyond the GDT; a 16-bit TSS; no TSS; busy; not present. -/
def Obligations.LtrRefusals : Prop :=
  ∀ (src : RM16) (s : State),
    (s.cpl ≠ 0 → exec (.ltr src) s = takeException (.gp 0) s)
    ∧ ∀ sel, s.cpl = 0 → readRM16 s src = .ok sel →
      (sel &&& 0xFFFC = 0 → exec (.ltr src) s = takeException (.gp 0) s)
      ∧ (sel &&& 4 = 4 → exec (.ltr src) s = takeException (.gp (sel &&& 0xFFFC)) s)
      ∧ (sel &&& 0xFFFC ≠ 0 → sel &&& 4 = 0 →
        (readDesc s sel = .ok none → exec (.ltr src) s = takeException (.gp (sel &&& 0xFFFC)) s)
        ∧ ∀ a d, readDesc s sel = .ok (some (a, d)) →
          (isTss16 d = true → exec (.ltr src) s = .refused .tss16NotModelled)
          ∧ (isTss16 d = false → isTss d = false → exec (.ltr src) s = takeException (.gp (sel &&& 0xFFFC)) s)
          ∧ (isTss d = true → descBusy d = true → exec (.ltr src) s = takeException (.gp (sel &&& 0xFFFC)) s)
          ∧ (isTss d = true → descBusy d = false → descPresent d = false →
            exec (.ltr src) s = takeException (.np (sel &&& 0xFFFC)) s))

/-- STR into a register completes at any CPL (40_task_register.md R141): the low half becomes TR's selector, EIP goes on by 3, every other
register and all of memory stay. The upper half is a free value (log 10), of which nothing is said. -/
def Obligations.StrToRegister : Prop :=
  ∀ (r : Reg) (s : State), ∃ t, exec (.str (.reg r)) s = .next t
    ∧ (gprGet t.gpr r).extractLsb' 0 16 = s.tr.sel
    ∧ (∀ q, q ≠ r → gprGet t.gpr q = gprGet s.gpr q)
    ∧ t = { s with gpr := t.gpr, eip := s.eip + 3, freeCount := t.freeCount }

/-- STR into memory completes at any CPL, paging off (40_task_register.md R141): the two bytes at the operand's linear address become TR's
selector, low byte first, EIP goes on, and nothing else changes. -/
def Obligations.StrToMemory : Prop :=
  ∀ (a : Addr) (s : State) (lin : Word), s.pg = false → operandLinear s a 2 .write = .ok lin →
    ∃ t, exec (.str (.mem a)) s = .next t
      ∧ t = { s with eip := s.eip + BitVec.ofNat 32 (2 + addrLength a), mem := t.mem }
      ∧ memGet t.mem lin.toNat = some (s.tr.sel.extractLsb' 0 8)
      ∧ memGet t.mem (lin + 1).toNat = some (s.tr.sel.extractLsb' 8 8)
      ∧ ∀ p : Word, p ≠ lin → p ≠ lin + 1 → memGet t.mem p.toNat = memGet s.mem p.toNat

/-- An access before the commit point that ends in an exception, a fault or a refusal ends the instruction so, and an exception is
taken in the unchanged state (60_exceptions.md R232 row 16, R234; 20_memory.md R91): the memory operand of LTR and of a far transfer,
before any check on a selector (40_task_register.md R140; 42 R203, R205); the descriptor that LTR, a far transfer or a task switch
names, be it named by the far pointer, by its task gate, by an IDT gate or by IRET's back-link (41_task_switch.md R153); the back-link
itself (42 R206); the IDT entry of an interrupt instruction or of any other vectoring (42 R207, R208; INTO by bit 11 of EFLAGS,
PRESUMED, log 18). Of STR into memory (R141) this is everything it can do, with paging on or off. -/
def Obligations.AccessStops : Prop :=
  (∀ (s : State) (e : Exn) (f : Fault) (r : Refusal) (ev : Event), complete s (.error (.raise e)) = takeException e s
      ∧ complete s (.error (.fault f)) = .fault f ∧ complete s (.error (.refuse r)) = .refused r
      ∧ delivered ev (.error (.fault f)) = .fault f ∧ delivered ev (.error (.refuse r)) = .refused r)
    ∧ (∀ (a : Addr) (s : State) (st : Stop), s.cpl = 0 → readRM16 s (.mem a) = .error st →
      exec (.ltr (.mem a)) s = complete s (.error st))
    ∧ (∀ (a : Addr) (s : State) (st : Stop), readFarPtr s a = .error st →
      exec (.jmpMem a) s = complete s (.error st) ∧ exec (.callMem a) s = complete s (.error st))
    ∧ (∀ (src : RM16) (s : State) (sel : Half) (st : Stop), s.cpl = 0 → readRM16 s src = .ok sel →
      sel &&& 0xFFFC ≠ 0 → sel &&& 4 = 0 → readDesc s sel = .error st → exec (.ltr src) s = complete s (.error st))
    ∧ (∀ (i : Instr) (s : State) (k : FarKind) (sel : Half) (off : Word) (st : Stop), farOf i s = some (k, sel, off) →
      sel &&& 0xFFFC ≠ 0 → readDesc s sel = .error st → exec i s = complete s (.error st))
    ∧ (∀ (k : SwitchKind) (ext : Bool) (tsel : Half) (ret : Word) (s : State) (st : Stop), tsel &&& 0xFFFC ≠ 0 → tsel &&& 4 = 0 →
      readDesc s tsel = .error st → taskSwitch k ext tsel ret s = .error st)
    ∧ (∀ (i : Instr) (s : State) (k : FarKind) (sel tsel : Half) (off : Word) (st : Stop), farOf i s = some (k, sel, off) →
      FarLeadsTo s sel tsel → tsel &&& 0xFFFC ≠ 0 → tsel &&& 4 = 0 → readDesc s tsel = .error st →
      exec i s = complete s (.error st))
    ∧ (∀ (s : State) (st : Stop), flagNT s.eflags = true → read16 s s.tr.base = .error st →
      exec .iret s = complete s (.error st))
    ∧ (∀ (s : State) (bl : Half) (st : Stop), flagNT s.eflags = true → read16 s s.tr.base = .ok bl →
      bl &&& 0xFFFC ≠ 0 → bl &&& 4 = 0 → readDesc s bl = .error st → exec .iret s = complete s (.error st))
    ∧ (∀ (f : IntForm) (s : State) (v : Byte) (st : Stop), intVector f s = some v → readIdt s v = .error st →
      exec (.intN f) s = complete s (.error st))
    ∧ (∀ (f : IntForm) (s : State) (v : Byte) (g : Desc) (st : Stop), intVector f s = some v → GateOpen s v .software g →
      gateSel g &&& 0xFFFC ≠ 0 → gateSel g &&& 4 = 0 → readDesc s (gateSel g) = .error st →
      exec (.intN f) s = complete s (.error st))
    ∧ (∀ (v : Byte) (o : Origin) (ret : Word) (s : State) (st : Stop),
      (readIdt s v = .error st → vectorTo v o ret s = .error st)
      ∧ ∀ g, GateOpen s v o g → gateSel g &&& 0xFFFC ≠ 0 → gateSel g &&& 4 = 0 → readDesc s (gateSel g) = .error st →
        vectorTo v o ret s = .error st)
    ∧ ∀ (a : Addr) (s : State),
      exec (.str (.mem a)) s =
        match operandLinear s a 2 .write with
        | .error st => complete s (.error st)
        | .ok lin =>
          match write16 s lin s.tr.sel with
          | .error st => complete s (.error st)
          | .ok s' => .next { s' with eip := s.eip + BitVec.ofNat 32 (2 + addrLength a) }

/-! ## Far JMP and CALL -/

/-- A far JMP that leads to a task, by a TSS descriptor or through a task gate, completes: the next state is that of the task switch of
kind JMP with the offset of the following instruction saved, the pointer's offset without effect (42 R201, R202, R203). The first
two clauses say when the switch ends, with paging off; the last two, with paging on or off, say that the JMP completes where the
switch's own accesses succeed. -/
def Obligations.FarJumpSwitchesTask : Prop :=
  (∀ (off : Word) (sel tsel : Half) (s : State) (a : Word) (d : Desc),
      FarLeadsTo s sel tsel → SwitchReady .jmp tsel a d s →
      ∃ t, exec (.jmpPtr off sel) s = .next t ∧ taskSwitch .jmp false tsel (s.eip + 7) s = .ok t
        ∧ Entered .jmp tsel d s t)
    ∧ (∀ (m : Addr) (off : Word) (sel tsel : Half) (s : State) (a : Word) (d : Desc),
      readFarPtr s m = .ok (sel, off) → FarLeadsTo s sel tsel → SwitchReady .jmp tsel a d s →
      ∃ t, exec (.jmpMem m) s = .next t
        ∧ taskSwitch .jmp false tsel (s.eip + BitVec.ofNat 32 (1 + addrLength m)) s = .ok t
        ∧ Entered .jmp tsel d s t)
    ∧ (∀ (off : Word) (sel tsel : Half) (s s' : State) (a : Word) (d : Desc) (img : TssImage),
      FarLeadsTo s sel tsel → SwitchRuns .jmp false tsel (s.eip + 7) a d s s' img →
      exec (.jmpPtr off sel) s = .next (makeUsable img.t (install .jmp img s')))
    ∧ ∀ (m : Addr) (off : Word) (sel tsel : Half) (s s' : State) (a : Word) (d : Desc) (img : TssImage),
      readFarPtr s m = .ok (sel, off) → FarLeadsTo s sel tsel →
      SwitchRuns .jmp false tsel (s.eip + BitVec.ofNat 32 (1 + addrLength m)) a d s s' img →
      exec (.jmpMem m) s = .next (makeUsable img.t (install .jmp img s'))

/-- A far CALL that leads to a task completes: the next state is that of the task switch of kind CALL, with the offset of the
following instruction saved (42 R201, R204, R205). The first two clauses say when the switch ends, with paging off; the last two,
with paging on or off, say that the CALL completes where the switch's own accesses succeed. -/
def Obligations.FarCallSwitchesTask : Prop :=
  (∀ (off : Word) (sel tsel : Half) (s : State) (a : Word) (d : Desc),
      FarLeadsTo s sel tsel → SwitchReady .call tsel a d s →
      ∃ t, exec (.callPtr off sel) s = .next t ∧ taskSwitch .call false tsel (s.eip + 7) s = .ok t
        ∧ Entered .call tsel d s t)
    ∧ (∀ (m : Addr) (off : Word) (sel tsel : Half) (s : State) (a : Word) (d : Desc),
      readFarPtr s m = .ok (sel, off) → FarLeadsTo s sel tsel → SwitchReady .call tsel a d s →
      ∃ t, exec (.callMem m) s = .next t
        ∧ taskSwitch .call false tsel (s.eip + BitVec.ofNat 32 (1 + addrLength m)) s = .ok t
        ∧ Entered .call tsel d s t)
    ∧ (∀ (off : Word) (sel tsel : Half) (s s' : State) (a : Word) (d : Desc) (img : TssImage),
      FarLeadsTo s sel tsel → SwitchRuns .call false tsel (s.eip + 7) a d s s' img →
      exec (.callPtr off sel) s = .next (makeUsable img.t (install .call img s')))
    ∧ ∀ (m : Addr) (off : Word) (sel tsel : Half) (s s' : State) (a : Word) (d : Desc) (img : TssImage),
      readFarPtr s m = .ok (sel, off) → FarLeadsTo s sel tsel →
      SwitchRuns .call false tsel (s.eip + BitVec.ofNat 32 (1 + addrLength m)) a d s s' img →
      exec (.callMem m) s = .next (makeUsable img.t (install .call img s'))

/-- Every check of a far transfer before the task switch, with the exception it raises in the unchanged state (42 R201,
60_exceptions.md R232 rows 5 to 8): null; beyond the table; a TSS descriptor named with TI = 1; max(CPL, RPL) above the DPL of the
descriptor named; a task gate that is not present. A 16-bit TSS descriptor that passes them is refused (30_encoding.md R121). A far
transfer that passes them, to a TSS descriptor or through a task gate, is the task switch of its kind with what that comes to: an
exception of the switch's own checks, which `SwitchNeedsTssInGdt` to `SwitchLimitTest` name, is taken in the unchanged state
(41_task_switch.md R153 to R158). -/
def Obligations.FarTransferRefusals : Prop :=
  ∀ (i : Instr) (s : State) (k : FarKind) (sel : Half) (off : Word), farOf i s = some (k, sel, off) →
    (sel &&& 0xFFFC = 0 → exec i s = takeException (.gp 0) s)
    ∧ (sel &&& 0xFFFC ≠ 0 → readDesc s sel = .ok none → exec i s = takeException (.gp (sel &&& 0xFFFC)) s)
    ∧ (∀ tsel, FarLeadsTo s sel tsel → exec i s = complete s (taskSwitch (farSwitch k) false tsel (nextEip s i) s)
      ∧ ∀ x, findTss (farSwitch k) false tsel s = .error (.raise x) → exec i s = takeException x s)
    ∧ ∀ a dn, sel &&& 0xFFFC ≠ 0 → readDesc s sel = .ok (some (a, dn)) →
      ((isTss dn = true ∨ isTss16 dn = true) → sel &&& 4 = 4 → exec i s = takeException (.gp (sel &&& 0xFFFC)) s)
      ∧ ((isTss dn = true ∨ isTss16 dn = true ∨ isTaskGate dn = true) →
        (s.cpl.toNat > (descDPL dn).toNat ∨ (sel &&& 3).toNat > (descDPL dn).toNat) →
        exec i s = takeException (.gp (sel &&& 0xFFFC)) s)
      ∧ (isTss16 dn = true → sel &&& 4 = 0 → s.cpl.toNat ≤ (descDPL dn).toNat → (sel &&& 3).toNat ≤ (descDPL dn).toNat →
        exec i s = .refused .tss16NotModelled)
      ∧ (isTaskGate dn = true → s.cpl.toNat ≤ (descDPL dn).toNat → (sel &&& 3).toNat ≤ (descDPL dn).toNat →
        descPresent dn = false → exec i s = takeException (.np (sel &&& 0xFFFC)) s)

/-- A far transfer through any other descriptor is the standard mechanism (42 R201, 00_scope.md R12): it completes with an effect that
the parameter gives and that leaves TR, LDTR, PDBR, MSW.TS, PG, the table registers and `ext_int_enabled` alone, or it raises the
parameter's exception. That it leaves those registers alone is the model's reading (log 8). -/
def Obligations.FarTransferOther : Prop :=
  ∀ (i : Instr) (s : State) (k : FarKind) (sel : Half) (off a : Word) (dn : Desc),
    farOf i s = some (k, sel, off) → selNull sel = false → readDesc s sel = .ok (some (a, dn)) →
    isTss dn = false → isTss16 dn = false → isTaskGate dn = false →
    match Config.otherTransfer (farOther k sel off (nextEip s i)) s with
    | .effect e => exec i s = .next (applyOther e s) ∧ (applyOther e s).tr = s.tr ∧ (applyOther e s).ldtr = s.ldtr
        ∧ (applyOther e s).pdbr = s.pdbr ∧ (applyOther e s).ts = s.ts ∧ (applyOther e s).pg = s.pg
        ∧ (applyOther e s).gdtr = s.gdtr ∧ (applyOther e s).idtr = s.idtr
        ∧ (applyOther e s).extIntEnabled = s.extIntEnabled
    | .raise x => exec i s = takeException x s

/-! ## IRET -/

/-- IRET with NT set completes: the next state is that of the switch of kind IRET to the task the back-link of the current TSS names,
with the offset of the following instruction saved (42 R206). The first clause says when the switch ends, with paging off; the
second, with paging on or off, that IRET completes where the switch's own accesses succeed. -/
def Obligations.IretReturnsToLinkedTask : Prop :=
  (∀ (s : State) (bl : Half) (a : Word) (d : Desc),
      flagNT s.eflags = true → read16 s s.tr.base = .ok bl → SwitchReady .iret bl a d s →
      ∃ t, exec .iret s = .next t ∧ taskSwitch .iret false bl (s.eip + 1) s = .ok t ∧ Entered .iret bl d s t)
    ∧ ∀ (s s' : State) (bl : Half) (a : Word) (d : Desc) (img : TssImage),
      flagNT s.eflags = true → read16 s s.tr.base = .ok bl → SwitchRuns .iret false bl (s.eip + 1) a d s s' img →
      exec .iret s = .next (makeUsable img.t (install .iret img s'))

/-- IRET with NT clear is the standard mechanism (42 R206, 00_scope.md R12; the form of its answers is log 8). -/
def Obligations.IretWithoutNestedTask : Prop :=
  ∀ s : State, flagNT s.eflags = false →
    match Config.otherTransfer (.iret (s.eip + 1)) s with
    | .effect e => exec .iret s = .next (applyOther e s)
    | .raise x => exec .iret s = takeException x s

/-- IRET with a back-link that cannot be returned to raises TS, or NP for a task that is not present, in the unchanged state (42 R206,
41_task_switch.md R153, R155, R156, R157): null or TI = 1; beyond the GDT; no TSS; not present; not busy; a limit below 103. -/
def Obligations.IretRefusals : Prop :=
  ∀ (s : State) (bl : Half), flagNT s.eflags = true → read16 s s.tr.base = .ok bl →
    ((bl &&& 0xFFFC = 0 ∨ bl &&& 4 = 4) → exec .iret s = takeException (.ts (bl &&& 0xFFFC)) s)
    ∧ (bl &&& 0xFFFC ≠ 0 → bl &&& 4 = 0 →
      (readDesc s bl = .ok none → exec .iret s = takeException (.ts (bl &&& 0xFFFC)) s)
      ∧ ∀ a d, readDesc s bl = .ok (some (a, d)) →
        (isTss16 d = false → isTss d = false → exec .iret s = takeException (.ts (bl &&& 0xFFFC)) s)
        ∧ (isTss d = true → descPresent d = false → exec .iret s = takeException (.np (bl &&& 0xFFFC)) s)
        ∧ (isTss d = true → descPresent d = true → descBusy d = false →
          exec .iret s = takeException (.ts (bl &&& 0xFFFC)) s)
        ∧ (isTss d = true → descPresent d = true → descBusy d = true → (effLimit d).toNat < 103 →
          exec .iret s = takeException (.ts (bl &&& 0xFFFC)) s))

/-! ## The interrupt instruction -/

/-- The interrupt instruction, in each form that vectors, through a present task gate completes: the next state is that of the switch of
kind INT to the gate's task, with the offset of the following instruction saved (42 R207, R208; 30_encoding.md R119; INTO vectors where bit
11 of EFLAGS is set, which is PRESUMED, log 18). The first clause
says when the switch ends, with paging off; the second, with paging on or off, that the instruction completes where the switch's
own accesses succeed. -/
def Obligations.InterruptInstrSwitchesTask : Prop :=
  (∀ (f : IntForm) (s : State) (v : Byte) (g : Desc) (a : Word) (d : Desc),
      intVector f s = some v → GateOpen s v .software g → SwitchReady .int (gateSel g) a d s →
      ∃ t, exec (.intN f) s = .next t
        ∧ taskSwitch .int false (gateSel g) (s.eip + BitVec.ofNat 32 (instrLength (.intN f))) s = .ok t
        ∧ Entered .int (gateSel g) d s t)
    ∧ ∀ (f : IntForm) (s s' : State) (v : Byte) (g : Desc) (a : Word) (d : Desc) (img : TssImage),
      intVector f s = some v → GateOpen s v .software g →
      SwitchRuns .int false (gateSel g) (s.eip + BitVec.ofNat 32 (instrLength (.intN f))) a d s s' img →
      exec (.intN f) s = .next (makeUsable img.t (install .int img s'))

/-- INTO with the overflow flag clear only advances EIP (30_encoding.md R119; the flag's position, bit 11 of EFLAGS, is PRESUMED, log
18). -/
def Obligations.IntoWithoutOverflow : Prop :=
  ∀ s : State, s.eflags &&& 0x800 = 0 → exec (.intN .into) s = .next { s with eip := s.eip + 1 }

/-- The interrupt instruction through a gate it cannot use (42 R207, R208): an entry beyond the IDT raises GP with the IDT form; a task
gate whose DPL is at or above CPL and that is not present raises NP; one whose DPL is below CPL raises GP, present or not, if the
parameter `int_n_checks_gate_dpl` is 1, and if it is 0 its DPL is not looked at: the switch to its task, or NP where it is not
present (the parameter is OPEN, log 9). Through an open task gate it is the task switch of kind INT with what that comes to: an
exception of the switch's own checks is taken in the unchanged state (41_task_switch.md R153 to R158). Any other entry is the
standard mechanism (the form of its answers is log 8). INTO vectors where bit 11 of EFLAGS is set (PRESUMED, log 18). -/
def Obligations.InterruptInstrRefusals : Prop :=
  ∀ (f : IntForm) (s : State) (v : Byte), intVector f s = some v →
    (readIdt s v = .ok none → exec (.intN f) s = takeException (.gp (8 * v.setWidth 16 + 2)) s)
    ∧ (∀ g, readIdt s v = .ok (some g) → isTaskGate g = true → s.cpl.toNat ≤ (descDPL g).toNat → descPresent g = false →
      exec (.intN f) s = takeException (.np (8 * v.setWidth 16 + 2)) s)
    ∧ (∀ g, readIdt s v = .ok (some g) → isTaskGate g = true → (descDPL g).toNat < s.cpl.toNat →
      exec (.intN f) s =
        if Config.intNChecksGateDpl then takeException (.gp (8 * v.setWidth 16 + 2)) s
        else if descPresent g then complete s (taskSwitch .int false (gateSel g) (nextEip s (.intN f)) s)
        else takeException (.np (8 * v.setWidth 16 + 2)) s)
    ∧ (∀ g, GateOpen s v .software g →
      exec (.intN f) s = complete s (taskSwitch .int false (gateSel g) (nextEip s (.intN f)) s)
      ∧ ∀ x, findTss .int false (gateSel g) s = .error (.raise x) → exec (.intN f) s = takeException x s)
    ∧ (∀ g, readIdt s v = .ok (some g) → isTaskGate g = false →
      match Config.otherTransfer (.int v .software (nextEip s (.intN f))) s with
      | .effect e => exec (.intN f) s = .next (applyOther e s)
      | .raise x => exec (.intN f) s = takeException x s)

/-! ## The task switch: its checks -/

/-- A selector that names no TSS descriptor of the GDT (41_task_switch.md R153): TI = 1, null, beyond the GDT, or another kind of
descriptor raises GP, or TS on IRET, with the selector; a 16-bit TSS descriptor is refused. -/
def Obligations.SwitchNeedsTssInGdt : Prop :=
  ∀ (k : SwitchKind) (ext : Bool) (tsel : Half) (ret : Word) (s : State) (x : Exn),
    x = (if k = .iret then Exn.ts (errSelExt ext tsel) else Exn.gp (errSelExt ext tsel)) →
    (tsel &&& 4 = 4 → taskSwitch k ext tsel ret s = .error (.raise x))
    ∧ (tsel &&& 0xFFFC = 0 → taskSwitch k ext tsel ret s = .error (.raise x))
    ∧ (tsel &&& 4 = 0 → tsel &&& 0xFFFC ≠ 0 →
      (readDesc s tsel = .ok none → taskSwitch k ext tsel ret s = .error (.raise x))
      ∧ ∀ a d, readDesc s tsel = .ok (some (a, d)) →
        (isTss d = false → isTss16 d = false → taskSwitch k ext tsel ret s = .error (.raise x))
        ∧ (isTss16 d = true → taskSwitch k ext tsel ret s = .error (.refuse .tss16NotModelled)))

/-- A task whose TSS descriptor is not present raises NP with the selector (41_task_switch.md R155), whatever its busy bit and its
limit are. -/
def Obligations.SwitchNeedsPresent : Prop :=
  ∀ (k : SwitchKind) (ext : Bool) (tsel : Half) (ret : Word) (s : State) (a : Word) (d : Desc),
    NamesTss s tsel a d → descPresent d = false →
    taskSwitch k ext tsel ret s = .error (.raise (.np (errSelExt ext tsel)))

/-- The busy test (41_task_switch.md R156): a busy task raises GP on JMP, CALL and interrupts; a task that is not busy raises TS on
IRET. -/
def Obligations.SwitchBusyTest : Prop :=
  ∀ (k : SwitchKind) (ext : Bool) (tsel : Half) (ret : Word) (s : State) (a : Word) (d : Desc),
    NamesTss s tsel a d → descPresent d = true →
    (k ≠ .iret → descBusy d = true → taskSwitch k ext tsel ret s = .error (.raise (.gp (errSelExt ext tsel))))
    ∧ (k = .iret → descBusy d = false → taskSwitch k ext tsel ret s = .error (.raise (.ts (errSelExt ext tsel))))

/-- The limit test (41_task_switch.md R157): an effective limit below 103 raises TS with the selector. -/
def Obligations.SwitchLimitTest : Prop :=
  ∀ (k : SwitchKind) (ext : Bool) (tsel : Half) (ret : Word) (s : State) (a : Word) (d : Desc),
    NamesTss s tsel a d → descPresent d = true → busyAsNeeded k d = true → (effLimit d).toNat < 103 →
    taskSwitch k ext tsel ret s = .error (.raise (.ts (errSelExt ext tsel)))

/-- The commit point (41_task_switch.md R158, 20_memory.md R91): once the checks have passed the switch raises no exception in the
outgoing task any more, whatever its accesses meet: it ends where they succeed, a not-present page among them, or met by the filling
of the hidden parts, is the fault `PageFaultInsideTaskSwitch`, and nothing but a not-present page raises there. The filling meets
one where it reads the descriptor of a segment register's selector, or that of the LDT selector in the GDT, on such a page, in the
incoming task's address space; that it may do so at any other access of the two loads is open (log 14). And every exception the
switch raises is one of the checks'. -/
def Obligations.SwitchRaisesOnlyBeforeCommit : Prop :=
  ∀ (k : SwitchKind) (ext : Bool) (tsel : Half) (ret : Word) (s : State),
    (∀ a d, findTss k ext tsel s = .ok (a, d) →
      (∀ e, taskSwitch k ext tsel ret s ≠ .error (.raise e))
      ∧ match commitSwitch k tsel ret a d s with
        | .ok (s', img) => taskSwitch k ext tsel ret s =
            if (fillHidden (install k img s')).stop = some .notPresentPage then .error (.fault .pageFaultInsideTaskSwitch)
            else .ok (makeUsable img.t (install k img s'))
        | .error (.raise e) =>
          (∃ lin, e = .pf lin) ∧ taskSwitch k ext tsel ret s = .error (.fault .pageFaultInsideTaskSwitch)
        | .error (.fault f) => taskSwitch k ext tsel ret s = .error (.fault f)
        | .error (.refuse r) => taskSwitch k ext tsel ret s = .error (.refuse r))
    ∧ (∀ e, taskSwitch k ext tsel ret s = .error (.raise e) → findTss k ext tsel s = .error (.raise e))
    ∧ (∀ (u : State) (g : SegName), selNull (segGet u.segs g).sel = false →
      match readDesc u (segGet u.segs g).sel with
      | .error (.raise _) => loadSeg g u = .error .notPresentPage
      | _ => True)
    ∧ ∀ u : State, selNull u.ldtr.sel = false → selTI u.ldtr.sel = false →
      match readDesc u u.ldtr.sel with
      | .error (.raise _) => (fillHidden u).stop = some .notPresentPage
      | _ => True

/-! ## The task switch: what it does -/

/-- Where the checks pass, paging is off and what is read has values, the switch ends, and every register of the incoming task is what
its TSS holds (41_task_switch.md R163 to R168, R171). -/
def Obligations.SwitchEntersTask : Prop :=
  ∀ (k : SwitchKind) (ext : Bool) (tsel : Half) (ret : Word) (s : State) (a : Word) (d : Desc),
    SwitchReady k tsel a d s → ∃ t, taskSwitch k ext tsel ret s = .ok t ∧ Entered k tsel d s t

/-- The same with paging on or off, for a switch that runs, its accesses after the commit point all succeeding, in the memory `s'` they
leave:
PDBR is loaded only with paging on, and what is read is read while the outgoing task's PDBR still stands (41_task_switch.md R164
to R168, 20_memory.md R81). That PDBR is assigned after the last read is the decision D36 of R165 (log 36). -/
def Obligations.SwitchLoadsUnderPaging : Prop :=
  ∀ (k : SwitchKind) (ext : Bool) (tsel : Half) (ret : Word) (s s' : State) (a : Word) (d : Desc) (img : TssImage),
    SwitchRuns k ext tsel ret a d s s' img →
    ∃ t, taskSwitch k ext tsel ret s = .ok t ∧ s'.pdbr = s.pdbr ∧ s'.pg = s.pg
      ∧ (if s.pg then read32 s' (descBase d + 28) = .ok t.pdbr else t.pdbr = s.pdbr)
      ∧ read32 s' (descBase d + 32) = .ok t.eip
      ∧ (∃ f, read32 s' (descBase d + 36) = .ok f ∧ t.eflags = incomingFlags k f)
      ∧ (∀ r, read32 s' (gprSlot (descBase d) r) = .ok (gprGet t.gpr r))
      ∧ (∀ g, read16 s' (segSlot (descBase d) g) = .ok (segGet t.segs g).sel)
      ∧ read16 s' (descBase d + 96) = .ok t.ldtr.sel

/-- What every switch that ends has done, paging on or off (41_task_switch.md R163, R168; 10_state.md R34, R35; 60_exceptions.md R238,
R241): TR, MSW.TS, CPL; what it does not write; and that the incoming task's EFLAGS decide whether external interrupts are
accepted in it (how they do is open, log 15). -/
def Obligations.SwitchFrame : Prop :=
  ∀ (k : SwitchKind) (ext : Bool) (tsel : Half) (ret : Word) (s t : State),
    taskSwitch k ext tsel ret s = .ok t →
    (∃ a d, NamesTss s tsel a d ∧ t.tr = { sel := tsel, base := descBase d, limit := effLimit d })
      ∧ t.ts = true ∧ t.cpl = t.segs.cs.sel.extractLsb' 0 2
      ∧ t.gdtr = s.gdtr ∧ t.idtr = s.idtr ∧ t.pg = s.pg ∧ (s.pg = false → t.pdbr = s.pdbr)
      ∧ t.extIntEnabled = s.extIntEnabled ∧ t.extInts = s.extInts ∧ t.lastExn = s.lastExn
      ∧ admitsExternal t = (s.extIntEnabled && Config.eflagsAdmitExternal t.eflags)

/-- The outgoing task is saved in its TSS: EIP, EFLAGS with NT cleared on IRET, the general registers, the six selectors
(41_task_switch.md R160, R161), whatever else the switch stores, where its own stores do not overlap. -/
def Obligations.SwitchSavesTask : Prop :=
  ∀ (k : SwitchKind) (ext : Bool) (tsel : Half) (ret : Word) (s t : State) (a : Word) (d : Desc),
    SwitchReady k tsel a d s → switchApart a d s = true → taskSwitch k ext tsel ret s = .ok t → Saved k ret s t

/-- Every byte of memory but those of `switchWrites` is as before (41_task_switch.md R160, R162, R163, R167; 10_state.md R38, R39), the
address stored to being that of the outgoing TSS, of the two descriptors and of the incoming TSS. -/
def Obligations.SwitchMemoryFrame : Prop :=
  ∀ (k : SwitchKind) (ext : Bool) (tsel : Half) (ret : Word) (s t : State) (a : Word) (d : Desc),
    s.pg = false → findTss k ext tsel s = .ok (a, d) → taskSwitch k ext tsel ret s = .ok t →
    ∀ p : Word, switchWrites k a d s p = false → memGet t.mem p.toNat = memGet s.mem p.toNat

/-- Table 7-2 (41_task_switch.md R170, R167), row by row, of any switch that ends, paging off, between two tasks whose TSSs and
descriptors do not overlap: busy bit of the incoming task, as it was before and as it is after, of the outgoing task, NT of the
incoming task, of the outgoing task, back-link of the incoming task, of the outgoing task. -/
def Obligations.LinkingTable : Prop :=
  ∀ (k : SwitchKind) (ext : Bool) (tsel : Half) (ret : Word) (s t : State) (a : Word) (d : Desc) (hout : Word),
    s.pg = false → findTss k ext tsel s = .ok (a, d) → tasksApart a d s = true → read32 s (outgoingDesc s + 4) = .ok hout →
    taskSwitch k ext tsel ret s = .ok t →
    ((descBusy d = true ↔ k = .iret) ∧ ∃ h, read32 t (a + 4) = .ok h ∧ h = d.high ||| 0x200)
      ∧ (∃ h, read32 t (outgoingDesc s + 4) = .ok h
        ∧ h = if k = .call ∨ k = .int then hout else hout &&& ~~~0x200)
      ∧ (∃ f, read32 s (descBase d + 36) = .ok f
        ∧ t.eflags = match k with
          | .jmp => f &&& ~~~0x4000
          | .call => f ||| 0x4000
          | .int => f ||| 0x4000
          | .iret => f)
      ∧ read32 t (s.tr.base + 36) = .ok (if k = .iret then s.eflags &&& ~~~0x4000 else s.eflags)
      ∧ read16 t (descBase d) = (if k = .call ∨ k = .int then .ok s.tr.sel else read16 s (descBase d))
      ∧ read16 t s.tr.base = read16 s s.tr.base

/-- P-tr, after each of the two writers of TR (70_reset_and_hazards.md R271, R272; 40_task_register.md R142), paging off: TR names a TSS
descriptor that is present and busy, and its invisible part is that descriptor's. A switch leaves it so between two tasks whose
structures do not overlap; LTR establishes it. -/
def Obligations.LtrAndSwitchGivePremiseTr : Prop :=
  (∀ (k : SwitchKind) (ext : Bool) (tsel : Half) (ret : Word) (s t : State) (a : Word) (d : Desc),
      SwitchReady k tsel a d s → tasksApart a d s = true → taskSwitch k ext tsel ret s = .ok t → PremiseTr t)
    ∧ ∀ (src : RM16) (s : State) (sel : Half) (a : Word) (d : Desc),
      s.pg = false → s.cpl = 0 → readRM16 s src = .ok sel → NamesTss s sel a d → descBusy d = false → descPresent d = true →
      ∃ t, exec (.ltr src) s = .next t ∧ PremiseTr t

/-- Under P-tss (70_reset_and_hazards.md R271), with the incoming TSS off the tables too (R277), paging off, a task switch changes no
descriptor table but for two busy bits, that of the incoming descriptor at `a` and that of the outgoing one, which are bit 1 of the
byte at offset 5 of each (41_task_switch.md R162, R163; the form of P-tss is log 42). -/
def Obligations.SwitchLeavesTables : Prop :=
  ∀ (k : SwitchKind) (ext : Bool) (tsel : Half) (ret : Word) (s t : State) (a : Word) (d : Desc),
    s.pg = false → PremiseTss s → offTables s (descBase d) = true → findTss k ext tsel s = .ok (a, d) →
    taskSwitch k ext tsel ret s = .ok t →
    ∀ x ∈ tables s, ∀ p : Word, inRange p x.1 x.2 = true →
      (p ≠ a + 5 → p ≠ outgoingDesc s + 5 → memGet t.mem p.toNat = memGet s.mem p.toNat)
      ∧ ∀ b, memGet s.mem p.toNat = some b → ∃ b', memGet t.mem p.toNat = some b' ∧ ∀ i, i ≠ 1 → b'.getLsbD i = b.getLsbD i

/-- A nesting switch and the IRET that answers it at once come back to the interrupted task: EIP the one that was saved, EFLAGS, the
general registers and the six selectors as they were, TR the old selector, external interrupts accepted or not as they were, and
the handler's descriptor available again (42 R206, R210, R211; 41_task_switch.md R172; 60_exceptions.md R242; log 15). -/
def Obligations.NestedTaskReturns : Prop :=
  ∀ (k : SwitchKind) (ext : Bool) (tsel : Half) (ret : Word) (s : State) (a : Word) (d : Desc) (a0 : Word) (d0 : Desc),
    links k = true → SwitchReady k tsel a d s → tasksApart a d s = true → CanReturn a0 d0 s →
    ∃ t u, taskSwitch k ext tsel ret s = .ok t ∧ exec .iret t = .next u
      ∧ u.eip = ret ∧ u.eflags = s.eflags ∧ u.gpr = s.gpr
      ∧ (∀ g, (segGet u.segs g).sel = (segGet s.segs g).sel)
      ∧ u.cpl = s.segs.cs.sel.extractLsb' 0 2
      ∧ u.tr = { sel := s.tr.sel, base := descBase d0, limit := effLimit d0 }
      ∧ admitsExternal u = admitsExternal s
      ∧ read32 u (a + 4) = .ok (d.high &&& ~~~0x200)

/-- An IRET whose back-link names the running task itself (41_task_switch.md R175 (b)): it goes on after the IRET with NT clear, every
general register and selector as before, and the running task's descriptor is available. -/
def Obligations.IretToItself : Prop :=
  ∀ (s : State) (bl : Half) (a : Word) (d : Desc),
    flagNT s.eflags = true → read16 s s.tr.base = .ok bl → SwitchReady .iret bl a d s →
    a = outgoingDesc s → descBase d = s.tr.base → apart s.tr.base 104 a 8 = true →
    ∃ t, exec .iret s = .next t ∧ t.eip = s.eip + 1 ∧ t.eflags = s.eflags &&& ~~~0x4000 ∧ t.gpr = s.gpr
      ∧ (∀ g, (segGet t.segs g).sel = (segGet s.segs g).sel)
      ∧ read32 t (a + 4) = .ok (d.high &&& ~~~0x200)

/-- The T-bit of the incoming TSS (41_task_switch.md R169, 60_exceptions.md R239): where it is set, DB is left to be delivered in the
incoming task, unless the filling of the hidden parts raised an exception, which is then the one left (the order of the two is
D18, log 38); where it is clear, only an exception of the filling is left, and it is no DB. That it is left for the next step to
deliver is the model's form (log 12). -/
def Obligations.TrapBitRaisesDebug : Prop :=
  ∀ (k : SwitchKind) (ext : Bool) (tsel : Half) (ret : Word) (s t : State) (a : Word) (d : Desc) (w : Half),
    SwitchReady k tsel a d s → taskSwitch k ext tsel ret s = .ok t → read16 t (descBase d + 100) = .ok w →
    (w &&& 1 = 1 → t.pending = match fillExn (fillHidden (beforeFilling s t)) with
      | none => some .db
      | some e => some e)
    ∧ (w &&& 1 = 0 → t.pending = fillExn (fillHidden (beforeFilling s t)))
    ∧ fillExn (fillHidden (beforeFilling s t)) ≠ some .db

/-- The selectors R237 bars from a segment register (60_exceptions.md R237): where a switch leaves one of the six registers with a
selector, of the GDT or of the LDT, that names a TSS descriptor, or leaves a data or stack register with one that names a task
gate, an exception other than DB is left to be delivered in the incoming task (its pending form is the model's, log 12); and the
load of such a selector alone answers TS with E(sel), its bit 0 clear whatever started the switch, which is the model's choice
(log 27). What the standard mechanism loads is not spoken of. -/
def Obligations.BarredSelectorRaises : Prop :=
  (∀ (k : SwitchKind) (ext : Bool) (tsel : Half) (ret : Word) (s t : State) (g : SegName) (a : Word) (d : Desc),
      taskSwitch k ext tsel ret s = .ok t → selNull (segGet t.segs g).sel = false →
      readDesc t (segGet t.segs g).sel = .ok (some (a, d)) → (isTss d = true ∨ (isTaskGate d = true ∧ g ≠ .cs)) →
      ∃ e, t.pending = some e ∧ e ≠ .db)
    ∧ ∀ (u : State) (g : SegName) (a : Word) (d : Desc),
      selNull (segGet u.segs g).sel = false → readDesc u (segGet u.segs g).sel = .ok (some (a, d)) →
      (isTss d = true ∨ (isTaskGate d = true ∧ g ≠ .cs)) →
      loadSeg g u = .error (.raise (.ts ((segGet u.segs g).sel &&& 0xFFFC)))

/-- The hidden parts a switch fills (41_task_switch.md R168, 00_scope.md R12): in the state that has every register of the incoming
task and the outgoing task's hidden parts, `LoadLDT` is asked first, then `LoadSeg` for CS, SS, DS, ES, FS, GS in that order, each
in the state the answers before it left. The first exception is left to be delivered in the incoming task (its pending form is the
model's, log 12) and leaves the hidden parts not yet filled as they were (that they stay is the model's reading, log 28). In a switch
that ends no load has met a not-present page (20_memory.md R91). -/
def Obligations.SwitchFillsHiddenParts : Prop :=
  ∀ (k : SwitchKind) (ext : Bool) (tsel : Half) (ret : Word) (s t : State), taskSwitch k ext tsel ret s = .ok t →
    match Config.loadLdt t.ldtr.sel (beforeFilling s t) with
    | .error f => t.pending = some (segFaultExn f) ∧ t.ldtr.hidden = s.ldtr.hidden ∧ t.segs = (beforeFilling s t).segs
    | .ok l => t.ldtr.hidden = l
      ∧ FillsInOrder [.cs, .ss, .ds, .es, .fs, .gs] { beforeFilling s t with ldtr := { sel := t.ldtr.sel, hidden := l } } t

/-! ## Exceptions and external interrupts -/

/-- Error information (60_exceptions.md R231): `E(sel)` clears bits 1:0; `IdtErr` is 8v + 2; an external interrupt or an exception adds
1 to both. -/
def Obligations.ErrorInformation : Prop :=
  (∀ (sel : Half) (i : Nat), (errSel sel).getLsbD i = (decide (2 ≤ i) && sel.getLsbD i))
    ∧ (∀ sel : Half, errSelExt false sel = errSel sel ∧ errSelExt true sel = errSel sel + 1)
    ∧ (∀ v : Byte, (idtErr v .software).toNat = 8 * v.toNat + 2 ∧ (idtErr v .external).toNat = 8 * v.toNat + 3
      ∧ (idtErr v .exception).toNat = 8 * v.toNat + 3)
    ∧ originExt .software = false ∧ originExt .external = true ∧ originExt .exception = true

/-- Taking an exception (42 R208, R210, 60_exceptions.md R230, R240, R241) goes through the IDT entry of the class's vector, and the
error information is kept (log 16). Where the entry holds a present task gate the switch is of kind INT with the EIP of the state
saved (the raising instruction's, or the loaded one of a task just entered): it completes, with paging off, where the switch is
ready, and, with paging on or off, where the switch's own accesses succeed. Any other entry is the standard mechanism (the form of
its answers is log 8): it completes with the parameter's effect, and an exception it answers is the fault of R243 (log 13). -/
def Obligations.ExceptionEntersHandler : Prop :=
  ∀ (e : Exn) (v : Byte) (s : State) (g : Desc),
    v = (match e with
      | .db => 1
      | .ud => 6
      | .ts _ => 10
      | .np _ => 11
      | .ss _ => 12
      | .gp _ => 13
      | .pf _ => 14) →
    readIdt s v = .ok (some g) →
    (isTaskGate g = true → descPresent g = true → ∀ (a : Word) (d : Desc),
      (SwitchReady .int (gateSel g) a d s →
        ∃ t, takeException e s = .next t ∧ t.lastExn = some e
          ∧ taskSwitch .int true (gateSel g) s.eip { s with lastExn := some e } = .ok t
          ∧ Entered .int (gateSel g) d { s with lastExn := some e } t)
      ∧ ∀ (s' : State) (img : TssImage), SwitchRuns .int true (gateSel g) s.eip a d { s with lastExn := some e } s' img →
        takeException e s = .next (makeUsable img.t (install .int img s')))
    ∧ (isTaskGate g = false →
      match Config.otherTransfer (.int v .exception s.eip) { s with lastExn := some e } with
      | .effect o => takeException e s = .next (applyOther o { s with lastExn := some e })
      | .raise x => takeException e s = .fault (.exceptionDuringDelivery (.exception e) x))

/-- An exception raised while an exception or an external interrupt is delivered is the fault `ExceptionDuringDelivery`
(60_exceptions.md R243; for an exception of the vectoring that R243 does not list this is the model's choice, log 13). The cases of
R232 rows 8 to 13 and 19: an IDT that does not reach the vector; a task gate that is not present
(41_task_switch.md R154); a present one whose task the switch's checks do not let in (R153 to R157, which `SwitchNeedsTssInGdt` to
`SwitchLimitTest` spell out). -/
def Obligations.ExceptionDuringDelivery : Prop :=
  (∀ (e x : Exn) (s : State), vectorTo (exnVector e) .exception s.eip { s with lastExn := some e } = .error (.raise x) →
      takeException e s = .fault (.exceptionDuringDelivery (.exception e) x))
    ∧ (∀ (v : Byte) (x : Exn) (s : State), vectorTo v .external s.eip s = .error (.raise x) →
      takeExternal v s = .fault (.exceptionDuringDelivery (.external v) x))
    ∧ (∀ (e : Exn) (s : State), readIdt s (exnVector e) = .ok none →
      takeException e s = .fault (.exceptionDuringDelivery (.exception e) (.gp (idtErr (exnVector e) .exception))))
    ∧ (∀ (v : Byte) (s : State), readIdt s v = .ok none →
      takeExternal v s = .fault (.exceptionDuringDelivery (.external v) (.gp (idtErr v .external))))
    ∧ (∀ (e : Exn) (s : State) (g : Desc), readIdt s (exnVector e) = .ok (some g) → isTaskGate g = true →
      (descPresent g = false →
        takeException e s = .fault (.exceptionDuringDelivery (.exception e) (.np (idtErr (exnVector e) .exception))))
      ∧ (descPresent g = true → ∀ x, taskSwitch .int true (gateSel g) s.eip { s with lastExn := some e } = .error (.raise x) →
        takeException e s = .fault (.exceptionDuringDelivery (.exception e) x)))
    ∧ ∀ (v : Byte) (s : State) (g : Desc), readIdt s v = .ok (some g) → isTaskGate g = true →
      (descPresent g = false → takeExternal v s = .fault (.exceptionDuringDelivery (.external v) (.np (idtErr v .external))))
      ∧ (descPresent g = true → ∀ x, taskSwitch .int true (gateSel g) s.eip s = .error (.raise x) →
        takeExternal v s = .fault (.exceptionDuringDelivery (.external v) x))

/-- An exception left in the incoming task is delivered by the next step, before an external interrupt and before any instruction, with
the loaded EIP saved (41_task_switch.md R168, R169; that it comes before an external interrupt is the model's choice, log 12). -/
def Obligations.PendingExceptionFirst : Prop :=
  ∀ (s : State) (e : Exn), s.pending = some e → step s = takeException e { s with pending := none }

/-- An external interrupt presented while `ext_int_enabled` is 1 and nothing is pending (42 R208, R209, 60_exceptions.md R238, R239):
where EFLAGS admits it, which is open (R241, log 15), it is taken at the boundary and the presentation is used up. Through a present
task gate the switch is of kind INT with the EIP of the instruction that would have run saved: the step completes, with paging off,
where the switch is ready, and, with paging on or off, where the switch's own accesses succeed. Any other entry is the standard
mechanism (the form of its answers is log 8): the step completes with the parameter's effect, and an exception it answers is the
fault of R243 (log 13). Where EFLAGS does not admit it, the instruction runs. -/
def Obligations.ExternalInterruptEntersHandler : Prop :=
  ∀ (s : State) (v : Byte) (rest : List (Option Byte)) (g : Desc),
    s.pending = none → s.extIntEnabled = true → s.extInts = some v :: rest → readIdt s v = .ok (some g) →
    if Config.eflagsAdmitExternal s.eflags then
      (isTaskGate g = true → descPresent g = true → ∀ (a : Word) (d : Desc),
        (SwitchReady .int (gateSel g) a d s →
          ∃ t, step s = .next t ∧ taskSwitch .int true (gateSel g) s.eip { s with extInts := rest } = .ok t
            ∧ Entered .int (gateSel g) d { s with extInts := rest } t)
        ∧ ∀ (s' : State) (img : TssImage), SwitchRuns .int true (gateSel g) s.eip a d { s with extInts := rest } s' img →
          step s = .next (makeUsable img.t (install .int img s')))
      ∧ (isTaskGate g = false →
        match Config.otherTransfer (.int v .external s.eip) { s with extInts := rest } with
        | .effect o => step s = .next (applyOther o { s with extInts := rest })
        | .raise x => step s = .fault (.exceptionDuringDelivery (.external v) x))
    else step s = runInstr s

/-- Where nothing is pending and external interrupts are not accepted, or none is presented, the step runs an instruction
(60_exceptions.md R238, 42 R209; 00_scope.md R13, R14): with `ext_int_enabled` 0 they are not accepted (that they are not where EFLAGS
does not admit them is the combination chosen in log 15). Where they are accepted and the outside presents nothing at this boundary,
the list empty or nothing at its head, that boundary's entry is used up and an instruction runs (the list is log 15's form). And
an instruction runs, in the sense that the other statements about a step assume, in each of these cases. -/
def Obligations.NoInterruptRunsInstruction : Prop :=
  ∀ s : State, s.pending = none →
    (admitsExternal s = false → step s = runInstr s ∧ boundaryEvent s = .run)
      ∧ (s.extIntEnabled = false → step s = runInstr s ∧ boundaryEvent s = .run)
      ∧ ∀ rest, (s.extInts = [] ∧ rest = [] ∨ s.extInts = none :: rest) →
        boundaryEvent s = .run
          ∧ step s = runInstr { s with extInts := if admitsExternal s then rest else s.extInts }

/-! ## Memory and descriptors -/

/-- The locked update of a busy bit, paging off (10_state.md R60, 20_memory.md R83): only the byte at the descriptor's address plus 5
changes, and of it only bit 1; no register changes. -/
def Obligations.SetBusyChangesOneBit : Prop :=
  ∀ (a : Word) (b : Bool) (s : State) (high : Word), s.pg = false → read32 s (a + 4) = .ok high →
    ∃ t, setBusy a b s = .ok t ∧ t = { s with mem := t.mem }
      ∧ (∀ p : Word, p ≠ a + 5 → memGet t.mem p.toNat = memGet s.mem p.toNat)
      ∧ ∃ x y, memGet s.mem (a + 5).toNat = some x ∧ memGet t.mem (a + 5).toNat = some y
        ∧ ∀ i, y.getLsbD i = if i = 1 then b else x.getLsbD i

/-- Byte order and frame of the memory operations, paging off (20_memory.md R82, R84): a word written reads back, its lowest byte
lies at its address, and no other byte changes. -/
def Obligations.WordReadsBackLittleEndian : Prop :=
  ∀ (s : State) (a v : Word), s.pg = false →
    ∃ t, write32 s a v = .ok t ∧ read32 t a = .ok v ∧ t = { s with mem := t.mem }
      ∧ memGet t.mem a.toNat = some (v.extractLsb' 0 8) ∧ memGet t.mem (a + 1).toNat = some (v.extractLsb' 8 8)
      ∧ memGet t.mem (a + 2).toNat = some (v.extractLsb' 16 8) ∧ memGet t.mem (a + 3).toNat = some (v.extractLsb' 24 8)
      ∧ ∀ p : Word, p ≠ a → p ≠ a + 1 → p ≠ a + 2 → p ≠ a + 3 → memGet t.mem p.toNat = memGet s.mem p.toNat

/-- Base and limit of a TSS descriptor (10_state.md R46): the fields' places, and the effective limit as a number. -/
def Obligations.DescriptorBaseAndLimit : Prop :=
  ∀ d : Desc,
    (descBase d).toNat = d.high.toNat / 2 ^ 24 * 2 ^ 24 + d.high.toNat % 2 ^ 8 * 2 ^ 16 + d.low.toNat / 2 ^ 16
    ∧ (descLimit20 d).toNat = d.high.toNat / 2 ^ 16 % 16 * 2 ^ 16 + d.low.toNat % 2 ^ 16
    ∧ (effLimit d).toNat
      = if d.high.toNat / 2 ^ 23 % 2 = 1 then (descLimit20 d).toNat * 2 ^ 12 + 0xFFF else (descLimit20 d).toNat

/-! ## Invariants that every step keeps -/

/-- Memory keeps its canonical form in every step (the form is the model's own, log 2). -/
def Obligations.StepKeepsMemoryCanonical : Prop :=
  ∀ s t : State, step s = .next t → Memory.wf s.mem = true → Memory.wf t.mem = true

/-- Memory has its canonical form after reset (log 2). -/
def Obligations.ResetMemoryCanonical : Prop :=
  Memory.wf State.reset.mem = true

/-- A step never clears MSW.TS (70_reset_and_hazards.md R280, 10_state.md R33). The rules speak of what is in scope; that the standard
mechanism, which a step may run, does not clear it is the model's reading (log 8). -/
def Obligations.StepNeverClearsTaskSwitched : Prop :=
  ∀ s t : State, step s = .next t → s.ts = true → t.ts = true

/-- No step writes PG, GDTR or IDTR (10_state.md R34, R35). The rules speak of what is in scope; that the standard mechanism, which a
step may run, does not write them is the model's reading (log 8). -/
def Obligations.StepKeepsTableRegisters : Prop :=
  ∀ s t : State, step s = .next t → t.pg = s.pg ∧ t.gdtr = s.gdtr ∧ t.idtr = s.idtr

/-- TR is written by LTR and by a task switch and by nothing else, and always whole, from the descriptor its new selector names: nothing
clears it and nothing writes its invisible part alone (40_task_register.md R142). -/
def Obligations.OnlyLtrAndSwitchWriteTr : Prop :=
  ∀ s t : State, step s = .next t → t.tr ≠ s.tr →
    (∃ (src : RM16) (n : Nat) (sel : Half) (a : Word) (d : Desc),
        fetch (boundaryState s) = .ok (.instr (.ltr src) n) ∧ NamesTss (boundaryState s) sel a d
          ∧ t.tr = { sel := sel, base := descBase d, limit := effLimit d })
      ∨ ∃ (s1 : State) (k : SwitchKind) (ext : Bool) (tsel : Half) (ret : Word) (a : Word) (d : Desc),
        s1 = { boundaryState s with lastExn := s1.lastExn } ∧ taskSwitch k ext tsel ret s1 = .ok t ∧ NamesTss s1 tsel a d
          ∧ t.tr = { sel := tsel, base := descBase d, limit := effLimit d }

/-- The LDT register and PDBR are written by a task switch and by nothing else (10_state.md R31, R32). The rules say what writes them;
that the standard mechanism, which a step may run, does not is the model's reading (log 8). -/
def Obligations.OnlySwitchWritesLdtrAndPdbr : Prop :=
  ∀ s t : State, step s = .next t → (t.ldtr ≠ s.ldtr ∨ t.pdbr ≠ s.pdbr) →
    ∃ (s1 : State) (k : SwitchKind) (ext : Bool) (tsel : Half) (ret : Word),
      s1 = { boundaryState s with lastExn := s1.lastExn } ∧ taskSwitch k ext tsel ret s1 = .ok t

/-- No step writes `ext_int_enabled` (60_exceptions.md R238). That the standard mechanism, which a step may run, does not is the model's
reading (log 8). -/
def Obligations.StepKeepsExtIntEnabled : Prop :=
  ∀ s t : State, step s = .next t → t.extIntEnabled = s.extIntEnabled

/-- A byte of memory that has a value keeps having one (20_memory.md R87, R94; 10_state.md R61). -/
def Obligations.WrittenMemoryStaysWritten : Prop :=
  ∀ (s t : State) (p : Nat), step s = .next t → (memGet s.mem p).isSome → (memGet t.mem p).isSome

end Statements
end

