-- ==== Sys2Proof/Laws/Memory.lean ====
section
/-! SUPPORT. Physical memory: reading after writing, and the canonical form that every write keeps. -/

namespace Sys2Proof.Machine

/-- A byte written reads back. -/
@[simp] theorem memGet_memPut_same (m : List Host.Cell) (a : Nat) (b : Byte) : memGet (memPut m a b) a = some b := by
  induction m with
  | nil => simp [memPut, memGet]
  | cons c m ih =>
    obtain ⟨c, x⟩ := c
    simp only [memPut]
    split
    · simp [memGet]
    · split
      · simp [memGet]
      · have hc : c ≠ a := fun h => ‹¬a = c› h.symm
        simp [memGet, hc, ih]

/-- A write leaves every other byte alone. -/
theorem memGet_memPut_other (m : List Host.Cell) {a a' : Nat} (b : Byte) (h : a' ≠ a) :
    memGet (memPut m a b) a' = memGet m a' := by
  induction m with
  | nil => simp [memPut, memGet, Ne.symm h]
  | cons c m ih =>
    obtain ⟨c, x⟩ := c
    simp only [memPut]
    split
    · simp [memGet, Ne.symm h]
    · split
      · subst_vars
        simp [memGet, Ne.symm h]
      · simp only [memGet, ih]

/-- Reading after a write, in one equation. -/
theorem memGet_memPut (m : List Host.Cell) (a a' : Nat) (b : Byte) :
    memGet (memPut m a b) a' = if a' = a then some b else memGet m a' := by
  split
  · next h => rw [h, memGet_memPut_same]
  · next h => exact memGet_memPut_other m b h

/-- A byte that has a value keeps having one. -/
theorem memGet_isSome_memPut (m : List Host.Cell) (a a' : Nat) (b : Byte) (h : (memGet m a').isSome) :
    (memGet (memPut m a b) a').isSome := by
  rw [memGet_memPut]
  split
  · rfl
  · exact h

theorem memRising_mono {m : List Host.Cell} {lo lo' : Nat} (h : lo' ≤ lo) (hm : memRising lo m = true) :
    memRising lo' m = true := by
  cases m with
  | nil => rfl
  | cons c m =>
    obtain ⟨c, x⟩ := c
    simp only [memRising, Bool.and_eq_true, decide_eq_true_eq] at hm ⊢
    exact ⟨h.trans hm.1, hm.2⟩

/-- A write keeps the addresses rising. -/
theorem memRising_memPut {m : List Host.Cell} {lo a : Nat} (b : Byte) (hm : memRising lo m = true) (h : lo ≤ a) :
    memRising lo (memPut m a b) = true := by
  induction m generalizing lo with
  | nil => simp [memPut, memRising, h]
  | cons c m ih =>
    obtain ⟨c, x⟩ := c
    simp only [memRising, Bool.and_eq_true, decide_eq_true_eq] at hm
    simp only [memPut]
    split
    · simp only [memRising, Bool.and_eq_true, decide_eq_true_eq]
      exact ⟨h, by omega, hm.2⟩
    · split
      · subst_vars
        simp only [memRising, Bool.and_eq_true, decide_eq_true_eq]
        exact ⟨h, hm.2⟩
      · simp only [memRising, Bool.and_eq_true, decide_eq_true_eq]
        exact ⟨hm.1, ih hm.2 (by omega)⟩

/-- A write stores no address outside the address space. -/
theorem memPut_all {m : List Host.Cell} {a : Nat} (b : Byte) {n : Nat} (hm : (m.all fun c => decide (c.1 < n)) = true)
    (h : a < n) : ((memPut m a b).all fun c => decide (c.1 < n)) = true := by
  induction m with
  | nil => simp [memPut, h]
  | cons c m ih =>
    obtain ⟨c, x⟩ := c
    simp only [List.all_cons, Bool.and_eq_true, decide_eq_true_eq] at hm
    simp only [memPut]
    split
    · simp only [List.all_cons, Bool.and_eq_true, decide_eq_true_eq]
      exact ⟨h, hm.1, hm.2⟩
    · split
      · simp only [List.all_cons, Bool.and_eq_true, decide_eq_true_eq]
        exact ⟨h, hm.2⟩
      · simp only [List.all_cons, Bool.and_eq_true, decide_eq_true_eq]
        exact ⟨hm.1, ih hm.2⟩

/-- Storing a byte at a physical address keeps the canonical form. -/
theorem memPut_wf {m : List Host.Cell} (p : Word) (b : Byte) (hm : Memory.wf m = true) :
    Memory.wf (memPut m p.toNat b) = true := by
  simp only [Memory.wf, Bool.and_eq_true] at hm ⊢
  exact ⟨memRising_memPut b hm.1 (Nat.zero_le _), memPut_all b hm.2 p.isLt⟩

/-- Storing a list of bytes at physical addresses keeps the canonical form. -/
theorem foldl_memPut_wf {m : List Host.Cell} (stores : List (Word × Byte)) (hm : Memory.wf m = true) :
    Memory.wf (stores.foldl (fun m c => memPut m c.1.toNat c.2) m) = true := by
  induction stores generalizing m with
  | nil => exact hm
  | cons c stores ih => exact ih (memPut_wf c.1 c.2 hm)

/-- Storing a list of bytes leaves a value in every byte that had one. -/
theorem foldl_memPut_some {m : List Host.Cell} (stores : List (Word × Byte)) {a : Nat} (h : (memGet m a).isSome) :
    (memGet (stores.foldl (fun m c => memPut m c.1.toNat c.2) m) a).isSome := by
  induction stores generalizing m with
  | nil => exact h
  | cons c stores ih => exact ih (memGet_isSome_memPut m _ _ _ h)

end Sys2Proof.Machine
end

