-- ==== Sys2Proof/Laws/State.lean ====
section
/-! SUPPORT. The small lemmas of the state's named updates: one lemma per field per update, each true by `rfl`. -/

namespace Sys2Proof.Machine

/-! ## `putPhys` -/

@[simp] theorem putPhys_gpr (s : State) (p : Word) (b : Byte) : (putPhys s p b).gpr = s.gpr := rfl
@[simp] theorem putPhys_eip (s : State) (p : Word) (b : Byte) : (putPhys s p b).eip = s.eip := rfl
@[simp] theorem putPhys_eflags (s : State) (p : Word) (b : Byte) : (putPhys s p b).eflags = s.eflags := rfl
@[simp] theorem putPhys_segs (s : State) (p : Word) (b : Byte) : (putPhys s p b).segs = s.segs := rfl
@[simp] theorem putPhys_cpl (s : State) (p : Word) (b : Byte) : (putPhys s p b).cpl = s.cpl := rfl
@[simp] theorem putPhys_tr (s : State) (p : Word) (b : Byte) : (putPhys s p b).tr = s.tr := rfl
@[simp] theorem putPhys_ldtr (s : State) (p : Word) (b : Byte) : (putPhys s p b).ldtr = s.ldtr := rfl
@[simp] theorem putPhys_pdbr (s : State) (p : Word) (b : Byte) : (putPhys s p b).pdbr = s.pdbr := rfl
@[simp] theorem putPhys_ts (s : State) (p : Word) (b : Byte) : (putPhys s p b).ts = s.ts := rfl
@[simp] theorem putPhys_pg (s : State) (p : Word) (b : Byte) : (putPhys s p b).pg = s.pg := rfl
@[simp] theorem putPhys_gdtr (s : State) (p : Word) (b : Byte) : (putPhys s p b).gdtr = s.gdtr := rfl
@[simp] theorem putPhys_idtr (s : State) (p : Word) (b : Byte) : (putPhys s p b).idtr = s.idtr := rfl
@[simp] theorem putPhys_mem (s : State) (p : Word) (b : Byte) : (putPhys s p b).mem = memPut s.mem p.toNat b := rfl
@[simp] theorem putPhys_extIntEnabled (s : State) (p : Word) (b : Byte) : (putPhys s p b).extIntEnabled = s.extIntEnabled := rfl
@[simp] theorem putPhys_extInts (s : State) (p : Word) (b : Byte) : (putPhys s p b).extInts = s.extInts := rfl
@[simp] theorem putPhys_pending (s : State) (p : Word) (b : Byte) : (putPhys s p b).pending = s.pending := rfl
@[simp] theorem putPhys_lastExn (s : State) (p : Word) (b : Byte) : (putPhys s p b).lastExn = s.lastExn := rfl
@[simp] theorem putPhys_freeCount (s : State) (p : Word) (b : Byte) : (putPhys s p b).freeCount = s.freeCount := rfl

/-! ## `install` -/

@[simp] theorem install_gpr (k : SwitchKind) (img : TssImage) (s : State) : (install k img s).gpr = img.gpr := rfl
@[simp] theorem install_eip (k : SwitchKind) (img : TssImage) (s : State) : (install k img s).eip = img.eip := rfl
@[simp] theorem install_eflags (k : SwitchKind) (img : TssImage) (s : State) : (install k img s).eflags = incomingFlags k img.flags := rfl
@[simp] theorem install_segs (k : SwitchKind) (img : TssImage) (s : State) : (install k img s).segs = 
    { es := ⟨img.es, s.segs.es.hidden⟩, cs := ⟨img.cs, s.segs.cs.hidden⟩, ss := ⟨img.ss, s.segs.ss.hidden⟩,
      ds := ⟨img.ds, s.segs.ds.hidden⟩, fs := ⟨img.fs, s.segs.fs.hidden⟩, gs := ⟨img.gs, s.segs.gs.hidden⟩ } := rfl
@[simp] theorem install_cpl (k : SwitchKind) (img : TssImage) (s : State) : (install k img s).cpl = selRPL img.cs := rfl
@[simp] theorem install_tr (k : SwitchKind) (img : TssImage) (s : State) : (install k img s).tr = s.tr := rfl
@[simp] theorem install_ldtr (k : SwitchKind) (img : TssImage) (s : State) : (install k img s).ldtr = { sel := img.ldt, hidden := s.ldtr.hidden } := rfl
@[simp] theorem install_pdbr (k : SwitchKind) (img : TssImage) (s : State) : (install k img s).pdbr = img.pd.getD s.pdbr := rfl
@[simp] theorem install_ts (k : SwitchKind) (img : TssImage) (s : State) : (install k img s).ts = s.ts := rfl
@[simp] theorem install_pg (k : SwitchKind) (img : TssImage) (s : State) : (install k img s).pg = s.pg := rfl
@[simp] theorem install_gdtr (k : SwitchKind) (img : TssImage) (s : State) : (install k img s).gdtr = s.gdtr := rfl
@[simp] theorem install_idtr (k : SwitchKind) (img : TssImage) (s : State) : (install k img s).idtr = s.idtr := rfl
@[simp] theorem install_mem (k : SwitchKind) (img : TssImage) (s : State) : (install k img s).mem = s.mem := rfl
@[simp] theorem install_extIntEnabled (k : SwitchKind) (img : TssImage) (s : State) : (install k img s).extIntEnabled = s.extIntEnabled := rfl
@[simp] theorem install_extInts (k : SwitchKind) (img : TssImage) (s : State) : (install k img s).extInts = s.extInts := rfl
@[simp] theorem install_pending (k : SwitchKind) (img : TssImage) (s : State) : (install k img s).pending = s.pending := rfl
@[simp] theorem install_lastExn (k : SwitchKind) (img : TssImage) (s : State) : (install k img s).lastExn = s.lastExn := rfl
@[simp] theorem install_freeCount (k : SwitchKind) (img : TssImage) (s : State) : (install k img s).freeCount = s.freeCount := rfl

/-! ## `makeUsable` -/

@[simp] theorem makeUsable_gpr (t : Bool) (s : State) : (makeUsable t s).gpr = s.gpr := rfl
@[simp] theorem makeUsable_eip (t : Bool) (s : State) : (makeUsable t s).eip = s.eip := rfl
@[simp] theorem makeUsable_eflags (t : Bool) (s : State) : (makeUsable t s).eflags = s.eflags := rfl
@[simp] theorem makeUsable_cpl (t : Bool) (s : State) : (makeUsable t s).cpl = s.cpl := rfl
@[simp] theorem makeUsable_tr (t : Bool) (s : State) : (makeUsable t s).tr = s.tr := rfl
@[simp] theorem makeUsable_pdbr (t : Bool) (s : State) : (makeUsable t s).pdbr = s.pdbr := rfl
@[simp] theorem makeUsable_ts (t : Bool) (s : State) : (makeUsable t s).ts = s.ts := rfl
@[simp] theorem makeUsable_pg (t : Bool) (s : State) : (makeUsable t s).pg = s.pg := rfl
@[simp] theorem makeUsable_gdtr (t : Bool) (s : State) : (makeUsable t s).gdtr = s.gdtr := rfl
@[simp] theorem makeUsable_idtr (t : Bool) (s : State) : (makeUsable t s).idtr = s.idtr := rfl
@[simp] theorem makeUsable_mem (t : Bool) (s : State) : (makeUsable t s).mem = s.mem := rfl
@[simp] theorem makeUsable_extIntEnabled (t : Bool) (s : State) : (makeUsable t s).extIntEnabled = s.extIntEnabled := rfl
@[simp] theorem makeUsable_extInts (t : Bool) (s : State) : (makeUsable t s).extInts = s.extInts := rfl
@[simp] theorem makeUsable_pending (t : Bool) (s : State) : (makeUsable t s).pending = switchExn (fillHidden s) t := rfl
@[simp] theorem makeUsable_lastExn (t : Bool) (s : State) : (makeUsable t s).lastExn = s.lastExn := rfl
@[simp] theorem makeUsable_freeCount (t : Bool) (s : State) : (makeUsable t s).freeCount = s.freeCount := rfl

@[simp] theorem makeUsable_ldtr_sel (t : Bool) (s : State) : (makeUsable t s).ldtr.sel = s.ldtr.sel := rfl

/-- Filling the hidden parts keeps every visible selector. -/
@[simp] theorem makeUsable_segs_sel (t : Bool) (s : State) (g : SegName) :
    (segGet (makeUsable t s).segs g).sel = (segGet s.segs g).sel := by
  cases g <;> rfl

@[simp] theorem makeUsable_cs_sel (t : Bool) (s : State) : (makeUsable t s).segs.cs.sel = s.segs.cs.sel := rfl

/-! ## `applyOther` -/

@[simp] theorem applyOther_gpr (e : OtherEffect) (s : State) : (applyOther e s).gpr = e.gpr := rfl
@[simp] theorem applyOther_eip (e : OtherEffect) (s : State) : (applyOther e s).eip = e.eip := rfl
@[simp] theorem applyOther_eflags (e : OtherEffect) (s : State) : (applyOther e s).eflags = e.eflags := rfl
@[simp] theorem applyOther_segs (e : OtherEffect) (s : State) : (applyOther e s).segs = e.segs := rfl
@[simp] theorem applyOther_cpl (e : OtherEffect) (s : State) : (applyOther e s).cpl = e.cpl := rfl
@[simp] theorem applyOther_tr (e : OtherEffect) (s : State) : (applyOther e s).tr = s.tr := rfl
@[simp] theorem applyOther_ldtr (e : OtherEffect) (s : State) : (applyOther e s).ldtr = s.ldtr := rfl
@[simp] theorem applyOther_pdbr (e : OtherEffect) (s : State) : (applyOther e s).pdbr = s.pdbr := rfl
@[simp] theorem applyOther_ts (e : OtherEffect) (s : State) : (applyOther e s).ts = s.ts := rfl
@[simp] theorem applyOther_pg (e : OtherEffect) (s : State) : (applyOther e s).pg = s.pg := rfl
@[simp] theorem applyOther_gdtr (e : OtherEffect) (s : State) : (applyOther e s).gdtr = s.gdtr := rfl
@[simp] theorem applyOther_idtr (e : OtherEffect) (s : State) : (applyOther e s).idtr = s.idtr := rfl
@[simp] theorem applyOther_mem (e : OtherEffect) (s : State) : (applyOther e s).mem = e.stores.foldl (fun m c => memPut m c.1.toNat c.2) s.mem := rfl
@[simp] theorem applyOther_extIntEnabled (e : OtherEffect) (s : State) : (applyOther e s).extIntEnabled = s.extIntEnabled := rfl
@[simp] theorem applyOther_extInts (e : OtherEffect) (s : State) : (applyOther e s).extInts = s.extInts := rfl
@[simp] theorem applyOther_pending (e : OtherEffect) (s : State) : (applyOther e s).pending = s.pending := rfl
@[simp] theorem applyOther_lastExn (e : OtherEffect) (s : State) : (applyOther e s).lastExn = s.lastExn := rfl
@[simp] theorem applyOther_freeCount (e : OtherEffect) (s : State) : (applyOther e s).freeCount = s.freeCount := rfl

/-! ## `placeInstr` -/

@[simp] theorem placeInstr_gpr (s : State) (nbits w : Nat) : (placeInstr s nbits w).gpr = s.gpr := rfl
@[simp] theorem placeInstr_eip (s : State) (nbits w : Nat) : (placeInstr s nbits w).eip = s.eip := rfl
@[simp] theorem placeInstr_eflags (s : State) (nbits w : Nat) : (placeInstr s nbits w).eflags = s.eflags := rfl
@[simp] theorem placeInstr_segs (s : State) (nbits w : Nat) : (placeInstr s nbits w).segs = { s.segs with cs := { s.segs.cs with hidden := .flat } } := rfl
@[simp] theorem placeInstr_cpl (s : State) (nbits w : Nat) : (placeInstr s nbits w).cpl = s.cpl := rfl
@[simp] theorem placeInstr_tr (s : State) (nbits w : Nat) : (placeInstr s nbits w).tr = s.tr := rfl
@[simp] theorem placeInstr_ldtr (s : State) (nbits w : Nat) : (placeInstr s nbits w).ldtr = s.ldtr := rfl
@[simp] theorem placeInstr_pdbr (s : State) (nbits w : Nat) : (placeInstr s nbits w).pdbr = s.pdbr := rfl
@[simp] theorem placeInstr_ts (s : State) (nbits w : Nat) : (placeInstr s nbits w).ts = s.ts := rfl
@[simp] theorem placeInstr_pg (s : State) (nbits w : Nat) : (placeInstr s nbits w).pg = false := rfl
@[simp] theorem placeInstr_gdtr (s : State) (nbits w : Nat) : (placeInstr s nbits w).gdtr = s.gdtr := rfl
@[simp] theorem placeInstr_idtr (s : State) (nbits w : Nat) : (placeInstr s nbits w).idtr = s.idtr := rfl
@[simp] theorem placeInstr_mem (s : State) (nbits w : Nat) : (placeInstr s nbits w).mem = placeBytes (tableBytes nbits w) s.eip s.mem := rfl
@[simp] theorem placeInstr_extIntEnabled (s : State) (nbits w : Nat) : (placeInstr s nbits w).extIntEnabled = s.extIntEnabled := rfl
@[simp] theorem placeInstr_extInts (s : State) (nbits w : Nat) : (placeInstr s nbits w).extInts = [] := rfl
@[simp] theorem placeInstr_pending (s : State) (nbits w : Nat) : (placeInstr s nbits w).pending = none := rfl
@[simp] theorem placeInstr_lastExn (s : State) (nbits w : Nat) : (placeInstr s nbits w).lastExn = s.lastExn := rfl
@[simp] theorem placeInstr_freeCount (s : State) (nbits w : Nat) : (placeInstr s nbits w).freeCount = s.freeCount := rfl

/-! ## Registers -/

/-- Writing one general register changes that one alone (00_scope.md R8). -/
theorem gprGet_gprSet (g : Gprs) (r q : Reg) (v : Word) :
    gprGet (gprSet g r v) q = if q = r then v else gprGet g q := by
  cases r <;> cases q <;> rfl

/-- Filling a hidden part keeps every selector. -/
@[simp] theorem segSetHidden_sel (g : Segs) (k q : SegName) (h : SegHidden) :
    (segGet (segSetHidden g k h) q).sel = (segGet g q).sel := by
  cases k <;> cases q <;> rfl

end Sys2Proof.Machine
end

