-- ==== Sys2Proof/Laws/Ops.lean ====
section
/-! SUPPORT. One lemma per shared operation that says once everything it can do: "if it answers ok s', then …". -/

namespace Sys2Proof.Machine

open Host (Outcome)

/-! ## Sequencing -/

@[simp] theorem ok_bind {α β : Type} (a : α) (f : α → Except Stop β) : ((Except.ok a : Except Stop α) >>= f) = f a := rfl

@[simp] theorem error_bind {α β : Type} (e : Stop) (f : α → Except Stop β) :
    ((Except.error e : Except Stop α) >>= f) = .error e := rfl

/-- A sequence answers ok exactly when both of its parts do. -/
theorem bind_eq_ok {α β : Type} {x : Except Stop α} {f : α → Except Stop β} {b : β} :
    (x >>= f) = .ok b ↔ ∃ a, x = .ok a ∧ f a = .ok b := by
  cases x with
  | error e => simp
  | ok a => simp

/-! ## Operations that only store -/

/-- `s'` is `s` after stores: only memory and the counter of free values differ, the canonical form is kept, and a byte that had a
value has one. -/
structure OnlyStores (s s' : State) : Prop where
  eq : s' = { s with mem := s'.mem, freeCount := s'.freeCount }
  wf : Memory.wf s.mem = true → Memory.wf s'.mem = true
  some : ∀ p, (memGet s.mem p).isSome → (memGet s'.mem p).isSome

theorem OnlyStores.refl (s : State) : OnlyStores s s := ⟨rfl, id, fun _ => id⟩

theorem OnlyStores.trans {s s' s'' : State} (h : OnlyStores s s') (h' : OnlyStores s' s'') : OnlyStores s s'' where
  eq := by
    obtain ⟨e, -, -⟩ := h
    obtain ⟨e', -, -⟩ := h'
    rw [e', e]
  wf := h'.wf ∘ h.wf
  some p := h'.some p ∘ h.some p

theorem OnlyStores.putPhys (s : State) (p : Word) (b : Byte) : OnlyStores s (putPhys s p b) where
  eq := rfl
  wf := memPut_wf p b
  some _ := memGet_isSome_memPut _ _ _ _

/-- `storeBytes` only stores. -/
theorem storeBytes_ok {bs : List StoreByte} {a : Word} {s s' : State} (h : storeBytes bs a s = .ok s') : OnlyStores s s' := by
  induction bs generalizing a s with
  | nil =>
    simp only [storeBytes, Except.ok.injEq] at h
    exact h ▸ .refl s
  | cons b bs ih =>
    simp only [storeBytes] at h
    split at h
    · exact (OnlyStores.putPhys s _ _).trans (ih h)
    · split at h
      · exact ih h
      · cases h

/-- `storeBytes` leaves the counter of free values alone. -/
theorem storeBytes_freeCount {bs : List StoreByte} {a : Word} {s s' : State} (h : storeBytes bs a s = .ok s') :
    s'.freeCount = s.freeCount := by
  induction bs generalizing a s with
  | nil =>
    simp only [storeBytes, Except.ok.injEq] at h
    exact h ▸ rfl
  | cons b bs ih =>
    simp only [storeBytes] at h
    split at h
    · exact (ih h).trans (putPhys_freeCount _ _ _)
    · split at h
      · exact ih h
      · cases h

/-- `write16` only stores. -/
theorem write16_ok {s s' : State} {a : Word} {v : Half} (h : write16 s a v = .ok s') : OnlyStores s s' := storeBytes_ok h

/-- `write32` only stores. -/
theorem write32_ok {s s' : State} {a v : Word} (h : write32 s a v = .ok s') : OnlyStores s s' := storeBytes_ok h

/-- `setBusy` reads the high row and stores it back with its busy bit replaced. -/
theorem setBusy_ok {a : Word} {b : Bool} {s s' : State} (h : setBusy a b s = .ok s') :
    OnlyStores s s' ∧ ∃ high, read32 s (a + 4) = .ok high ∧ write32 s (a + 4) (withBusy b high) = .ok s' := by
  obtain ⟨high, hr, hw⟩ := bind_eq_ok.mp h
  exact ⟨write32_ok hw, high, hr, hw⟩

/-- `saveTask` stores the image and counts six free values. -/
theorem saveTask_ok {k : SwitchKind} {ret : Word} {s s' : State} (h : saveTask k ret s = .ok s') :
    OnlyStores s s' ∧ ∃ s1, storeBytes (saveImage k ret s) (s.tr.base + 32) s = .ok s1
      ∧ s' = { s1 with freeCount := s1.freeCount + 6 } := by
  obtain ⟨s1, h1, h2⟩ := bind_eq_ok.mp h
  simp only [Except.ok.injEq] at h2
  subst h2
  have := storeBytes_ok h1
  refine ⟨⟨?_, this.wf, this.some⟩, s1, h1, rfl⟩
  rw [this.eq]

/-- `leaveTask` only stores. -/
theorem leaveTask_ok {k : SwitchKind} {ret : Word} {s s' : State} (h : leaveTask k ret s = .ok s') : OnlyStores s s' := by
  obtain ⟨s1, h1, h2⟩ := bind_eq_ok.mp h
  have hs := (saveTask_ok h1).1
  split at h2
  · simp only [Except.ok.injEq] at h2
    exact h2 ▸ hs
  · exact hs.trans (setBusy_ok h2).1

/-! ## Entering a task -/

/-- `s'` is `s` with TR and MSW.TS written and bytes stored. -/
structure OnlyEnters (tr : TaskReg) (s s' : State) : Prop where
  eq : s' = { s with tr := tr, ts := true, mem := s'.mem, freeCount := s'.freeCount }
  wf : Memory.wf s.mem = true → Memory.wf s'.mem = true
  some : ∀ p, (memGet s.mem p).isSome → (memGet s'.mem p).isSome

/-- `markBusy` only stores. -/
theorem markBusy_ok {k : SwitchKind} {a : Word} {s s' : State} (h : markBusy k a s = .ok s') : OnlyStores s s' := by
  simp only [markBusy] at h
  split at h
  · simp only [Except.ok.injEq] at h
    exact h ▸ .refl _
  · exact (setBusy_ok h).1

/-- `linkTask` only stores. -/
theorem linkTask_ok {k : SwitchKind} {osel : Half} {nb : Word} {s s' : State} (h : linkTask k osel nb s = .ok s') :
    OnlyStores s s' := by
  simp only [linkTask] at h
  split at h
  · exact write16_ok h
  · simp only [Except.ok.injEq] at h
    exact h ▸ .refl _

/-- `enterTask` writes TR, sets MSW.TS and stores. -/
theorem enterTask_ok {k : SwitchKind} {osel tsel : Half} {a : Word} {d : Desc} {s s' : State}
    (h : enterTask k osel tsel a d s = .ok s') :
    OnlyEnters { sel := tsel, base := descBase d, limit := effLimit d } s s' := by
  obtain ⟨s1, h1, h2⟩ := bind_eq_ok.mp h
  have hs := markBusy_ok h1
  have hs' := linkTask_ok h2
  refine ⟨?_, fun w => hs'.wf (hs.wf w), fun p hp => hs'.some p (hs.some p hp)⟩
  rw [hs'.eq, hs.eq]

/-- `commitSwitch`: the state after the last store, and the incoming TSS as that state holds it. -/
theorem commitSwitch_ok {k : SwitchKind} {tsel : Half} {ret a : Word} {d : Desc} {s s' : State} {img : TssImage}
    (h : commitSwitch k tsel ret a d s = .ok (s', img)) :
    OnlyEnters { sel := tsel, base := descBase d, limit := effLimit d } s s' ∧ readImage (descBase d) s' = .ok img := by
  obtain ⟨s1, h1, h'⟩ := bind_eq_ok.mp h
  obtain ⟨s2, h2, h''⟩ := bind_eq_ok.mp h'
  obtain ⟨img', h3, h4⟩ := bind_eq_ok.mp h''
  simp only [Except.ok.injEq, Prod.mk.injEq] at h4
  obtain ⟨rfl, rfl⟩ := h4
  have hl := leaveTask_ok h1
  have he := enterTask_ok h2
  refine ⟨⟨?_, fun w => he.wf (hl.wf w), fun p hp => he.some p (hl.some p hp)⟩, h3⟩
  rw [he.eq, hl.eq]

/-- `committed` answers ok only as its argument does. -/
theorem committed_eq_ok {α : Type} {x : Except Stop α} {a : α} : committed x = .ok a ↔ x = .ok a := by
  cases x with
  | ok b => simp [committed]
  | error e => cases e <;> simp [committed]

/-! ## The end of a task switch -/

/-- With paging off, reading a byte raises nothing (00_scope.md R11). -/
theorem readByte_no_raise {s : State} (hp : s.pg = false) (a : Word) (e : Exn) : readByte s a ≠ .error (.raise e) := by
  simp only [readByte, translate, hp, Bool.false_eq_true, if_false, ok_bind]
  split <;> simp

/-- A sequence raises only where one of its parts does. -/
theorem bind_no_raise {α β : Type} {x : Except Stop α} {f : α → Except Stop β} {e : Exn} (hx : x ≠ .error (.raise e))
    (hf : ∀ a, f a ≠ .error (.raise e)) : (x >>= f) ≠ .error (.raise e) := by
  cases x with
  | ok a => exact hf a
  | error st => simpa using hx

/-- With paging off, reading a descriptor raises nothing. -/
theorem readDesc_no_raise {s : State} (hp : s.pg = false) (sel : Half) (e : Exn) : readDesc s sel ≠ .error (.raise e) := by
  have h32 : ∀ a, read32 s a ≠ .error (.raise e) := fun a =>
    bind_no_raise (readByte_no_raise hp _ e) fun _ => bind_no_raise (readByte_no_raise hp _ e) fun _ =>
      bind_no_raise (readByte_no_raise hp _ e) fun _ => bind_no_raise (readByte_no_raise hp _ e) fun _ => by simp
  simp only [readDesc]
  split
  · simp
  · exact bind_no_raise (bind_no_raise (h32 _) fun _ => bind_no_raise (h32 _) fun _ => by simp) fun _ => by simp

/-- With paging off, no descriptor that a switch looks at lies on a not-present page. -/
theorem peekDesc_present {s : State} (hp : s.pg = false) (sel : Half) : peekDesc s sel ≠ .error .notPresentPage := by
  simp only [peekDesc]
  split
  · simp
  · split
    · simp
    · next e h => exact absurd h (readDesc_no_raise hp sel e)
    · simp
    · simp

/-- What the load of a segment register can do. -/
theorem loadSeg_cases (k : SegName) (s : State) :
    (∃ h, loadSeg k s = .ok h ∧ Config.loadSeg k (segGet s.segs k).sel s.cpl s = .ok h)
      ∨ (∃ e, loadSeg k s = .error (.raise e) ∧ e ≠ .db)
      ∨ (s.pg = true ∧ loadSeg k s = .error .notPresentPage) := by
  simp only [loadSeg]
  split
  · next st h =>
    cases st with
    | raise e =>
      simp only [peekDesc] at h
      split at h
      · cases h
      · split at h <;> cases h
    | notPresentPage =>
      cases hp : s.pg with
      | false => exact absurd h (peekDesc_present hp _)
      | true => exact .inr (.inr ⟨rfl, rfl⟩)
  · split
    · exact .inr (.inl ⟨_, rfl, by simp⟩)
    · split
      · next h => exact .inr (.inr ⟨(Bool.and_eq_true_iff.mp h).1, rfl⟩)
      · split
        · next x h => exact .inl ⟨x, rfl, h⟩
        · next f _ =>
          refine .inr (.inl ⟨_, rfl, ?_⟩)
          cases f with
          | mk c e => cases c <;> simp [segFaultExn]

/-- What the load of the LDT register can do. -/
theorem loadLdt_cases (s : State) :
    (∃ l, loadLdt s = .ok l ∧ Config.loadLdt s.ldtr.sel s = .ok l)
      ∨ (∃ f, loadLdt s = .error (.raise (segFaultExn f)) ∧ Config.loadLdt s.ldtr.sel s = .error f)
      ∨ (s.pg = true ∧ loadLdt s = .error .notPresentPage) := by
  simp only [loadLdt]
  split
  · next h => exact .inr (.inr ⟨(Bool.and_eq_true_iff.mp h).1, rfl⟩)
  · split
    · next x h => exact .inl ⟨x, rfl, h⟩
    · next f h => exact .inr (.inl ⟨f, rfl, h⟩)

/-- With paging off, filling one more register meets no not-present page. -/
theorem fillSeg_present {s : State} {f : Filled} (hp : s.pg = false) (k : SegName) (h : f.stop ≠ some .notPresentPage) :
    (fillSeg s f k).stop ≠ some .notPresentPage := by
  simp only [fillSeg]
  split
  · exact h
  · rcases loadSeg_cases k { s with segs := f.segs, ldtr := { s.ldtr with hidden := f.ldt } } with
      ⟨x, hx, -⟩ | ⟨e, he, -⟩ | ⟨hq, -⟩
    · simp only [hx]; exact h
    · simp [he]
    · exact absurd (hp.symm.trans hq) (by decide)

/-- With paging off, the filling of the hidden parts meets no not-present page. -/
theorem fillHidden_present {s : State} (hp : s.pg = false) : (fillHidden s).stop ≠ some .notPresentPage := by
  simp only [fillHidden]
  rcases loadLdt_cases s with ⟨l, h, -⟩ | ⟨f, h, -⟩ | ⟨hq, -⟩
  · simp only [h, List.foldl]
    exact fillSeg_present hp _ (fillSeg_present hp _ (fillSeg_present hp _ (fillSeg_present hp _ (fillSeg_present hp _
      (fillSeg_present hp _ (by simp))))))
  · simp [h]
  · exact absurd (hp.symm.trans hq) (by decide)

/-- Everything the end of a switch can do. -/
theorem finishSwitch_eq (t : Bool) (s : State) :
    finishSwitch t s = if (fillHidden s).stop = some .notPresentPage then .error (.fault .pageFaultInsideTaskSwitch)
      else .ok (makeUsable t s) := by
  simp only [finishSwitch]
  cases hp : s.pg with
  | false => simp [fillHidden_present hp]
  | true => simp

/-- A switch that ends has filled the hidden parts. -/
theorem finishSwitch_ok {t : Bool} {s s' : State} (h : finishSwitch t s = .ok s') :
    s' = makeUsable t s ∧ (fillHidden s).stop ≠ some .notPresentPage := by
  rw [finishSwitch_eq] at h
  split at h
  · cases h
  · next hn => exact ⟨(Except.ok.inj h).symm, hn⟩

/-- A switch that ends is one that runs. -/
theorem switchRuns_of_ok {k : SwitchKind} {ext : Bool} {tsel : Half} {ret : Word} {s t : State}
    (h : taskSwitch k ext tsel ret s = .ok t) :
    ∃ a d s' img, SwitchRuns k ext tsel ret a d s s' img ∧ t = makeUsable img.t (install k img s') := by
  obtain ⟨⟨a, d⟩, h1, h2⟩ := bind_eq_ok.mp h
  obtain ⟨⟨s', img⟩, h2, h3⟩ := bind_eq_ok.mp h2
  rw [committed_eq_ok] at h2
  exact ⟨a, d, s', img, ⟨h1, h2, (finishSwitch_ok h3).2⟩, (finishSwitch_ok h3).1⟩

/-- Everything a task switch can do. -/
theorem taskSwitch_ok {k : SwitchKind} {ext : Bool} {tsel : Half} {ret : Word} {s t : State}
    (h : taskSwitch k ext tsel ret s = .ok t) :
    ∃ a d s' img, findTss k ext tsel s = .ok (a, d)
      ∧ commitSwitch k tsel ret a d s = .ok (s', img)
      ∧ OnlyEnters { sel := tsel, base := descBase d, limit := effLimit d } s s'
      ∧ readImage (descBase d) s' = .ok img
      ∧ t = makeUsable img.t (install k img s') := by
  obtain ⟨a, d, s', img, hr, e⟩ := switchRuns_of_ok h
  exact ⟨a, d, s', img, hr.finds, hr.commits, (commitSwitch_ok hr.commits).1, (commitSwitch_ok hr.commits).2, e⟩

/-- A task switch keeps the canonical form of memory. -/
theorem taskSwitch_wf {k : SwitchKind} {ext : Bool} {tsel : Half} {ret : Word} {s t : State}
    (h : taskSwitch k ext tsel ret s = .ok t) (w : Memory.wf s.mem = true) : Memory.wf t.mem = true := by
  obtain ⟨a, d, s', img, -, -, he, -, rfl⟩ := taskSwitch_ok h
  exact he.wf w

/-- A switch that runs ends in what `install` and `makeUsable` make of the incoming TSS. -/
theorem taskSwitch_of_runs {k : SwitchKind} {ext : Bool} {tsel : Half} {ret a : Word} {d : Desc} {s s' : State} {img : TssImage}
    (h : SwitchRuns k ext tsel ret a d s s' img) : taskSwitch k ext tsel ret s = .ok (makeUsable img.t (install k img s')) := by
  simp [taskSwitch, h.finds, h.commits, committed, finishSwitch_eq, h.fills]

/-! ## Filling the hidden parts -/

/-- The state in which the hidden parts of a switch are filled is the one `install` leaves. -/
theorem beforeFilling_makeUsable {k : SwitchKind} {t : Bool} {img : TssImage} {tr : TaskReg} {s s' : State} (h : OnlyEnters tr s s') :
    beforeFilling s (makeUsable t (install k img s')) = install k img s' := by
  rw [h.eq]
  rfl

/-- Once something has ended the filling, nothing more is filled. -/
theorem fillSeg_ended {s : State} {f : Filled} {k : SegName} (h : f.stop ≠ none) : fillSeg s f k = f := by
  simp only [fillSeg]
  split
  · rfl
  · contradiction

/-- Filling a segment register leaves the LDT register's hidden part alone. -/
@[simp] theorem fillSeg_ldt (s : State) (f : Filled) (k : SegName) : (fillSeg s f k).ldt = f.ldt := by
  simp only [fillSeg]
  split
  · rfl
  · split <;> rfl

/-- Filling a segment register leaves every selector alone. -/
@[simp] theorem fillSeg_sel (s : State) (f : Filled) (k q : SegName) : (segGet (fillSeg s f k).segs q).sel = (segGet f.segs q).sel := by
  simp only [fillSeg]
  split
  · rfl
  · split
    · exact segSetHidden_sel _ _ _ _
    · rfl

/-! ## The standard mechanism -/

/-- What the standard mechanism can do: `applyOther` of some effect. -/
theorem otherTransfer_ok {r : OtherRequest} {s t : State} (h : otherTransfer r s = .ok t) : ∃ e, t = applyOther e s := by
  simp only [otherTransfer] at h
  split at h
  · simp only [Except.ok.injEq] at h
    exact ⟨_, h.symm⟩
  · cases h

/-- The standard mechanism keeps the canonical form of memory. -/
theorem otherTransfer_wf {r : OtherRequest} {s t : State} (h : otherTransfer r s = .ok t) (w : Memory.wf s.mem = true) :
    Memory.wf t.mem = true := by
  obtain ⟨e, rfl⟩ := otherTransfer_ok h
  exact foldl_memPut_wf e.stores w

/-- A task switch leaves a value in every byte that had one. -/
theorem taskSwitch_some {k : SwitchKind} {ext : Bool} {tsel : Half} {ret : Word} {s t : State}
    (h : taskSwitch k ext tsel ret s = .ok t) (p : Nat) (hp : (memGet s.mem p).isSome) : (memGet t.mem p).isSome := by
  obtain ⟨a, d, s', img, -, -, he, -, rfl⟩ := taskSwitch_ok h
  exact he.some p hp

/-- The standard mechanism leaves a value in every byte that had one. -/
theorem otherTransfer_some {r : OtherRequest} {s t : State} (h : otherTransfer r s = .ok t) (p : Nat)
    (hp : (memGet s.mem p).isSome) : (memGet t.mem p).isSome := by
  obtain ⟨e, rfl⟩ := otherTransfer_ok h
  exact foldl_memPut_some e.stores hp

/-- Vectoring ends in a task switch or in the standard mechanism. -/
theorem vectorTo_ok {v : Byte} {o : Origin} {ret : Word} {s t : State} (h : vectorTo v o ret s = .ok t) :
    (∃ g, GateOpen s v o g ∧ taskSwitch .int (originExt o) (gateSel g) ret s = .ok t)
      ∨ otherTransfer (.int v o ret) s = .ok t := by
  obtain ⟨g, h1, h2⟩ := bind_eq_ok.mp h
  cases g with
  | none => cases h2
  | some g =>
    simp only at h2
    split at h2
    · split at h2
      · cases h2
      · split at h2
        · cases h2
        · next hg hd hp =>
          exact .inl ⟨g, ⟨h1, hg, by simpa using hd, by simpa using hp⟩, h2⟩
    · exact .inr h2

/-- A delivery reaches a next state only by its vectoring. -/
theorem delivered_next {ev : Event} {r : Except Stop State} {t : State} : delivered ev r = .next t ↔ r = .ok t := by
  cases r with
  | ok s => simp [delivered]
  | error e => cases e <;> simp [delivered]

/-- An instruction reaches a next state by its own effect, or by taking the exception it raises. -/
theorem complete_next {s t : State} {r : Except Stop State} :
    complete s r = .next t ↔ r = .ok t ∨ ∃ e, r = .error (.raise e) ∧ takeException e s = .next t := by
  cases r with
  | ok s => simp [complete]
  | error e => cases e <;> simp [complete]

/-! ## What one step can do -/

/-- The ways in which a state `t` can follow `s`: an instruction that neither switches tasks nor loads TR; LTR, only where `l`
holds; a task switch; the standard mechanism. -/
inductive Follows (l : Prop) (s t : State) : Prop where
  | plain (eq : t = { s with gpr := t.gpr, eip := t.eip, mem := t.mem, freeCount := t.freeCount })
      (wf : Memory.wf s.mem = true → Memory.wf t.mem = true)
      (some : ∀ p, (memGet s.mem p).isSome → (memGet t.mem p).isSome)
  | ltr (isLtr : l)
      (names : ∃ sel a d, NamesTss s sel a d ∧ t.tr = { sel := sel, base := descBase d, limit := effLimit d }) (eq : t = { s with tr := t.tr, eip := t.eip, mem := t.mem, freeCount := t.freeCount })
      (wf : Memory.wf s.mem = true → Memory.wf t.mem = true)
      (some : ∀ p, (memGet s.mem p).isSome → (memGet t.mem p).isSome)
  | switch (s1 : State) (k : SwitchKind) (ext : Bool) (tsel : Half) (ret : Word)
      (eq : s1 = { s with lastExn := s1.lastExn }) (h : taskSwitch k ext tsel ret s1 = .ok t)
  | other (s1 : State) (r : OtherRequest) (eq : s1 = { s with lastExn := s1.lastExn }) (h : otherTransfer r s1 = .ok t)

theorem vectorTo_follows {l : Prop} {v : Byte} {o : Origin} {ret : Word} {s s1 t : State} (e : s1 = { s with lastExn := s1.lastExn })
    (h : vectorTo v o ret s1 = .ok t) : Follows l s t := by
  rcases vectorTo_ok h with ⟨g, -, hs⟩ | ho
  · exact .switch s1 _ _ _ _ e hs
  · exact .other s1 _ e ho

/-- Taking an exception ends in a task switch or in the standard mechanism. -/
theorem takeException_follows {l : Prop} {e : Exn} {s t : State} (h : takeException e s = .next t) : Follows l s t :=
  vectorTo_follows (s1 := { s with lastExn := some e }) rfl (delivered_next.mp h)

/-- Taking an external interrupt ends in a task switch or in the standard mechanism. -/
theorem takeExternal_follows {l : Prop} {v : Byte} {s t : State} (h : takeExternal v s = .next t) : Follows l s t :=
  vectorTo_follows (s1 := s) rfl (delivered_next.mp h)

/-- An instruction whose own effect follows. -/
theorem complete_follows {l : Prop} {s t : State} {r : Except Stop State} (h : complete s r = .next t)
    (hr : r = .ok t → Follows l s t) : Follows l s t := by
  rcases complete_next.mp h with h | ⟨e, -, h⟩
  · exact hr h
  · exact takeException_follows h

theorem storeTaskRegister_follows {l : Prop} {dst : RM16} {next : Word} {s t : State} (h : storeTaskRegister dst next s = .ok t) :
    Follows l s t := by
  obtain ⟨s1, h1, h2⟩ := bind_eq_ok.mp h
  simp only [Except.ok.injEq] at h2
  subst h2
  cases dst with
  | reg r =>
    simp only [writeRM16, Except.ok.injEq] at h1
    subst h1
    exact .plain rfl id fun _ => id
  | mem a =>
    obtain ⟨lin, -, hw⟩ := bind_eq_ok.mp h1
    have := write16_ok hw
    refine .plain ?_ this.wf this.some
    simp only
    rw [this.eq]

/-- A descriptor that passes LTR's checks is a TSS descriptor. -/
theorem checkLtr_isTss {sel : Half} {d : Desc} {u : Unit} (h : checkLtr sel d = .ok u) : isTss d = true := by
  simp only [checkLtr] at h
  split at h
  · cases h
  split at h
  · cases h
  · next ht => simpa using ht

theorem ltrOperand_follows {l : Prop} (hl : l) {src : RM16} {next : Word} {s t : State} (h : ltrOperand src next s = .ok t) :
    Follows l s t := by
  simp only [ltrOperand] at h
  split at h
  · cases h
  obtain ⟨sel, -, h⟩ := bind_eq_ok.mp h
  simp only [loadTaskRegister] at h
  split at h
  · cases h
  next hn =>
  split at h
  · cases h
  next hti =>
  obtain ⟨r, hr, h⟩ := bind_eq_ok.mp h
  cases r with
  | none => cases h
  | some ad =>
    obtain ⟨u, hc, h⟩ := bind_eq_ok.mp h
    obtain ⟨s1, h1, h⟩ := bind_eq_ok.mp h
    simp only [Except.ok.injEq] at h
    subst h
    have := (setBusy_ok h1).1
    refine .ltr hl ⟨sel, ad.1, ad.2, ⟨by simpa using hti, by simpa using hn, hr, checkLtr_isTss hc⟩, rfl⟩ ?_ this.wf this.some
    simp only
    rw [this.eq]

theorem farThrough_follows {l : Prop} {k : FarKind} {sel : Half} {off next : Word} {dn : Desc} {s t : State}
    (h : farThrough k sel off next dn s = .ok t) : Follows l s t := by
  simp only [farThrough] at h
  repeat' split at h
  all_goals first
    | cases h
    | exact .switch s _ _ _ _ rfl h
    | exact .other s _ rfl h

theorem farTransfer_follows {l : Prop} {k : FarKind} {sel : Half} {off next : Word} {s t : State}
    (h : farTransfer k sel off next s = .ok t) : Follows l s t := by
  simp only [farTransfer] at h
  split at h
  · cases h
  obtain ⟨r, -, h⟩ := bind_eq_ok.mp h
  cases r with
  | none => cases h
  | some ad => exact farThrough_follows h

theorem farThroughMem_follows {l : Prop} {k : FarKind} {a : Addr} {next : Word} {s t : State}
    (h : farThroughMem k a next s = .ok t) : Follows l s t := by
  obtain ⟨⟨sel, off⟩, -, h⟩ := bind_eq_ok.mp h
  exact farTransfer_follows h

theorem interruptReturn_follows {l : Prop} {next : Word} {s t : State} (h : interruptReturn next s = .ok t) : Follows l s t := by
  simp only [interruptReturn] at h
  split at h
  · obtain ⟨bl, -, h⟩ := bind_eq_ok.mp h
    exact .switch s _ _ _ _ rfl h
  · exact .other s _ rfl h

theorem interruptInstr_follows {l : Prop} {f : IntForm} {next : Word} {s t : State} (h : interruptInstr f next s = .ok t) :
    Follows l s t := by
  cases f with
  | imm v => exact vectorTo_follows rfl h
  | int3 => exact vectorTo_follows rfl h
  | into =>
    simp only [interruptInstr] at h
    split at h
    · exact vectorTo_follows rfl h
    · simp only [Except.ok.injEq] at h
      subst h
      exact .plain rfl id fun _ => id

/-- Everything an instruction can do; only LTR is a `Follows.ltr`. -/
theorem exec_follows {i : Instr} {s t : State} (h : exec i s = .next t) : Follows (∃ src, i = .ltr src) s t := by
  cases i with
  | str d => exact complete_follows h storeTaskRegister_follows
  | ltr d => exact complete_follows h (ltrOperand_follows ⟨d, rfl⟩)
  | jmpPtr off sel => exact complete_follows h farTransfer_follows
  | jmpMem a => exact complete_follows h farThroughMem_follows
  | callPtr off sel => exact complete_follows h farTransfer_follows
  | callMem a => exact complete_follows h farThroughMem_follows
  | iret => exact complete_follows h interruptReturn_follows
  | intN f => exact complete_follows h interruptInstr_follows

/-- What follows for one reason follows for a weaker one. -/
theorem Follows.mono {l l' : Prop} (hl : l → l') {s t : State} (h : Follows l s t) : Follows l' s t := by
  cases h with
  | plain eq wf some => exact .plain eq wf some
  | ltr h names eq wf some => exact .ltr (hl h) names eq wf some
  | switch s1 k ext tsel ret eq h => exact .switch s1 k ext tsel ret eq h
  | other s1 r eq h => exact .other s1 r eq h

/-- Everything the step that runs an instruction can do. -/
theorem runInstr_follows {s t : State} (h : runInstr s = .next t) :
    Follows (∃ src n, fetch s = .ok (.instr (.ltr src) n)) s t := by
  simp only [runInstr] at h
  split at h
  · next i n hf => exact (exec_follows h).mono fun ⟨src, e⟩ => ⟨src, n, e ▸ hf⟩
  · exact takeException_follows h
  · cases h
  · cases h
  · cases h
  · refine complete_follows h fun hr => ?_
    cases hr

/-- Everything one step can do, from the state its boundary leaves. -/
theorem step_follows {s t : State} (h : step s = .next t) :
    Follows (∃ src n, fetch (boundaryState s) = .ok (.instr (.ltr src) n)) (boundaryState s) t := by
  simp only [step] at h
  split at h
  · exact takeException_follows h
  · exact takeExternal_follows h
  · exact runInstr_follows h

end Sys2Proof.Machine
end

