-- ==== Sys2Proof/Laws/Flat.lean ====
section
/-! SUPPORT. Memory access with paging off, byte by byte: what a store leaves at every address, and when a read answers. -/

namespace Sys2Proof.Machine

/-! ## Addresses -/

theorem one_toNat : (1 : Word).toNat = 1 := rfl

theorem toNat_inj {a b : Word} : a.toNat = b.toNat ↔ a = b := BitVec.toNat_inj

/-- Two bytes of ranges that are apart are different bytes. -/
theorem apart_ne {a b : Word} {n m i j : Nat} (h : apart a n b m = true) (hi : i < n) (hj : j < m) :
    a + BitVec.ofNat 32 i ≠ b + BitVec.ofNat 32 j := by
  simp only [apart, Bool.and_eq_true, decide_eq_true_eq] at h
  obtain ⟨h1, h2⟩ := h
  have ha := a.isLt
  have hb := b.isLt
  intro he
  have := congrArg BitVec.toNat he
  simp only [BitVec.toNat_add, BitVec.toNat_ofNat, BitVec.toNat_sub] at this h1 h2
  omega

/-- A byte of one range lies outside a range that is apart from it. -/
theorem apart_outside {a b p : Word} {n m : Nat} (h : apart a n b m = true) (hp : inRange p a n = true) :
    inRange p b m = false := by
  simp only [apart, Bool.and_eq_true, decide_eq_true_eq] at h
  simp only [inRange, decide_eq_true_eq, decide_eq_false_iff_not] at hp ⊢
  obtain ⟨h1, h2⟩ := h
  have ha := a.isLt
  have hb := b.isLt
  have hp' := p.isLt
  simp only [BitVec.toNat_sub] at *
  omega

theorem apart_comm {a b : Word} {n m : Nat} : apart a n b m = apart b m a n := Bool.and_comm _ _

/-- The range of which an address is the `i`-th byte holds it. -/
theorem inRange_offset {a : Word} {n i : Nat} (h : i < n) (hn : i < 2 ^ 32) : inRange (a + BitVec.ofNat 32 i) a n = true := by
  simp only [inRange, decide_eq_true_eq]
  have ha := a.isLt
  simp only [BitVec.toNat_sub, BitVec.toNat_add, BitVec.toNat_ofNat]
  omega

/-! ## Reading -/

@[simp] theorem translate_flat {s : State} (h : s.pg = false) (lin : Word) (acc : Access) : translate s lin acc = .ok lin := by
  simp [translate, h]

/-- With paging off a byte is read exactly where memory holds it. -/
theorem readByte_flat {s : State} (h : s.pg = false) {lin : Word} {b : Byte} :
    readByte s lin = .ok b ↔ memGet s.mem lin.toNat = some b := by
  simp only [readByte, translate_flat h, ok_bind]
  split
  · next he => simp [he]
  · next he => simp [he]

theorem read16_flat {s : State} (h : s.pg = false) {lin : Word} {v : Half} :
    read16 s lin = .ok v ↔ ∃ b0 b1, memGet s.mem lin.toNat = some b0 ∧ memGet s.mem (lin + 1).toNat = some b1
      ∧ halfOfBytes b0 b1 = v := by
  simp only [read16, bind_eq_ok, readByte_flat h, Except.ok.injEq]
  constructor
  · rintro ⟨b0, h0, b1, h1, rfl⟩
    exact ⟨b0, b1, h0, h1, rfl⟩
  · rintro ⟨b0, b1, h0, h1, rfl⟩
    exact ⟨b0, h0, b1, h1, rfl⟩

theorem read32_flat {s : State} (h : s.pg = false) {lin v : Word} :
    read32 s lin = .ok v ↔ ∃ b0 b1 b2 b3, memGet s.mem lin.toNat = some b0 ∧ memGet s.mem (lin + 1).toNat = some b1
      ∧ memGet s.mem (lin + 2).toNat = some b2 ∧ memGet s.mem (lin + 3).toNat = some b3
      ∧ wordOfBytes b0 b1 b2 b3 = v := by
  simp only [read32, bind_eq_ok, readByte_flat h, Except.ok.injEq]
  constructor
  · rintro ⟨b0, h0, b1, h1, b2, h2, b3, h3, rfl⟩
    exact ⟨b0, b1, b2, b3, h0, h1, h2, h3, rfl⟩
  · rintro ⟨b0, b1, b2, b3, h0, h1, h2, h3, rfl⟩
    exact ⟨b0, h0, b1, h1, b2, h2, b3, h3, rfl⟩

/-- What is read depends on memory, PG and PDBR alone. -/
theorem readByte_congr {s t : State} (hm : t.mem = s.mem) (hp : t.pg = s.pg) (hd : t.pdbr = s.pdbr) (lin : Word) :
    readByte t lin = readByte s lin := by
  simp only [readByte, translate, hm, hp, hd]

theorem read16_congr {s t : State} (hm : t.mem = s.mem) (hp : t.pg = s.pg) (hd : t.pdbr = s.pdbr) (lin : Word) :
    read16 t lin = read16 s lin := by
  simp only [read16, readByte_congr hm hp hd]

theorem read32_congr {s t : State} (hm : t.mem = s.mem) (hp : t.pg = s.pg) (hd : t.pdbr = s.pdbr) (lin : Word) :
    read32 t lin = read32 s lin := by
  simp only [read32, readByte_congr hm hp hd]

/-- The listed bytes of a range have values. -/
theorem listed_get {s : State} {a : Word} {n j : Nat} (h : listed s a n = true) (hj : j < n) :
    ∃ b, memGet s.mem (a + BitVec.ofNat 32 j).toNat = some b := by
  simp only [listed, List.all_eq_true, List.mem_range] at h
  exact Option.isSome_iff_exists.mp (h j hj)

theorem listed_read16 {s : State} (hp : s.pg = false) {a : Word} {n j : Nat} (h : listed s a n = true) (hj : j + 1 < n) :
    ∃ v, read16 s (a + BitVec.ofNat 32 j) = .ok v := by
  obtain ⟨b0, h0⟩ := listed_get h (show j < n by omega)
  obtain ⟨b1, h1⟩ := listed_get h hj
  refine ⟨_, (read16_flat hp).mpr ⟨b0, b1, h0, ?_, rfl⟩⟩
  rw [← h1]
  congr 2
  bv_omega

theorem listed_read32 {s : State} (hp : s.pg = false) {a : Word} {n j : Nat} (h : listed s a n = true) (hj : j + 3 < n) :
    ∃ v, read32 s (a + BitVec.ofNat 32 j) = .ok v := by
  obtain ⟨b0, h0⟩ := listed_get h (show j < n by omega)
  obtain ⟨b1, h1⟩ := listed_get h (show j + 1 < n by omega)
  obtain ⟨b2, h2⟩ := listed_get h (show j + 2 < n by omega)
  obtain ⟨b3, h3⟩ := listed_get h hj
  refine ⟨_, (read32_flat hp).mpr ⟨b0, b1, b2, b3, h0, ?_, ?_, ?_, rfl⟩⟩
  · rw [← h1]
    congr 2
    bv_omega
  · rw [← h2]
    congr 2
    bv_omega
  · rw [← h3]
    congr 2
    bv_omega

/-! ## Storing -/

/-- With paging off a store places its bytes, all of them. -/
theorem storeBytes_flat {bs : List StoreByte} {a : Word} {s : State} (h : s.pg = false) :
    storeBytes bs a s = .ok { s with mem := placeBytes (bs.map (·.val)) a s.mem } := by
  induction bs generalizing a s with
  | nil => rfl
  | cons b bs ih =>
    simp only [storeBytes, translate_flat h]
    rw [ih (by simpa using h)]
    rfl

/-- A byte outside the bytes placed is as before. -/
theorem memGet_placeBytes_outside {bs : List Byte} {a p : Word} {m : List Host.Cell} (h : inRange p a bs.length = false) :
    memGet (placeBytes bs a m) p.toNat = memGet m p.toNat := by
  induction bs generalizing a m with
  | nil => rfl
  | cons b bs ih =>
    simp only [inRange, List.length_cons, decide_eq_false_iff_not] at h
    have ha := a.isLt
    have hp := p.isLt
    have hne : p ≠ a := by
      rintro rfl
      simp at h
    have h' : inRange p (a + 1) bs.length = false := by
      simp only [inRange, decide_eq_false_iff_not]
      have hn : p.toNat ≠ a.toNat := fun e => hne (toNat_inj.mp e)
      simp only [BitVec.toNat_sub, BitVec.toNat_add, one_toNat] at *
      omega
    simp only [placeBytes]
    rw [ih h', memGet_memPut_other _ _ (fun e => hne (toNat_inj.mp e))]

/-- The `i`-th byte placed is where it was placed. -/
theorem memGet_placeBytes_inside {bs : List Byte} {a : Word} {m : List Host.Cell} (hl : bs.length ≤ 2 ^ 32) {i : Nat}
    (hi : i < bs.length) : memGet (placeBytes bs a m) (a + BitVec.ofNat 32 i).toNat = some bs[i] := by
  induction bs generalizing a m i with
  | nil => simp at hi
  | cons b bs ih =>
    simp only [List.length_cons] at hl hi
    simp only [placeBytes]
    cases i with
    | zero =>
      have h0 : inRange a (a + 1) bs.length = false := by
        simp only [inRange, decide_eq_false_iff_not]
        have ha := a.isLt
        simp only [BitVec.toNat_sub, BitVec.toNat_add, one_toNat]
        omega
      have hz : a + BitVec.ofNat 32 0 = a := by simp
      rw [hz, memGet_placeBytes_outside h0]
      simp
    | succ i =>
      have he : a + BitVec.ofNat 32 (i + 1) = a + 1 + BitVec.ofNat 32 i := by bv_omega
      rw [he, ih (by omega) (by omega)]
      rfl

theorem getLsbD_halfOfBytes (b0 b1 : Byte) (i : Nat) :
    (halfOfBytes b0 b1).getLsbD i = if i < 8 then b0.getLsbD i else b1.getLsbD (i - 8) := BitVec.getLsbD_append

theorem getLsbD_wordOfBytes (b0 b1 b2 b3 : Byte) (i : Nat) :
    (wordOfBytes b0 b1 b2 b3).getLsbD i
      = if i < 8 then b0.getLsbD i else if i - 8 < 8 then b1.getLsbD (i - 8)
        else if i - 8 - 8 < 8 then b2.getLsbD (i - 8 - 8) else b3.getLsbD (i - 8 - 8 - 8) := by
  have h : (wordOfBytes b0 b1 b2 b3).getLsbD i = (b3 ++ b2 ++ b1 ++ b0).getLsbD i := rfl
  rw [h, BitVec.getLsbD_append, BitVec.getLsbD_append, BitVec.getLsbD_append]

theorem halfOfBytes_halfBytes (v : Half) : halfOfBytes (v.extractLsb' 0 8) (v.extractLsb' 8 8) = v := by
  apply BitVec.eq_of_getLsbD_eq
  intro i hi
  rw [getLsbD_halfOfBytes]
  interval_cases i <;> simp

theorem wordOfBytes_wordBytes (v : Word) :
    wordOfBytes (v.extractLsb' 0 8) (v.extractLsb' 8 8) (v.extractLsb' 16 8) (v.extractLsb' 24 8) = v := by
  apply BitVec.eq_of_getLsbD_eq
  intro i hi
  rw [getLsbD_wordOfBytes]
  interval_cases i <;> simp

/-- A word among the bytes placed reads back. -/
theorem read32_placeBytes {s : State} (hp : s.pg = false) {bs : List Byte} {a v : Word} {i : Nat} (hl : bs.length ≤ 2 ^ 32)
    (h : (bs.drop i).take 4 = wordBytes v) :
    read32 { s with mem := placeBytes bs a s.mem } (a + BitVec.ofNat 32 i) = .ok v := by
  have hlen : i + 4 ≤ bs.length := by
    have := congrArg List.length h
    simp [wordBytes] at this
    omega
  have hg : ∀ j (hj : j < 4), bs[i + j] = (wordBytes v)[j]'(by simpa [wordBytes] using hj) := by
    intro j hj
    simp only [← h, List.getElem_take, List.getElem_drop]
  have hm : ∀ j (hj : j < 4), memGet (placeBytes bs a s.mem) (a + BitVec.ofNat 32 i + BitVec.ofNat 32 j).toNat
      = some ((wordBytes v)[j]'(by simpa [wordBytes] using hj)) := by
    intro j hj
    have he : a + BitVec.ofNat 32 i + BitVec.ofNat 32 j = a + BitVec.ofNat 32 (i + j) := by bv_omega
    rw [he, memGet_placeBytes_inside hl (by omega), hg j hj]
  refine (read32_flat (s := { s with mem := placeBytes bs a s.mem }) hp).mpr
    ⟨_, _, _, _, ?_, hm 1 (by omega), hm 2 (by omega), hm 3 (by omega), wordOfBytes_wordBytes v⟩
  simpa [halfBytes, wordBytes] using hm 0 (by omega)

/-- A selector among the bytes placed reads back. -/
theorem read16_placeBytes {s : State} (hp : s.pg = false) {bs : List Byte} {a : Word} {v : Half} {i : Nat}
    (hl : bs.length ≤ 2 ^ 32) (h : (bs.drop i).take 2 = halfBytes v) :
    read16 { s with mem := placeBytes bs a s.mem } (a + BitVec.ofNat 32 i) = .ok v := by
  have hlen : i + 2 ≤ bs.length := by
    have := congrArg List.length h
    simp [halfBytes] at this
    omega
  have hg : ∀ j (hj : j < 2), bs[i + j] = (halfBytes v)[j]'(by simpa [halfBytes] using hj) := by
    intro j hj
    simp only [← h, List.getElem_take, List.getElem_drop]
  have hm : ∀ j (hj : j < 2), memGet (placeBytes bs a s.mem) (a + BitVec.ofNat 32 i + BitVec.ofNat 32 j).toNat
      = some ((halfBytes v)[j]'(by simpa [halfBytes] using hj)) := by
    intro j hj
    have he : a + BitVec.ofNat 32 i + BitVec.ofNat 32 j = a + BitVec.ofNat 32 (i + j) := by bv_omega
    rw [he, memGet_placeBytes_inside hl (by omega), hg j hj]
  refine (read16_flat (s := { s with mem := placeBytes bs a s.mem }) hp).mpr ⟨_, _, ?_, hm 1 (by omega), halfOfBytes_halfBytes v⟩
  simpa [halfBytes, wordBytes] using hm 0 (by omega)

/-- A word reads the same in two memories that agree on its four bytes. -/
theorem read32_agree {s t : State} (hs : s.pg = false) (ht : t.pg = false) {a : Word}
    (h : ∀ p, inRange p a 4 = true → memGet t.mem p.toNat = memGet s.mem p.toNat) : read32 t a = read32 s a := by
  have hb : ∀ j, j < 4 → readByte t (a + BitVec.ofNat 32 j) = readByte s (a + BitVec.ofNat 32 j) := by
    intro j hj
    have := h (a + BitVec.ofNat 32 j) (inRange_offset hj (by omega))
    simp only [readByte, translate_flat hs, translate_flat ht, ok_bind, this]
  have h0 := hb 0 (by omega)
  have h1 := hb 1 (by omega)
  have h2 := hb 2 (by omega)
  have h3 := hb 3 (by omega)
  simp only [BitVec.add_zero] at h0 h1 h2 h3
  simp only [read32, h0, h1, h2, h3, BitVec.ofNat_eq_ofNat]

/-- A selector reads the same in two memories that agree on its two bytes. -/
theorem read16_agree {s t : State} (hs : s.pg = false) (ht : t.pg = false) {a : Word}
    (h : ∀ p, inRange p a 2 = true → memGet t.mem p.toNat = memGet s.mem p.toNat) : read16 t a = read16 s a := by
  have hb : ∀ j, j < 2 → readByte t (a + BitVec.ofNat 32 j) = readByte s (a + BitVec.ofNat 32 j) := by
    intro j hj
    have := h (a + BitVec.ofNat 32 j) (inRange_offset hj (by omega))
    simp only [readByte, translate_flat hs, translate_flat ht, ok_bind, this]
  have h0 := hb 0 (by omega)
  have h1 := hb 1 (by omega)
  simp only [BitVec.add_zero] at h0 h1
  simp only [read16, h0, h1, BitVec.ofNat_eq_ofNat]

/-! ## Writes of a word, of the busy bit, of a saved task -/

theorem map_val_plainBytes (bs : List Byte) : (plainBytes bs).map (·.val) = bs := by
  simp [plainBytes, Function.comp_def]

theorem write16_flat {s : State} (h : s.pg = false) (a : Word) (v : Half) :
    write16 s a v = .ok { s with mem := placeBytes (halfBytes v) a s.mem } := by
  rw [write16, storeBytes_flat h, map_val_plainBytes]

theorem write32_flat {s : State} (h : s.pg = false) (a v : Word) :
    write32 s a v = .ok { s with mem := placeBytes (wordBytes v) a s.mem } := by
  rw [write32, storeBytes_flat h, map_val_plainBytes]

/-- With paging off the busy bit is replaced wherever the high row has a value. -/
theorem setBusy_flat {s : State} (h : s.pg = false) {a high : Word} (b : Bool) (hr : read32 s (a + 4) = .ok high) :
    setBusy a b s = .ok { s with mem := placeBytes (wordBytes (withBusy b high)) (a + 4) s.mem } := by
  simp only [setBusy, hr, ok_bind, write32_flat h]

/-- Replacing the busy bit changes the second byte of the high row and no other. -/
theorem withBusy_bytes (b : Bool) (high : Word) :
    wordBytes (withBusy b high)
      = [high.extractLsb' 0 8, (withBusy b high).extractLsb' 8 8, high.extractLsb' 16 8, high.extractLsb' 24 8] := by
  have h0 : (withBusy b high).extractLsb' 0 8 = high.extractLsb' 0 8 := by
    cases b <;> (ext i hi; simp [withBusy]; interval_cases i <;> simp)
  have h2 : (withBusy b high).extractLsb' 16 8 = high.extractLsb' 16 8 := by
    cases b <;> (ext i hi; simp [withBusy]; interval_cases i <;> simp)
  have h3 : (withBusy b high).extractLsb' 24 8 = high.extractLsb' 24 8 := by
    cases b <;> (ext i hi; simp [withBusy]; interval_cases i <;> simp)
  simp only [wordBytes, h0, h2, h3]

/-- What a save stores is 64 bytes: offsets 32 to 95 of the TSS. -/
theorem saveImage_length (k : SwitchKind) (ret : Word) (s : State) : (saveImage k ret s).length = 64 := rfl

/-- With paging off a save always ends. -/
theorem saveTask_flat {s : State} (h : s.pg = false) (k : SwitchKind) (ret : Word) :
    saveTask k ret s = .ok { s with
      mem := placeBytes ((saveImage k ret s).map (·.val)) (s.tr.base + 32) s.mem
      freeCount := s.freeCount + 6 } := by
  simp only [saveTask, storeBytes_flat h, ok_bind]

end Sys2Proof.Machine
end

