-- ==== Sys2Proof/Laws/Decode.lean ====
section
/-! SUPPORT. The fields of ModRM and SIB bytes read back, register numbers are one to one, and displacement bytes read back. -/

namespace Sys2Proof

open Machine

@[simp] theorem regOfNum_regNum (r : Reg) : regOfNum (regNum r) = r := by
  cases r <;> rfl

@[simp] theorem regNum_regOfNum (b : BitVec 3) : regNum (regOfNum b) = b := by
  revert b
  decide

theorem regNum_inj {r q : Reg} (h : regNum r = regNum q) : r = q := by
  rw [← regOfNum_regNum r, h, regOfNum_regNum]

theorem getLsbD_modRM (mod : BitVec 2) (reg rm : BitVec 3) (i : Nat) :
    (modRM mod reg rm).getLsbD i
      = if i < 3 then rm.getLsbD i else if i - 3 < 3 then reg.getLsbD (i - 3) else mod.getLsbD (i - 3 - 3) := by
  have h : (modRM mod reg rm).getLsbD i = (mod ++ reg ++ rm).getLsbD i := rfl
  rw [h, BitVec.getLsbD_append, BitVec.getLsbD_append]

@[simp] theorem modRM_mod (mod : BitVec 2) (reg rm : BitVec 3) : (modRM mod reg rm).extractLsb' 6 2 = mod := by
  apply BitVec.eq_of_getLsbD_eq
  intro i hi
  rw [BitVec.getLsbD_extractLsb', getLsbD_modRM]
  interval_cases i <;> simp

@[simp] theorem modRM_reg (mod : BitVec 2) (reg rm : BitVec 3) : (modRM mod reg rm).extractLsb' 3 3 = reg := by
  apply BitVec.eq_of_getLsbD_eq
  intro i hi
  rw [BitVec.getLsbD_extractLsb', getLsbD_modRM]
  interval_cases i <;> simp

@[simp] theorem modRM_rm (mod : BitVec 2) (reg rm : BitVec 3) : (modRM mod reg rm).extractLsb' 0 3 = rm := by
  apply BitVec.eq_of_getLsbD_eq
  intro i hi
  rw [BitVec.getLsbD_extractLsb', getLsbD_modRM]
  interval_cases i <;> simp

/-- A ModRM byte is what its three fields make. -/
theorem modRM_fields (m : Byte) : modRM (m.extractLsb' 6 2) (m.extractLsb' 3 3) (m.extractLsb' 0 3) = m := by
  apply BitVec.eq_of_getLsbD_eq
  intro i hi
  rw [getLsbD_modRM]
  interval_cases i <;> simp

theorem sibByte_eq (s : Sib) : sibByte s = modRM s.scale (regNum s.index) (regNum s.base) := rfl

@[simp] theorem sibOfByte_sibByte (s : Sib) : sibOfByte (sibByte s) = s := by
  simp [sibOfByte, sibByte_eq]

@[simp] theorem sibByte_sibOfByte (b : Byte) : sibByte (sibOfByte b) = b := by
  simp [sibOfByte, sibByte_eq, modRM_fields]

/-- A displacement written lowest byte first reads back, whatever follows. -/
@[simp] theorem takeWord_wordBytes (d : Word) (rest : List Byte) : takeWord (wordBytes d ++ rest) = some d := by
  simp [takeWord, wordBytes, wordOfBytes_wordBytes]

end Sys2Proof
end

