-- ==== Sys2Proof/Laws/Fetch.lean ====
section
/-! SUPPORT. The decoder needs no more bytes than the instruction has, and a fetch reads just those. -/

namespace Sys2Proof

open Machine

theorem takeWord_append {xs : List Byte} {d} (ys) (h : takeWord xs = some d) : takeWord (xs ++ ys) = some d := by
  match xs, h with
  | b0::b1::b2::b3::_, h => simpa [takeWord] using h

theorem decodeAddr_append {mod rm} {xs : List Byte} {r} (ys) (h : decodeAddr mod rm xs = some r) : decodeAddr mod rm (xs ++ ys) = some r := by
  have hw : ∀ {α} (l : List Byte) (f : Word → α) r, (takeWord l).map f = some r → (takeWord (l ++ ys)).map f = some r := by
    intro α l f r h
    obtain ⟨d, hd, he⟩ := Option.map_eq_some_iff.mp h
    rw [takeWord_append ys hd]; exact congrArg some he
  have hh : ∀ {α} (l : List Byte) (f : Byte → α) r, l.head?.map f = some r → (l ++ ys).head?.map f = some r := by
    intro α l f r h
    cases l with
    | nil => cases h
    | cons b l => exact h
  simp only [decodeAddr] at h ⊢
  split at h
  · cases xs with
    | nil => cases h
    | cons b xs =>
      simp only [List.cons_append, decodeSib] at h ⊢
      repeat' split at h
      all_goals try simp only [*, if_true, if_false]
      all_goals first | exact hw _ _ _ h | exact hh _ _ _ h
  · repeat' split at h
    all_goals simp only [*, if_true, if_false]
    all_goals first | exact hw _ _ _ h | exact hh _ _ _ h

theorem decodeMem_append {mk n m} {xs : List Byte} (ys) (h : decodeMem mk n m xs ≠ .more) : decodeMem mk n m (xs ++ ys) = decodeMem mk n m xs := by
  simp only [decodeMem] at h ⊢
  split at h
  · next a k hd => rw [decodeAddr_append ys hd]
  · exact absurd rfl h

/-- What the decoder answers does not change when bytes follow. -/
theorem decode_append {xs : List Byte} (ys) (h : decode xs ≠ .more) : decode (xs ++ ys) = decode xs := by
  cases xs with
  | nil => exact absurd rfl h
  | cons b xs =>
  have ptr : ∀ mk, decodePtr mk xs ≠ .more → decodePtr mk (xs ++ ys) = decodePtr mk xs := by
    intro mk h
    match xs, h with
    | o0 :: o1 :: o2 :: o3 :: s0 :: s1 :: _, h => rfl
    | [], h => exact absurd rfl h
    | [_], h => exact absurd rfl h
    | [_,_], h => exact absurd rfl h
    | [_,_,_], h => exact absurd rfl h
    | [_,_,_,_], h => exact absurd rfl h
    | [_,_,_,_,_], h => exact absurd rfl h
  rw [List.cons_append]
  simp only [decode] at h ⊢
  split
  · next hb => rw [if_pos hb] at h; exact ptr _ h
  next hb =>
  rw [if_neg hb] at h
  split
  · next hb => rw [if_pos hb] at h; exact ptr _ h
  next hb =>
  rw [if_neg hb] at h
  split
  · rfl
  next hb =>
  rw [if_neg hb] at h
  split
  · next hb =>
    rw [if_pos hb] at h
    cases xs with
    | nil => exact absurd rfl h
    | cons v xs => rfl
  next hb =>
  rw [if_neg hb] at h
  split
  · rfl
  next hb =>
  rw [if_neg hb] at h
  split
  · rfl
  next hb =>
  rw [if_neg hb] at h
  split
  · next hb =>
    rw [if_pos hb] at h
    cases xs with
    | nil => exact absurd rfl h
    | cons m xs =>
      simp only [decodeFF, List.cons_append] at h ⊢
      split
      · next h5 =>
        rw [if_pos h5] at h
        split
        · rfl
        · next h3 => rw [if_neg h3] at h; exact decodeMem_append ys h
      · next h5 =>
        rw [if_neg h5] at h
        split
        · next h3 =>
          rw [if_pos h3] at h
          split
          · rfl
          · next h3 => rw [if_neg h3] at h; exact decodeMem_append ys h
        · rfl
  next hb =>
  rw [if_neg hb] at h
  split
  · next hb =>
    rw [if_pos hb] at h
    cases xs with
    | nil => exact absurd rfl h
    | cons b1 xs =>
      simp only [decode0F, List.cons_append] at h ⊢
      split
      · next h0 =>
        rw [if_pos h0] at h
        cases xs with
        | nil => exact absurd rfl h
        | cons m xs =>
          simp only [List.cons_append, decodeRM16] at h ⊢
          split
          · next h1 =>
            rw [if_pos h1] at h
            split
            · rfl
            · next h3 => rw [if_neg h3] at h; exact decodeMem_append ys h
          · next h1 =>
            rw [if_neg h1] at h
            split
            · next h1 =>
              rw [if_pos h1] at h
              split
              · rfl
              · next h3 => rw [if_neg h3] at h; exact decodeMem_append ys h
            · rfl
      · rfl
  rfl

/-- A fetch of readable bytes answers what they decode to. -/
theorem fetchFrom_bytes {s : State} {i : Instr} {n : Nat} (bs : List Byte) (hd : decode bs = .instr i n) :
    ∀ (fuel : Nat) (pre suf : List Byte), bs = pre ++ suf → suf.length ≤ fuel →
      (∀ j, j < bs.length → ∃ b, bs[j]? = some b ∧ fetchByte s j = .ok b) →
      fetchFrom s fuel pre = .ok (.instr i n) := by
  intro fuel
  induction fuel with
  | zero =>
    intro pre suf he hl hr
    have : suf = [] := List.length_eq_zero_iff.mp (by omega)
    subst this
    simp only [List.append_nil] at he
    simp [fetchFrom, ← he, hd]
  | succ fuel ih =>
    intro pre suf he hl hr
    by_cases hm : decode pre = .more
    · simp only [fetchFrom, hm]
      cases suf with
      | nil =>
        simp only [List.append_nil] at he
        rw [he, hm] at hd; cases hd
      | cons b suf =>
        obtain ⟨b', hb, hf⟩ := hr pre.length (by simp [he])
        simp [he] at hb
        subst hb
        simp only [hf, ok_bind]
        exact ih (pre ++ [b]) suf (by simp [he]) (by simp at hl; omega) hr
    · have := decode_append suf hm
      rw [← he, hd] at this
      simp only [fetchFrom, ← this]

end Sys2Proof
end

