-- ==== Sys2Proof/Laws/PerInstr.lean ====
section
/-! SUPPORT. Facts about every instruction as syntax, one lemma per constructor of `Instr`. -/

namespace Sys2Proof.Laws

/-- A memory operand encodes in as many bytes as `addrLength` says, and takes one to six. -/
theorem encodeAddr_length (reg : BitVec 3) (a : Addr) :
    (encodeAddr reg a).length = addrLength a ∧ 1 ≤ addrLength a ∧ addrLength a ≤ 6 := by
  cases a <;> simp [encodeAddr, addrLength, wordBytes]

/-- An r/m16 operand encodes in as many bytes as `rm16Length` says, and takes one to six. -/
theorem encodeRM16_length (reg : BitVec 3) (d : RM16) :
    (encodeRM16 reg d).length = rm16Length d ∧ 1 ≤ rm16Length d ∧ rm16Length d ≤ 6 := by
  cases d with
  | reg r => simp [encodeRM16, rm16Length]
  | mem a => exact encodeAddr_length reg a

/-- The family EncodedLength: an instruction encodes in as many bytes as `instrLength` says, between one and `maxLength`. -/
def EncodedLength.Statement (i : Instr) : Prop :=
  (encode i).length = instrLength i ∧ 1 ≤ instrLength i ∧ instrLength i ≤ maxLength

theorem EncodedLength.str (d : RM16) : EncodedLength.Statement (.str d) := by
  have h := encodeRM16_length 1 d
  simp only [EncodedLength.Statement, encode, instrLength, maxLength, List.length_cons]
  omega

theorem EncodedLength.ltr (d : RM16) : EncodedLength.Statement (.ltr d) := by
  have h := encodeRM16_length 3 d
  simp only [EncodedLength.Statement, encode, instrLength, maxLength, List.length_cons]
  omega

theorem EncodedLength.jmpPtr (off : Word) (sel : Half) : EncodedLength.Statement (.jmpPtr off sel) := by
  simp [EncodedLength.Statement, encode, instrLength, maxLength, wordBytes, halfBytes]

theorem EncodedLength.jmpMem (a : Addr) : EncodedLength.Statement (.jmpMem a) := by
  have h := encodeAddr_length 5 a
  simp only [EncodedLength.Statement, encode, instrLength, maxLength, List.length_cons]
  omega

theorem EncodedLength.callPtr (off : Word) (sel : Half) : EncodedLength.Statement (.callPtr off sel) := by
  simp [EncodedLength.Statement, encode, instrLength, maxLength, wordBytes, halfBytes]

theorem EncodedLength.callMem (a : Addr) : EncodedLength.Statement (.callMem a) := by
  have h := encodeAddr_length 3 a
  simp only [EncodedLength.Statement, encode, instrLength, maxLength, List.length_cons]
  omega

theorem EncodedLength.iret : EncodedLength.Statement .iret := by
  simp [EncodedLength.Statement, encode, instrLength, maxLength]

theorem EncodedLength.intN (f : IntForm) : EncodedLength.Statement (.intN f) := by
  cases f <;> simp [EncodedLength.Statement, encode, instrLength, maxLength]

end Sys2Proof.Laws
end

