-- ==== Sys2Proof/Laws/Switch.lean ====
section
/-! SUPPORT. The task switch with paging off: its checks, what memory is after each of its stores, what is read of the incoming TSS,
and which bytes stay. -/

namespace Sys2Proof.Machine

/-! ## Bits of selectors and descriptors -/

theorem and_bit_two (sel : Half) : sel &&& 4 = if sel.getLsbD 2 then 4 else 0 := by
  apply BitVec.eq_of_getLsbD_eq
  intro i hi
  cases h : sel.getLsbD 2 <;> interval_cases i <;> simp [h]; exact h

/-- Bits 15:2 are all zero, said with a mask and with a shift. -/
theorem mask_null (sel : Half) : sel &&& 0xFFFC = 0 ↔ sel >>> 2 = 0 := by
  constructor
  · intro h
    apply BitVec.eq_of_getLsbD_eq
    intro i hi
    have := congrArg (fun v => v.getLsbD (i + 2)) h
    simp only [BitVec.getLsbD_and] at this
    interval_cases i <;> simp at this ⊢ <;> exact this
  · intro h
    apply BitVec.eq_of_getLsbD_eq
    intro i hi
    have := congrArg (fun v => v.getLsbD (i - 2)) h
    simp only [BitVec.getLsbD_ushiftRight] at this
    interval_cases i <;> simp at this ⊢ <;> exact this

/-- The tests on a selector, said with masks. -/
theorem selNull_true_iff (sel : Half) : selNull sel = true ↔ sel &&& 0xFFFC = 0 := by
  simp only [selNull, decide_eq_true_eq, mask_null]

theorem selNull_false_iff (sel : Half) : selNull sel = false ↔ sel &&& 0xFFFC ≠ 0 := by
  simp only [selNull, decide_eq_false_iff_not, mask_null, ne_eq]

theorem selTI_true_iff (sel : Half) : selTI sel = true ↔ sel &&& 4 = 4 := by
  rw [and_bit_two, selTI]
  cases sel.getLsbD 2 <;> simp

theorem selTI_false_iff (sel : Half) : selTI sel = false ↔ sel &&& 4 = 0 := by
  rw [and_bit_two, selTI]
  cases sel.getLsbD 2 <;> simp

/-- A selector with TI set is not null. -/
theorem not_null_of_ti {sel : Half} (h : sel &&& 4 = 4) : sel &&& 0xFFFC ≠ 0 := by
  intro h0
  have h1 := congrArg (fun v => v.getLsbD 2) h
  have h2 := congrArg (fun v => v.getLsbD 2) h0
  simp only [BitVec.getLsbD_and] at h1 h2
  simp at h1 h2
  simp [h1] at h2

theorem selRPL_toNat (sel : Half) : (selRPL sel).toNat = (sel &&& 3).toNat := by
  have e : sel &&& 3 = (selRPL sel).setWidth 16 := by
    apply BitVec.eq_of_getLsbD_eq
    intro i hi
    interval_cases i <;> simp [selRPL]
  rw [e]
  simp only [BitVec.toNat_setWidth]
  have := (selRPL sel).isLt
  omega

theorem isTss16_of_isTss {d : Desc} (h : isTss d = true) : isTss16 d = false := by
  simp only [isTss, isTss16, Bool.and_eq_true] at h ⊢
  rw [h.1]
  have h2 := h.2
  revert h2
  generalize descType d = t
  revert t
  decide

theorem not_tss_of_taskGate {d : Desc} (h : isTaskGate d = true) : isTss d = false ∧ isTss16 d = false := by
  simp only [isTaskGate, isTss, isTss16, Bool.and_eq_true] at h ⊢
  rw [h.1]
  have h2 := h.2
  revert h2
  generalize descType d = t
  revert t
  decide

/-! ## Ranges and bytes -/

/-- An address of a range is one of its bytes. -/
theorem inRange_index {p a : Word} {n : Nat} (h : inRange p a n = true) : ∃ k, k < n ∧ p = a + BitVec.ofNat 32 k := by
  simp only [inRange, decide_eq_true_eq] at h
  refine ⟨_, h, ?_⟩
  simp only [BitVec.ofNat_toNat, BitVec.setWidth_eq]
  rw [BitVec.add_comm, BitVec.sub_add_cancel]

/-- A part of a range lies in it. -/
theorem inRange_sub {p x : Word} {i n N : Nat} (h : inRange p (x + BitVec.ofNat 32 i) n = true) (hi : i + n ≤ N) (hN : N ≤ 2^32)
    : inRange p x N = true := by
  obtain ⟨k, hk, rfl⟩ := inRange_index h
  rw [show x + BitVec.ofNat 32 i + BitVec.ofNat 32 k = x + BitVec.ofNat 32 (i + k) by bv_omega]
  exact inRange_offset (by omega) (by omega)

/-- A byte of those placed. -/
theorem memGet_placeBytes_at {bs : List Byte} {a : Word} {m : List Host.Cell} (hl : bs.length ≤ 2 ^ 32) {i : Nat} {b}
    (hi : bs[i]? = some b) : memGet (placeBytes bs a m) (a + BitVec.ofNat 32 i).toNat = some b := by
  obtain ⟨h, e⟩ := List.getElem?_eq_some_iff.mp hi
  rw [memGet_placeBytes_inside hl h, e]

/-- The bytes of a word of four bytes. -/
theorem extractLsb_wordOfBytes (b0 b1 b2 b3 : Byte) : (wordOfBytes b0 b1 b2 b3).extractLsb' 0 8 = b0 ∧
    (wordOfBytes b0 b1 b2 b3).extractLsb' 8 8 = b1 
  ∧ (wordOfBytes b0 b1 b2 b3).extractLsb' 16 8 = b2 ∧ (wordOfBytes b0 b1 b2 b3).extractLsb' 24 8 = b3 := by
  refine ⟨?_,?_,?_,?_⟩ <;>
  · apply BitVec.eq_of_getLsbD_eq
    intro i hi
    rw [BitVec.getLsbD_extractLsb', getLsbD_wordOfBytes]
    interval_cases i <;> simp

/-- Parts of ranges that are apart are apart. -/
theorem apart_sub {x y : Word} {n m i n' j m' : Nat} (h : apart x n y m = true) (hi : i + n' ≤ n) (hj : j + m' ≤ m) (hn
    : n ≤ 2^31) (hm : m ≤ 2^31) (hn0 : 0 < n' := by omega) (hm0 : 0 < m' := by omega) :
    apart (x + BitVec.ofNat 32 i) n' (y + BitVec.ofNat 32 j) m' = true := by
  simp only [apart, Bool.and_eq_true, decide_eq_true_eq] at *
  obtain ⟨h1, h2⟩ := h
  have := x.isLt
  have := y.isLt
  simp only [BitVec.toNat_sub, BitVec.toNat_add, BitVec.toNat_ofNat] at *
  have hx : x.toNat < 2^32 := x.isLt
  have hy : y.toNat < 2^32 := y.isLt
  generalize x.toNat = X at *
  generalize y.toNat = Y at *
  have ei : i % 2^32 = i := Nat.mod_eq_of_lt (by omega)
  have ej : j % 2^32 = j := Nat.mod_eq_of_lt (by omega)
  rw [ei, ej]
  constructor <;> omega

/-- A byte of one range is no byte of a range apart from it. -/
theorem ne_of_apart {x y p : Word} {n m i : Nat} (h : apart x n y m = true) (hp : inRange p x n = true) (hi : i < m) (hm
    : m ≤ 2^31) : p ≠ y + BitVec.ofNat 32 i := by
  rintro rfl
  have h1 := apart_outside h hp
  have h2 := inRange_offset (a := y) hi (by omega)
  rw [h1] at h2; cases h2

theorem inRange_descriptor {x p : Word} (hp : inRange p x 4 = true) : inRange p x 8 = true := by
  obtain ⟨j, hj, rfl⟩ := inRange_index hp
  exact inRange_offset (by omega) (by omega)

/-- The low row of a descriptor does not hold its busy bit. -/
theorem ne_busy_byte {x p : Word} (hp : inRange p x 4 = true) : p ≠ x + 5 := by
  obtain ⟨j, hj, rfl⟩ := inRange_index hp
  intro h
  have := congrArg BitVec.toNat h
  have hx := x.isLt
  have e5 : (5 : Word).toNat = 5 := rfl
  simp only [BitVec.toNat_add, BitVec.toNat_ofNat, e5] at this
  omega

theorem switchApart_of_tasksApart {a d s} (h : tasksApart a d s = true) : switchApart a d s = true := by
  simp only [tasksApart, switchApart, Bool.and_eq_true] at *
  obtain ⟨⟨⟨⟨⟨h1, h2⟩, h3⟩, h4⟩, h5⟩, h6⟩ := h
  have z : ∀ x : Word, x + BitVec.ofNat 32 0 = x := by intro x; simp
  refine ⟨⟨⟨⟨?_,?_⟩,?_⟩,?_⟩,?_⟩
  · have := apart_sub (i := 32) (n' := 64) (j := 0) (m' := 8) h2 (by omega) (by omega) (by omega) (by omega)
    rwa [z] at this
  · have := apart_sub (i := 32) (n' := 64) (j := 0) (m' := 8) h3 (by omega) (by omega) (by omega) (by omega)
    rwa [z] at this
  · have := apart_sub (i := 32) (n' := 64) (j := 0) (m' := 2) h1 (by omega) (by omega) (by omega) (by omega)
    rwa [z] at this
  · have := apart_sub (i := 0) (n' := 2) (j := 0) (m' := 8) h4 (by omega) (by omega) (by omega) (by omega)
    rwa [z, z] at this
  · have := apart_sub (i := 0) (n' := 2) (j := 0) (m' := 8) h5 (by omega) (by omega) (by omega) (by omega)
    rwa [z, z] at this

/-! ## Reads -/

theorem read32_mem {s t : State} (hs : s.pg = false) (ht : t.pg = false) (hm : t.mem = s.mem) (a) : read32 t a = read32 s a := by
  apply read32_agree hs ht; intro p _; rw [hm]

theorem read16_mem {s t : State} (hs : s.pg = false) (ht : t.pg = false) (hm : t.mem = s.mem) (a) : read16 t a = read16 s a := by
  apply read16_agree hs ht; intro p _; rw [hm]

theorem listed_mono {s t : State} {a n} (hm : ∀ p, (memGet s.mem p).isSome → (memGet t.mem p).isSome) (h : listed s a n = true)
    : listed t a n = true := by
  simp only [listed, List.all_eq_true, List.mem_range] at *
  exact fun j hj => hm _ (h j hj)

theorem read32_listed {s : State} {a v} (hp : s.pg = false) (h : read32 s a = .ok v) : listed s a 4 = true := by
  obtain ⟨b0,b1,b2,b3,h0,h1,h2,h3,e⟩ := (read32_flat hp).mp h
  simp only [listed, List.all_eq_true, List.mem_range]
  intro j hj
  interval_cases j
  · simp only [BitVec.add_zero, h0, Option.isSome_some]
  · exact h1 ▸ rfl
  · exact h2 ▸ rfl
  · exact h3 ▸ rfl

theorem listed_read32_zero {s : State} {a} (hp : s.pg = false) (h : listed s a 4 = true) : ∃ v, read32 s a = .ok v := by
  have := listed_read32 hp h (j := 0) (by omega)
  simpa using this

theorem listed_tss32 {s : State} {nb : Word} (hp : s.pg = false) (h : listed s (nb + 32) 70 = true) (j : Nat) (hj : 32 ≤ j) (hj2
    : j ≤ 98) : ∃ v, read32 s (nb + BitVec.ofNat 32 j) = .ok v := by
  have := listed_read32 hp h (j := j - 32) (by omega)
  have e : nb + 32 + BitVec.ofNat 32 (j - 32) = nb + BitVec.ofNat 32 j := by
    bv_omega
  rwa [e] at this

theorem listed_tss16 {s : State} {nb : Word} (hp : s.pg = false) (h : listed s (nb + 32) 70 = true) (j : Nat) (hj : 32 ≤ j) (hj2
    : j ≤ 100) : ∃ v, read16 s (nb + BitVec.ofNat 32 j) = .ok v := by
  have := listed_read16 hp h (j := j - 32) (by omega)
  have e : nb + 32 + BitVec.ofNat 32 (j - 32) = nb + BitVec.ofNat 32 j := by
    bv_omega
  rwa [e] at this

/-! ## Descriptors -/

/-- A descriptor that was read: its rows and its address. -/
theorem readDesc_some {s : State} {sel a d} (h : readDesc s sel = .ok (some (a, d))) : read32 s a = .ok d.low ∧ read32 s
    (a + 4) = .ok d.high ∧ descAddr s sel = some a := by
  simp only [readDesc] at h
  split at h
  · cases h
  · next a' ha =>
    simp only [bind_eq_ok, readDescAt] at h
    obtain ⟨d', ⟨l, hl, hh, hh', e⟩, e'⟩ := h
    simp only [Except.ok.injEq, Option.some.injEq, Prod.mk.injEq] at e e'
    obtain ⟨rfl, rfl⟩ := e'
    subst e
    exact ⟨hl, hh', ha⟩

theorem readDesc_eq {s : State} {sel a l h} (ha : descAddr s sel = some a) (h1 : read32 s a = .ok l) (h2 : read32 s
    (a + 4) = .ok h) :
    readDesc s sel = .ok (some (a, ⟨l, h⟩)) := by
  simp only [readDesc, ha, readDescAt, h1, h2, ok_bind]

/-- Where a GDT descriptor lies depends on GDTR alone. -/
theorem descAddr_gdt {s t : State} {sel} (h : selTI sel = false) (hg : t.gdtr = s.gdtr) : descAddr t sel = descAddr s sel := by
  simp [descAddr, h, hg]

theorem withBusy_true (h : Word) : withBusy true h = h ||| 0x200 := rfl

theorem withBusy_false (h : Word) : withBusy false h = h &&& ~~~0x200 := rfl

theorem or_busy_of_descBusy {d : Desc} (h : descBusy d = true) : d.high ||| 0x200 = d.high := by
  apply BitVec.eq_of_getLsbD_eq
  intro i hi
  simp only [descBusy] at h
  interval_cases i <;> simp [h]

/-- Setting the busy bit changes no other field. -/
theorem or_busy_fields (h : Word) : (h ||| 0x200).extractLsb' 24 8 = h.extractLsb' 24 8 ∧
    (h ||| 0x200).extractLsb' 0 8 = h.extractLsb' 0 8 ∧ (h ||| 0x200).extractLsb' 16 4 = h.extractLsb' 16 4
  ∧ (h ||| 0x200).getLsbD 23 = h.getLsbD 23 ∧ (h ||| 0x200).getLsbD 15 = h.getLsbD 15 ∧ (h ||| 0x200).getLsbD 12 = h.getLsbD 12
      ∧ (h ||| 0x200).getLsbD 9 = true := by
  refine ⟨?_,?_,?_,?_,?_,?_,?_⟩
  · ext i hi; interval_cases i <;> simp
  · ext i hi; interval_cases i <;> simp
  · ext i hi; interval_cases i <;> simp
  all_goals simp

theorem or_busy_type (h : Word) : (h.extractLsb' 8 4 = 9 ∨ h.extractLsb' 8 4 = 11) → (h ||| 0x200).extractLsb' 8 4 = 11 := by
  have e : (h ||| 0x200).extractLsb' 8 4 = h.extractLsb' 8 4 ||| 2 := by
    ext i hi; interval_cases i <;> simp
  rw [e]
  rintro (hh | hh) <;> rw [hh] <;> rfl

theorem descriptor_with_busy (d : Desc) : descBase ⟨d.low, d.high ||| 0x200⟩ = descBase d ∧ effLimit
    ⟨d.low, d.high ||| 0x200⟩ = effLimit d
   ∧ descPresent ⟨d.low, d.high ||| 0x200⟩ = descPresent d ∧ descBusy ⟨d.low, d.high ||| 0x200⟩ = true ∧ (isTss d = true → isTss
       ⟨d.low, d.high ||| 0x200⟩ = true) := by
  obtain ⟨h1,h2,h3,h4,h5,h6,h7⟩ := or_busy_fields d.high
  refine ⟨?_,?_,?_,?_,?_⟩
  · simp only [descBase, h1, h2]
  · simp only [effLimit, descG, descLimit20, h3, h4]; rfl
  · simp only [descPresent, h5]
  · simp only [descBusy, h7]
  · intro h
    simp only [isTss, descSystem, descType, Bool.and_eq_true, Bool.or_eq_true, beq_iff_eq] at h ⊢
    rw [h6]
    exact ⟨h.1, .inr (or_busy_type _ h.2)⟩

/-! ## The checks -/

/-- With a TSS descriptor named, what is left is the checks on it. -/
theorem findTss_named {k ext tsel s a d} (h : NamesTss s tsel a d) :
    findTss k ext tsel s = (checkTss k (errSelExt ext tsel) d).map (fun _ => (a, d)) := by
  obtain ⟨h1, h2, h3, h4⟩ := h
  simp only [findTss, h1, h2, h3, Bool.or_self, Bool.false_eq_true, if_false, ok_bind]
  cases checkTss k (errSelExt ext tsel) d <;> rfl

theorem taskSwitch_err {k ext tsel ret s e} (h : findTss k ext tsel s = .error e) : taskSwitch k ext tsel ret s = .error e := by
  simp [taskSwitch, h]

theorem findTss_ready {k ext tsel s a d} (h : SwitchReady k tsel a d s) : findTss k ext tsel s = .ok (a, d) := by
  rw [findTss_named h.names]
  have : ¬ effLimit d < 103#32 := by rw [BitVec.lt_def]; have := h.limit; simp; omega
  have hb := h.busy
  simp only [busyAsNeeded, beq_iff_eq] at hb
  by_cases hk : k = .iret <;> simp [hk] at hb <;>
  simp [checkTss, isTss16_of_isTss h.names.2.2.2, h.names.2.2.2, h.present, hk, hb, this, Except.map]

theorem checkTss_ok {k e d u} (h : checkTss k e d = .ok u) : isTss d = true := by
  simp only [checkTss] at h
  split at h
  · cases h
  split at h
  · cases h
  · next h1 => simpa using h1

/-- What the checks have found. -/
theorem findTss_ok {k ext tsel s a d} (h : findTss k ext tsel s = .ok (a, d)) : NamesTss s tsel a d ∧ checkTss k
    (errSelExt ext tsel) d = .ok () := by
  simp only [findTss] at h
  split at h
  · cases h
  · next hn =>
    simp only [Bool.or_eq_true, not_or, Bool.not_eq_true] at hn
    obtain ⟨r, hr, h⟩ := bind_eq_ok.mp h
    cases r with
    | none => cases h
    | some ad =>
      obtain ⟨u, hu, h⟩ := bind_eq_ok.mp h
      simp only [Except.ok.injEq] at h
      obtain ⟨a', d'⟩ := ad
      simp only [Prod.mk.injEq] at h
      obtain ⟨rfl, rfl⟩ := h
      exact ⟨⟨hn.1, hn.2, hr, checkTss_ok hu⟩, hu⟩

/-! ## Memory after each store of a switch -/

theorem saveTask_mem {k ret s s1} (hp : s.pg = false) (h : saveTask k ret s = .ok s1) : s1.mem = placeBytes
    ((saveImage k ret s).map (·.val)) (s.tr.base + 32) s.mem ∧ s1.pg = false := by
  have e := saveTask_flat hp k ret
  generalize placeBytes ((saveImage k ret s).map (·.val)) (s.tr.base + 32) s.mem = m at e ⊢
  rw [h] at e
  have e := Except.ok.inj e
  subst e
  exact ⟨rfl, hp⟩

theorem setBusy_mem {a b s s1} (hp : s.pg = false) (h : setBusy a b s = .ok s1) : ∃ hi, read32 s (a + 4) = .ok hi ∧ s1.mem =
    placeBytes (wordBytes (withBusy b hi)) (a + 4) s.mem ∧ s1.pg = false := by
  obtain ⟨-, hi, hr, hw⟩ := setBusy_ok h
  rw [write32_flat hp] at hw
  injection hw with hw
  exact ⟨hi, hr, (congrArg State.mem hw).symm, (congrArg State.pg hw).symm.trans hp⟩

theorem write16_mem {s a v s1} (hp : s.pg = false) (h : write16 s a v = .ok s1) : s1.mem = placeBytes (halfBytes v) a s.mem := by
  rw [write16_flat hp] at h
  injection h with h
  exact (congrArg State.mem h).symm

/-- Memory after the save, after the outgoing busy bit, after the incoming busy bit and at the end. -/
structure CommitStages (k : SwitchKind) (tsel : Half) (ret a : Word) (d : Desc) (s s' : State) : Prop where
  ex : ∃ m1 m2 m3 : List Host.Cell,
    m1 = placeBytes ((saveImage k ret s).map (·.val)) (s.tr.base + 32) s.mem
    ∧ (if links k then m2 = m1 else ∃ h, read32 { s with mem := m1 } (outgoingDesc s + 4) = .ok h ∧ m2 = placeBytes (wordBytes
        (withBusy false h)) (outgoingDesc s + 4) m1)
    ∧ (if k = .iret then m3 = m2 else ∃ h, read32 { s with mem := m2 } (a + 4) = .ok h ∧ m3 = placeBytes (wordBytes
        (withBusy true h)) (a + 4) m2)
    ∧ s'.mem = (if links k then placeBytes (halfBytes s.tr.sel) (descBase d) m3 else m3)

theorem commitSwitch_stages {k tsel ret a d s s' img} (hp : s.pg = false) (h : commitSwitch k tsel ret a d s = .ok (s', img)) :
    CommitStages k tsel ret a d s s' := by
  obtain ⟨s1, h1, h'⟩ := bind_eq_ok.mp h
  obtain ⟨s2, h2, h''⟩ := bind_eq_ok.mp h'
  obtain ⟨img', h3, h4⟩ := bind_eq_ok.mp h''
  simp only [Except.ok.injEq, Prod.mk.injEq] at h4
  obtain ⟨rfl, rfl⟩ := h4
  obtain ⟨s0, h0, h1⟩ := bind_eq_ok.mp h1
  obtain ⟨m0, p0⟩ := saveTask_mem hp h0
  obtain ⟨s3, h5, h6⟩ := bind_eq_ok.mp h2
  have L : s1.pg = false ∧ (if links k then s1.mem = s0.mem else ∃ h, read32 s0 (outgoingDesc s + 4) = .ok h ∧ s1.mem =
      placeBytes (wordBytes (withBusy false h)) (outgoingDesc s + 4) s0.mem) := by
    by_cases hl : links k
    · rw [if_pos hl] at h1 ⊢
      injection h1 with h1
      subst h1; exact ⟨p0, rfl⟩
    · rw [if_neg hl] at h1 ⊢
      obtain ⟨hi, hr, hm, hp⟩ := setBusy_mem p0 h1
      exact ⟨hp, hi, hr, hm⟩
  obtain ⟨p1, L⟩ := L
  generalize hs1 : ({ s1 with tr := { sel := tsel, base := descBase d, limit := effLimit d } } : State) = s1' at h5
  have p1' : s1'.pg = false := by rw [← hs1]; exact p1
  have m1' : s1'.mem = s1.mem := by rw [← hs1]
  have M : s3.pg = false ∧ (if k = .iret then s3.mem = s1'.mem else ∃ h, read32 s1' (a + 4) = .ok h ∧ s3.mem = placeBytes
      (wordBytes (withBusy true h)) (a + 4) s1'.mem) := by
    simp only [markBusy] at h5
    by_cases hl : k = .iret
    · rw [if_pos hl] at h5 ⊢
      injection h5 with h5
      subst h5; exact ⟨p1', rfl⟩
    · rw [if_neg hl] at h5 ⊢
      obtain ⟨hi, hr, hm, hp⟩ := setBusy_mem p1' h5
      exact ⟨hp, hi, hr, hm⟩
  obtain ⟨p3, M⟩ := M
  refine ⟨⟨s0.mem, s1.mem, s3.mem, m0, ?_, ?_, ?_⟩⟩
  · by_cases hl : links k
    · rw [if_pos hl] at L ⊢; exact L
    · rw [if_neg hl] at L ⊢
      obtain ⟨hi, hr, hm⟩ := L
      exact ⟨hi, (read32_mem (s := s0) (t := { s with mem := s0.mem }) p0 hp rfl _).trans hr, hm⟩
  · by_cases hl : k = .iret
    · rw [if_pos hl] at M ⊢; exact M.trans m1'
    · rw [if_neg hl] at M ⊢
      obtain ⟨hi, hr, hm⟩ := M
      exact ⟨hi, (read32_mem (s := s1') (t := { s with mem := s1.mem }) p1' hp m1'.symm _).trans hr, m1' ▸ hm⟩
  · simp only [linkTask] at h6
    by_cases hl : links k
    · rw [if_pos hl] at h6 ⊢
      exact write16_mem (s := { s3 with ts := true }) p3 h6
    · rw [if_neg hl] at h6 ⊢
      injection h6 with h6
      exact (congrArg State.mem h6).symm

/-- Replacing the busy bit of a descriptor changes only the byte at offset 5, and reads back. -/
theorem setBusy_stage {s : State} {m m' : List Host.Cell} {x hi : Word} {b : Bool} (hp : s.pg = false)
    (hr : read32 { s with mem := m } (x + 4) = .ok hi) (hm : m' = placeBytes (wordBytes (withBusy b hi)) (x + 4) m) :
    (∀ p : Word, p ≠ x + 5 → memGet m' p.toNat = memGet m p.toNat)
      ∧ read32 { s with mem := m' } (x + 4) = .ok (withBusy b hi) := by
  obtain ⟨b0, b1, b2, b3, h0, h1, h2, h3, e⟩ := (read32_flat (s := { s with mem := m }) hp).mp hr
  obtain ⟨e0, e1, e2, e3⟩ := extractLsb_wordOfBytes b0 b1 b2 b3
  rw [e] at e0 e1 e2 e3
  have hw := withBusy_bytes b hi
  rw [e0, e2, e3] at hw
  constructor
  · intro p hne
    by_cases hin : inRange p (x + 4) 4 = true
    · obtain ⟨k, hk, rfl⟩ := inRange_index hin
      rw [hm, hw]
      interval_cases k
      · rw [memGet_placeBytes_at (by simp) (b := b0) rfl]
        simpa using h0.symm
      · exact absurd (by bv_omega) hne
      · rw [memGet_placeBytes_at (by simp) (b := b2) rfl]
        exact h2.symm
      · rw [memGet_placeBytes_at (by simp) (b := b3) rfl]
        exact h3.symm
    · rw [hm]
      exact memGet_placeBytes_outside (by simpa [wordBytes] using hin)
  · have := read32_placeBytes (s := { s with mem := m }) hp (bs := wordBytes (withBusy b hi)) (a := x + 4) (v := withBusy b hi)
      (i := 0)
      (by simp [wordBytes]) rfl
    rw [hm]
    simpa using this

theorem saveImage_frame {k ret} {s : State} {p} (h : inRange p (s.tr.base + 32) 64 = false) :
    memGet (placeBytes ((saveImage k ret s).map (·.val)) (s.tr.base + 32) s.mem) p.toNat = memGet s.mem p.toNat := by
  apply memGet_placeBytes_outside
  have : ((saveImage k ret s).map (·.val)).length = 64 := by rw [List.length_map]; exact saveImage_length _ _ _
  rw [this]; exact h

theorem backLink_frame {sel : Half} {nb p : Word} {m} (h : inRange p nb 2 = false) : memGet (placeBytes
    (halfBytes sel) nb m) p.toNat = memGet m p.toNat :=
  memGet_placeBytes_outside h

/-- Memory through a switch: what each store changes and what its descriptor then reads as. -/
theorem commitSwitch_frames {k tsel ret a d s s'} (hp : s.pg = false) (h : CommitStages k tsel ret a d s s') :
    ∃ m1 m2 m3 : List Host.Cell,
      m1 = placeBytes ((saveImage k ret s).map (·.val)) (s.tr.base + 32) s.mem
      ∧ (∀ p : Word, inRange p (s.tr.base + 32) 64 = false → memGet m1 p.toNat = memGet s.mem p.toNat)
      ∧ (links k = true → m2 = m1)
      ∧ (links k = false → (∀ p : Word, p ≠ outgoingDesc s + 5 → memGet m2 p.toNat = memGet m1 p.toNat)
          ∧ ∃ hi, read32 { s with mem := m1 } (outgoingDesc s + 4) = .ok hi ∧ read32 { s with mem := m2 }
              (outgoingDesc s + 4) = .ok (withBusy false hi))
      ∧ (k = .iret → m3 = m2)
      ∧ (k ≠ .iret → (∀ p : Word, p ≠ a + 5 → memGet m3 p.toNat = memGet m2 p.toNat)
          ∧ ∃ hi, read32 { s with mem := m2 } (a + 4) = .ok hi ∧ read32 { s with mem := m3 } (a + 4) = .ok (withBusy true hi))
      ∧ (links k = false → s'.mem = m3)
      ∧ (links k = true → s'.mem = placeBytes (halfBytes s.tr.sel) (descBase d) m3) := by
  obtain ⟨m1, m2, m3, e1, h2, h3, h4⟩ := h.ex
  refine ⟨m1, m2, m3, e1, ?_, ?_, ?_, ?_, ?_, ?_, ?_⟩
  · intro p hp; rw [e1]; exact saveImage_frame hp
  · intro hl; simpa [hl] using h2
  · intro hl
    simp only [hl, Bool.false_eq_true, if_false] at h2
    obtain ⟨hi, hr, hm⟩ := h2
    have := setBusy_stage hp hr hm
    exact ⟨this.1, hi, hr, this.2⟩
  · intro hk; simpa [hk] using h3
  · intro hk
    simp only [hk, if_false] at h3
    obtain ⟨hi, hr, hm⟩ := h3
    have := setBusy_stage hp hr hm
    exact ⟨this.1, hi, hr, this.2⟩
  · intro hl; simpa [hl] using h4
  · intro hl; simpa [hl] using h4

theorem saveImage_val_length (k ret s) : ((saveImage k ret s).map
    (·.val)).length = 64 := by rw [List.length_map]; exact saveImage_length _ _ _

theorem saveImage_eip (k ret s) : (((saveImage k ret s).map (·.val)).drop 0).take 4 = wordBytes ret := rfl

theorem saveImage_eflags (k ret s) : (((saveImage k ret s).map (·.val)).drop 4).take 4 = wordBytes (savedFlags k s.eflags) := rfl

theorem saveImage_gpr (k ret s) (r) : (((saveImage k ret s).map (·.val)).drop (8 + 4 * (regNum r).toNat)).take 4 = wordBytes
    (gprGet s.gpr r) := by cases r <;> rfl

theorem saveImage_seg (k ret s) (g) : (((saveImage k ret s).map (·.val)).drop (40 + 4 * segNum g)).take 2 = halfBytes
    (segGet s.segs g).sel := by cases g <;> rfl

/-- A word of the saved image reads back where its bytes still stand. -/
theorem read32_saved {s t : State} {L : List Byte} {x v : Word} {i} (hp : s.pg = false) (tp : t.pg = false) (hl : L.length = 64)
   (hm : ∀ p, inRange p x 64 = true → memGet t.mem p.toNat = memGet (placeBytes L x s.mem) p.toNat) (hi : i + 4 ≤ 64) (hv :
       (L.drop i).take 4 = wordBytes v) :
   read32 t (x + BitVec.ofNat 32 i) = .ok v := by
  have e := read32_placeBytes (s := s) hp (a := x) (by rw [hl]; decide) hv
  refine Eq.trans (read32_agree (s := { s with mem := placeBytes L x s.mem }) hp tp ?_) e
  intro p hr
  exact hm p (inRange_sub hr hi (by decide))

theorem read16_saved {s t : State} {L : List Byte} {x : Word} {v : Half} {i} (hp : s.pg = false) (tp : t.pg = false) (hl
    : L.length = 64)
   (hm : ∀ p, inRange p x 64 = true → memGet t.mem p.toNat = memGet (placeBytes L x s.mem) p.toNat) (hi : i + 2 ≤ 64) (hv :
       (L.drop i).take 2 = halfBytes v) :
   read16 t (x + BitVec.ofNat 32 i) = .ok v := by
  have e := read16_placeBytes (s := s) hp (a := x) (by rw [hl]; decide) hv
  refine Eq.trans (read16_agree (s := { s with mem := placeBytes L x s.mem }) hp tp ?_) e
  intro p hr
  exact hm p (inRange_sub hr hi (by decide))

/-- What was saved still stands when the switch has ended. -/
theorem saved_bytes_stay {k tsel ret a d s s'} (hp : s.pg = false) (h : CommitStages k tsel ret a d s s') (hap
    : switchApart a d s = true) (p : Word)
    (hr : inRange p (s.tr.base + 32) 64 = true) :
    memGet s'.mem p.toNat = memGet (placeBytes ((saveImage k ret s).map (·.val)) (s.tr.base + 32) s.mem) p.toNat := by
  obtain ⟨m1, m2, m3, e1, f1, l1, l2, k1, k2, n1, n2⟩ := commitSwitch_frames hp h
  simp only [switchApart, Bool.and_eq_true] at hap
  obtain ⟨⟨⟨⟨a1, a2⟩, a3⟩, a4⟩, a5⟩ := hap
  have ne : ∀ x : Word, apart (s.tr.base + 32) 64 x 8 = true → p ≠ x + 5 := by
    rintro x hx rfl
    have := apart_outside hx hr
    have h5 : inRange (x + BitVec.ofNat 32 5) x 8 = true := inRange_offset (by omega) (by omega)
    rw [show x + BitVec.ofNat 32 5 = x + 5 from rfl, this] at h5
    cases h5
  have g2 : memGet m2 p.toNat = memGet m1 p.toNat := by
    cases hl : links k
    · exact (l2 hl).1 p (ne _ a2)
    · rw [l1 hl]
  have g3 : memGet m3 p.toNat = memGet m2 p.toNat := by
    by_cases hk : k = .iret
    · rw [k1 hk]
    · exact (k2 hk).1 p (ne _ a1)
  have g4 : memGet s'.mem p.toNat = memGet m3 p.toNat := by
    cases hl : links k
    · rw [n1 hl]
    · rw [n2 hl]; exact backLink_frame (apart_outside a3 hr)
  rw [g4, g3, g2, e1]

/-! ## The incoming TSS -/

theorem readImage_listed {s : State} {nb : Word} (hp : s.pg = false) (h : listed s (nb + 32) 70 = true) : ∃ img,
    readImage nb s = .ok img := by
  have r32 := fun j (h1 : 32 ≤ j) (h2 : j ≤ 98) => listed_tss32 hp h j h1 h2
  have r16 := fun j (h1 : 32 ≤ j) (h2 : j ≤ 100) => listed_tss16 hp h j h1 h2
  obtain ⟨ldt, e1⟩ := r16 96 (by omega) (by omega)
  obtain ⟨eip, e2⟩ := r32 32 (by omega) (by omega)
  obtain ⟨fl, e3⟩ := r32 36 (by omega) (by omega)
  obtain ⟨g0, f0⟩ := r32 40 (by omega) (by omega)
  obtain ⟨g1, f1⟩ := r32 44 (by omega) (by omega)
  obtain ⟨g2, f2⟩ := r32 48 (by omega) (by omega)
  obtain ⟨g3, f3⟩ := r32 52 (by omega) (by omega)
  obtain ⟨g4, f4⟩ := r32 56 (by omega) (by omega)
  obtain ⟨g5, f5⟩ := r32 60 (by omega) (by omega)
  obtain ⟨g6, f6⟩ := r32 64 (by omega) (by omega)
  obtain ⟨g7, f7⟩ := r32 68 (by omega) (by omega)
  obtain ⟨s0, k0⟩ := r16 72 (by omega) (by omega)
  obtain ⟨s1, k1⟩ := r16 76 (by omega) (by omega)
  obtain ⟨s2, k2⟩ := r16 80 (by omega) (by omega)
  obtain ⟨s3, k3⟩ := r16 84 (by omega) (by omega)
  obtain ⟨s4, k4⟩ := r16 88 (by omega) (by omega)
  obtain ⟨s5, k5⟩ := r16 92 (by omega) (by omega)
  obtain ⟨tt, k6⟩ := r16 100 (by omega) (by omega)
  simp only [BitVec.ofNat_eq_ofNat] at *
  simp [readImage, readPd, hp, readGprs, e1, e2, e3, f0, f1, f2, f3, f4, f5, f6, f7, k0, k1, k2, k3, k4, k5, k6]

/-- What was read of the incoming TSS. -/
theorem readImage_ok {nb s img} (h : readImage nb s = .ok img) : read32 s (nb + 32) = .ok img.eip ∧ read32 s
    (nb + 36) = .ok img.flags
    ∧ (∀ r, read32 s (gprSlot nb r) = .ok (gprGet img.gpr r))
    ∧ read16 s (nb + 72) = .ok img.es ∧ read16 s (nb + 76) = .ok img.cs ∧ read16 s (nb + 80) = .ok img.ss ∧ read16 s
        (nb + 84) = .ok img.ds
    ∧ read16 s (nb + 88) = .ok img.fs ∧ read16 s (nb + 92) = .ok img.gs ∧ read16 s (nb + 96) = .ok img.ldt
    ∧ (∃ w, read16 s (nb + 100) = .ok w ∧ img.t = w.getLsbD 0)
    ∧ (s.pg = true → ∃ pd, read32 s (nb + 28) = .ok pd ∧ img.pd = some pd) ∧ (s.pg = false → img.pd = none) := by
  simp only [readImage, bind_eq_ok, readGprs] at h
  obtain ⟨ldt, h1, pd, h2, eip, h3, fl, h4, g, ⟨g0, f0, g1, f1, g2, f2, g3, f3, g4, f4, g5, f5, g6, f6, g7, f7, hg⟩, es, k0, cs, k1, ss, k2, ds, k3, fs, k4, gs, k5, t, k6, e⟩ := h
  simp only [Except.ok.injEq] at e hg
  subst e hg
  refine ⟨h3, h4, ?_, k0, k1, k2, k3, k4, k5, h1, ⟨t, k6, rfl⟩, ?_, ?_⟩
  · intro r
    have e : ∀ n : Nat, nb + 40 + BitVec.ofNat 32 n = nb + BitVec.ofNat 32 (40 + n) := by
      intro n; bv_omega
    simp only [gprSlot, e]
    cases r
    · exact f0
    · exact f1
    · exact f2
    · exact f3
    · exact f4
    · exact f5
    · exact f6
    · exact f7
  · intro hp
    simp only [readPd, hp, if_true, bind_eq_ok] at h2
    obtain ⟨x, hx, e⟩ := h2
    simp only [Except.ok.injEq] at e
    exact ⟨x, hx, e.symm⟩
  · intro hp
    simp only [readPd, hp, Bool.false_eq_true, if_false, Except.ok.injEq] at h2
    exact h2.symm

theorem readImage_segs {nb s img} (h : readImage nb s = .ok img) (k t) (s0) : ∀ g, read16 s (segSlot nb g) = .ok (segGet
    (makeUsable t (install k img s0)).segs g).sel := by
  obtain ⟨-,-,-,h0,h1,h2,h3,h4,h5,-⟩ := readImage_ok h
  have e : ∀ n : Nat, nb + 72 + BitVec.ofNat 32 n = nb + BitVec.ofNat 32 (72 + n) := by
    intro n; bv_omega
  intro g
  simp only [segSlot, e]
  cases g
  · exact h0
  · exact h1
  · exact h2
  · exact h3
  · exact h4
  · exact h5

/-- A ready switch ends. -/
theorem commitSwitch_total {k tsel s a d} (ret) (h : SwitchReady k tsel a d s) : ∃ s' img, commitSwitch k tsel ret a d s = .ok
    (s', img) := by
  have hp := h.paging
  obtain ⟨hl, hh, -⟩ := readDesc_some h.names.2.2.1
  have l1 : ∃ s1, leaveTask k ret s = .ok s1 := by
    simp only [leaveTask, saveTask_flat hp, ok_bind]
    split
    · exact ⟨_, rfl⟩
    · next hk =>
      have ho := h.outgoing (by simpa using hk)
      have hs := saveTask_ok (saveTask_flat hp k ret)
      have : listed
          { s with
            mem := placeBytes ((saveImage k ret s).map (·.val)) (s.tr.base + 32) s.mem
            freeCount := s.freeCount + 6 } (outgoingDesc s + 4) 4 = true :=
        listed_mono hs.1.some ho
      obtain ⟨v, hv⟩ := listed_read32_zero (by exact hp) this
      exact ⟨_, setBusy_flat (by exact hp) false hv⟩
  obtain ⟨s1, h1⟩ := l1
  have o1 := leaveTask_ok h1
  have p1 : s1.pg = false := by rw [o1.eq]; exact hp
  have l2 : ∃ s2, enterTask k s.tr.sel tsel a d s1 = .ok s2 := by
    simp only [enterTask, markBusy, linkTask]
    have q : ∀ m : State, m.pg = false → ∃ s2, (if links k = true then write16 m
        (descBase d) s.tr.sel else Except.ok m) = Except.ok s2 := by
      intro m hm
      split
      · exact ⟨_, write16_flat hm _ _⟩
      · exact ⟨_, rfl⟩
    split
    · simp only [ok_bind]
      exact q _ p1
    · have : listed { s1 with tr := { sel := tsel, base := descBase d, limit := effLimit d } } (a + 4) 4 = true :=
        listed_mono o1.some (read32_listed hp hh)
      obtain ⟨v, hv⟩ := listed_read32_zero (by exact p1) this
      rw [setBusy_flat (by exact p1) true hv]
      simp only [ok_bind]
      exact q _ p1
  obtain ⟨s2, h2⟩ := l2
  have o2 := enterTask_ok h2
  have p2 : s2.pg = false := by rw [o2.eq]; exact p1
  have : listed s2 (descBase d + 32) 70 = true := listed_mono o2.some (listed_mono o1.some h.image)
  obtain ⟨img, h3⟩ := readImage_listed p2 this
  exact ⟨s2, img, by simp [commitSwitch, h1, h2, h3]⟩

/-- A switch that is ready runs, whatever is saved as the outgoing EIP. -/
theorem switchRuns_of_ready {k ext tsel s a d} (ret) (h : SwitchReady k tsel a d s) : ∃ s' img, SwitchRuns k ext tsel ret a d s s' img := by
  obtain ⟨s', img, hc⟩ := commitSwitch_total ret h
  refine ⟨s', img, findTss_ready h, hc, fillHidden_present ?_⟩
  rw [install_pg, (commitSwitch_ok hc).1.eq]
  exact h.paging

/-! ## Bytes no switch writes -/

theorem switchWrites_outside {k : SwitchKind} {a d s p} (h1 : inRange p (s.tr.base + 32) 64 = false) (h2
    : links k = false → p ≠ outgoingDesc s + 5) (h3 : k ≠ .iret → p ≠ a + 5)
  (h4 : links k = true → inRange p (descBase d) 2 = false) : switchWrites k a d s p = false := by
  simp only [switchWrites, Bool.or_eq_false_iff, h1, true_and]
  refine ⟨⟨?_, ?_⟩, ?_⟩
  · cases hl : links k
    · have := h2 hl; simp only [Bool.not_false, Bool.true_and]; exact beq_eq_false_iff_ne.mpr this
    · rfl
  · by_cases hk : k = .iret
    · subst hk; rfl
    · have := h3 hk; simp only [ne_eq, hk, not_false_eq_true, decide_true, Bool.true_and]; exact beq_eq_false_iff_ne.mpr this
  · cases hl : links k <;> simp [h4, hl]

theorem read16_unwritten {s t : State} {k a d} (hp : s.pg = false) (tp : t.pg = false) (hf
    : ∀ p, switchWrites k a d s p = false → memGet t.mem p.toNat = memGet s.mem p.toNat) {x : Word}
  (h : ∀ p, inRange p x 2 = true → switchWrites k a d s p = false) : read16 t x = read16 s x := read16_agree hp tp
      (fun p hr => hf p (h p hr))

theorem read32_unwritten {s t : State} {k a d} (hp : s.pg = false) (tp : t.pg = false) (hf
    : ∀ p, switchWrites k a d s p = false → memGet t.mem p.toNat = memGet s.mem p.toNat) {x : Word}
  (h : ∀ p, inRange p x 4 = true → switchWrites k a d s p = false) : read32 t x = read32 s x := read32_agree hp tp
      (fun p hr => hf p (h p hr))

theorem incoming_unwritten {k : SwitchKind} {a d s p} (hap : tasksApart a d s = true) (i : Nat) (hi : 2 ≤ i) (hi2 : i < 104) (hp
    : p = descBase d + BitVec.ofNat 32 i) : switchWrites k a d s p = false := by
  subst hp
  simp only [tasksApart, Bool.and_eq_true] at hap
  obtain ⟨⟨⟨⟨⟨c1, c2⟩, c3⟩, c4⟩, c5⟩, c6⟩ := hap
  have hin : inRange (descBase d + BitVec.ofNat 32 i) (descBase d) 104 = true := inRange_offset hi2 (by omega)
  apply switchWrites_outside
  · by_contra hc
    simp only [Bool.not_eq_false] at hc
    have := inRange_sub (N := 104) (i := 32) hc (by omega) (by decide)
    rw [apart_outside c1 this |>.symm.symm] at hin; cases hin
  · intro _; exact ne_of_apart (i := 5) c5 hin (by omega) (by omega)
  · intro _; exact ne_of_apart (i := 5) c4 hin (by omega) (by omega)
  · intro _
    simp only [inRange, decide_eq_false_iff_not]
    have := (descBase d).isLt
    simp only [BitVec.toNat_sub, BitVec.toNat_add, BitVec.toNat_ofNat]
    omega

theorem outgoing_unwritten {k : SwitchKind} {a d s p} (hap : tasksApart a d s = true) (i : Nat) (hi : i < 32 ∨ 96 ≤ i) (hi2
    : i < 104) (hp : p = s.tr.base + BitVec.ofNat 32 i) : switchWrites k a d s p = false := by
  subst hp
  simp only [tasksApart, Bool.and_eq_true] at hap
  obtain ⟨⟨⟨⟨⟨c1, c2⟩, c3⟩, c4⟩, c5⟩, c6⟩ := hap
  have hin : inRange (s.tr.base + BitVec.ofNat 32 i) (s.tr.base) 104 = true := inRange_offset hi2 (by omega)
  apply switchWrites_outside
  · simp only [inRange, decide_eq_false_iff_not]
    have := (s.tr.base).isLt
    have e32 : (32 : Word).toNat = 32 := rfl
    simp only [BitVec.toNat_sub, BitVec.toNat_add, BitVec.toNat_ofNat, e32]
    omega
  · intro _; exact ne_of_apart (i := 5) c3 hin (by omega) (by omega)
  · intro _; exact ne_of_apart (i := 5) c2 hin (by omega) (by omega)
  · intro _
    by_contra hc
    simp only [Bool.not_eq_false] at hc
    have : inRange (s.tr.base + BitVec.ofNat 32 i) (descBase d + BitVec.ofNat 32 0) 2 = true := by simpa using hc
    have := inRange_sub (N := 104) this (by omega) (by decide)
    rw [apart_outside c1 hin] at this; cases this

theorem descriptor_row_unwritten {k : SwitchKind} {a d s p} {x : Word} (hb : apart (s.tr.base + 32) 64 x 8 = true) (hn : apart
    (descBase d) 2 x 8 = true) 
   (h5 : links k = false → p ≠ outgoingDesc s + 5) (h6 : k ≠ .iret → p ≠ a + 5)
   (hp : inRange p x 4 = true) : switchWrites k a d s p = false := by
  have h8 : inRange p x 8 = true := by
    obtain ⟨j, hj, rfl⟩ := inRange_index hp
    exact inRange_offset (by omega) (by omega)
  apply switchWrites_outside
  · exact apart_outside (apart_comm ▸ hb) h8
  · exact h5
  · exact h6
  · intro _; exact apart_outside (apart_comm ▸ hn) h8

end Sys2Proof.Machine
end

