-- ==== Sys2Proof/Tests/Slice0.lean ====
section
/-! SUPPORT. The model's own tests. Expected values are those of 95_test_vectors.md, whose vector or program each test names. After
them, for each statement that has hypotheses, a theorem that meets them all. -/

namespace Sys2Proof.Tests

open Sys2Proof Sys2Proof.Machine Host

set_option Elab.async false

/-! ## Building small states -/

/-- Bytes from an address upwards. -/
def cells (a : Nat) : List Byte → List Host.Cell
  | [] => []
  | b :: bs => (a, b) :: cells (a + 1) bs

/-- The bytes of descriptors, low row first. -/
def rows (ds : List Desc) : List Byte := ds.flatMap fun d => wordBytes d.low ++ wordBytes d.high

/-- A TSS from offset 32 to offset 101: EIP, EFLAGS, registers, selectors, LDT selector 0, T-bit's word 0. -/
def tssBytes (eip flags : Word) (regs sels : List Word) : List Byte :=
  wordBytes eip ++ wordBytes flags ++ regs.flatMap wordBytes ++ sels.flatMap wordBytes ++ [0, 0, 0, 0, 0, 0]

/-- A 32-bit value stored from outside. -/
def poke (s : State) (a v : Word) : State := { s with mem := placeBytes (wordBytes v) a s.mem }

/-- Descriptors of 95_test_vectors.md section 3.1: TSS A (here busy), B, the task gate, C, D. -/
def descA : Desc := ⟨0x20000067, 0x00008B00⟩
def descB : Desc := ⟨0x21000067, 0x00008900⟩
def gateB : Desc := ⟨0x00200000, 0x0000E500⟩
def descC : Desc := ⟨0x22000067, 0x00008900⟩
def descD : Desc := ⟨0x23000066, 0x00008900⟩
def gateC : Desc := ⟨0x00300000, 0x00008500⟩

/-- The GDT's entries 3 to 7. -/
def gdtCells : List Host.Cell := cells 0x1018 (rows [descA, descB, gateB, descC, descD])

/-- TSS B and TSS C from offset 32 on. -/
def tssB : List Host.Cell :=
  cells 0x2120 (tssBytes 0x20000 2 [0xB0, 0xB1, 0xB2, 0xB3, 0xB4, 0xB5, 0xB6, 0xB7] [0x10, 0x08, 0x10, 0x10, 0, 0])
def tssC : List Host.Cell :=
  cells 0x2220 (tssBytes 0x30000 2 [0xC0, 0xC1, 0xC2, 0xC3, 0xC4, 0xC5, 0xC6, 0xC7] [0x10, 0x08, 0x10, 0x10, 0, 0])

/-- Task A runs, as at the start of program P2 but at level 0, with this memory and no usable IDT. -/
def running (mem : List Host.Cell) : State :=
  { State.reset with
    gpr := ⟨0xA0, 0xA1, 0xA2, 0xA3, 0xA4, 0xA5, 0xA6, 0xA7⟩
    eip := 0x11000
    eflags := 0x202
    segs := ⟨⟨0x23, .flat⟩, ⟨0x1B, .flat⟩, ⟨0x23, .flat⟩, ⟨0x23, .flat⟩, ⟨0, .flat⟩, ⟨0, .flat⟩⟩
    tr := ⟨0x18, 0x2000, 0x67⟩
    gdtr := ⟨0x1000, 0x3F⟩
    mem := mem }

/-- Task A runs and task B can be entered. -/
def runA : State := running (gdtCells ++ tssB)

/-- Task A runs at level 3, the start of program P2. -/
def runA3 : State := { runA with cpl := 3 }

/-- Task A runs; task C can be entered through the task gates of the IDT's entries 0Dh and 20h. -/
def runAIdt : State :=
  { running (gdtCells ++ cells 0x1868 (rows [gateC]) ++ cells 0x1900 (rows [gateC]) ++ tssC) with idtr := ⟨0x1800, 0x10F⟩ }

/-- Task B runs, called by task A: program P2 before its IRET. -/
def runB : State :=
  { running (gdtCells ++ cells 0x2020 (tssBytes 0x11007 0x202 [0xA0, 0xA1, 0xA2, 0xA3, 0xA4, 0xA5, 0xA6, 0xA7]
        [0x23, 0x1B, 0x23, 0x23, 0, 0]) ++ cells 0x2100 [0x18, 0x00]) with
    eip := 0x20000, eflags := 0x4002, tr := ⟨0x20, 0x2100, 0x67⟩ }

/-- An instruction's outcome is a next state of which `p` holds. -/
def after (o : Outcome State Fault Refusal) (p : State → Bool) : Bool :=
  match o with
  | .next t => p t
  | .fault _ => false
  | .refused _ => false

/-- An operation's result is a state of which `p` holds. -/
def okAnd (r : Except Stop State) (p : State → Bool) : Bool :=
  match r with
  | .ok t => p t
  | .error _ => false

theorem okAnd_exists {r : Except Stop State} {p : State → Bool} (h : okAnd r p = true) : ∃ t, r = .ok t ∧ p t = true := by
  cases r with
  | ok t => exact ⟨t, rfl, h⟩
  | error e => cases h

theorem after_exists {o : Outcome State Fault Refusal} {p : State → Bool} (h : after o p = true) :
    ∃ t, o = .next t ∧ p t = true := by
  cases o with
  | next t => exact ⟨t, rfl, h⟩
  | fault f => cases h
  | refused r => cases h

/-- An instruction's outcome is a fault. -/
def faultOf (o : Outcome State Fault Refusal) : Option Fault :=
  match o with
  | .fault f => some f
  | .next _ => none
  | .refused _ => none

/-- Without an IDT entry for it, the delivery of an exception shows its class and its error information. -/
def raised (e x : Exn) : Option Fault := some (.exceptionDuringDelivery (.exception e) x)

/-! ## WellFormed refuses each ill-formed term (30_encoding.md R114) -/

theorem test_wf_base_esp : (Instr.str (.mem (.base .esp))).wf = false := by decide
theorem test_wf_base_ebp : (Instr.ltr (.mem (.base .ebp))).wf = false := by decide
theorem test_wf_disp8_esp : (Instr.jmpMem (.baseDisp8 .esp 4)).wf = false := by decide
theorem test_wf_disp32_esp : (Instr.callMem (.baseDisp32 .esp 4)).wf = false := by decide
theorem test_wf_sib_ebp : (Instr.str (.mem (.sib ⟨0, .eax, .ebp⟩))).wf = false := by decide
theorem test_wf_accepts : (Instr.ltr (.mem (.sib ⟨2, .eax, .esp⟩))).wf = true ∧ (Instr.jmpMem (.baseDisp8 .ebp 0)).wf = true
    ∧ (Instr.jmpPtr 0 0).wf = true ∧ (Instr.callPtr 0 0).wf = true ∧ Instr.iret.wf = true ∧ (Instr.intN .into).wf = true := by
  decide

/-! ## Decoding: V80 to V96 -/

theorem test_decode_ltr : decode [0x0F, 0x00, 0xD8] = .instr (.ltr (.reg .eax)) 3
    ∧ decode [0x0F, 0x00, 0x1B] = .instr (.ltr (.mem (.base .ebx))) 3
    ∧ decode [0x0F, 0x00, 0x5D, 0x08] = .instr (.ltr (.mem (.baseDisp8 .ebp 8))) 4
    ∧ decode [0x0F, 0x00, 0x1D, 0x00, 0x40, 0x00, 0x00] = .instr (.ltr (.mem (.disp32 0x4000))) 7 := by decide

theorem test_decode_str : decode [0x0F, 0x00, 0xCB] = .instr (.str (.reg .ebx)) 3
    ∧ decode [0x0F, 0x00, 0x0C, 0x24] = .instr (.str (.mem (.sib ⟨0, .esp, .esp⟩))) 4
    ∧ decode [0x0F, 0x00, 0x4C, 0x88, 0xFC] = .instr (.str (.mem (.sibDisp8 ⟨2, .ecx, .eax⟩ 0xFC))) 5
    ∧ decode [0x0F, 0x00, 0x8F, 0x44, 0x33, 0x22, 0x11] = .instr (.str (.mem (.baseDisp32 .edi 0x11223344))) 7
    ∧ decode [0x0F, 0x00, 0x0C, 0xDD, 0x78, 0x56, 0x34, 0x12] = .instr (.str (.mem (.sibNoBase 3 .ebx 0x12345678))) 8 := by
  decide

theorem test_decode_jmpPtr : decode [0xEA, 0x78, 0x56, 0x34, 0x12, 0x20, 0x00] = .instr (.jmpPtr 0x12345678 0x0020) 7 := by decide
theorem test_decode_callPtr : decode [0x9A, 0x00, 0x00, 0x00, 0x00, 0x2B, 0x00] = .instr (.callPtr 0 0x002B) 7 := by decide
theorem test_decode_jmpMem : decode [0xFF, 0x2E] = .instr (.jmpMem (.base .esi)) 2 := by decide
theorem test_decode_callMem : decode [0xFF, 0x1B] = .instr (.callMem (.base .ebx)) 2
    ∧ decode [0xFF, 0x9C, 0x24, 0x00, 0x01, 0x00, 0x00] = .instr (.callMem (.sibDisp32 ⟨0, .esp, .esp⟩ 0x100)) 7 := by decide
theorem test_decode_iret : decode [0xCF] = .instr .iret 1 := by decide
theorem test_decode_intN : decode [0xCD, 0x20] = .instr (.intN (.imm 0x20)) 2 ∧ decode [0xCC] = .instr (.intN .int3) 1
    ∧ decode [0xCE] = .instr (.intN .into) 1 := by decide
theorem test_decode_others : decode [0xFF, 0xDB] = .undefined ∧ decode [0xFF, 0xEB] = .undefined
    ∧ decode [0x0F, 0x00, 0xC0] = .outOfScope 0x0F ∧ decode [0xFF, 0x15] = .outOfScope 0xFF
    ∧ decode [0x66, 0xEA] = .prefixByte 0x66 ∧ decode [0x90] = .outOfScope 0x90 ∧ decode [0x0F, 0x00] = .more := by decide

/-- The words of spec/opcode_table.json as its `match` fields have them. -/
theorem test_table_words : decodeTableWord 24 0x0F0008 = some (.str (.mem (.base .eax)))
    ∧ decodeTableWord 24 0x0F00D8 = some (.ltr (.reg .eax)) ∧ decodeTableWord 8 0xCF = some .iret
    ∧ decodeTableWord 56 0xEA000000002000 = some (.jmpPtr 0 0x20) := by decide

/-! ## Descriptors and error information: V1, V2, V6, V7, V8, section 2.7 -/

theorem test_descriptors : descBase ⟨0xBA98BCDE, 0xFE9AEBDC⟩ = 0xFEDCBA98 ∧ effLimit ⟨0xBA98BCDE, 0xFE9AEBDC⟩ = 0xABCDEFFF
    ∧ descBusy ⟨0xBA98BCDE, 0xFE9AEBDC⟩ = true ∧ descDPL ⟨0xBA98BCDE, 0xFE9AEBDC⟩ = 3
    ∧ descBase ⟨0x34560067, 0x00008912⟩ = 0x00123456 ∧ isTaskGate gateB = true ∧ gateSel gateB = 0x20
    ∧ isTss ⟨0x0000FFFF, 0x00CF9B00⟩ = false ∧ isTss16 ⟨0x20000067, 0x00008100⟩ = true := by decide

theorem test_errors : errSel 0x2B = 0x28 ∧ errSel 0xFFFF = 0xFFFC ∧ idtErr 0x20 .software = 0x102 ∧ idtErr 0x20 .external = 0x103
    ∧ idtErr 0x0D .exception = 0x6B ∧ idtErr 0xFF .external = 0x7FB ∧ errSelExt true 0x30 = 0x31 := by decide

/-! ## One step of each instruction -/

/-- V28: the RPL bits are kept, the upper half of EAX is ignored, the busy byte is written. -/
theorem test_ltr_loads :
    after (exec (.ltr (.reg .eax)) { poke runA 0x101C 0x8900 with gpr := { runA.gpr with eax := 0xDEAD001B } }) (fun t =>
      t.tr == ⟨0x1B, 0x2000, 0x67⟩ && t.eip == 0x11003 && memGet t.mem 0x101D == some 0x8B && !t.ts) = true := by decide +kernel

/-- V21, V22, V26, V27. -/
theorem test_ltr_refuses :
    faultOf (exec (.ltr (.reg .eax)) { runA3 with gpr := { runA.gpr with eax := 0x18 } }) = raised (.gp 0) (.gp 0x6B)
    ∧ faultOf (exec (.ltr (.reg .eax)) { runA with gpr := { runA.gpr with eax := 0x1C } }) = raised (.gp 0x1C) (.gp 0x6B)
    ∧ faultOf (exec (.ltr (.reg .eax)) { runA with gpr := { runA.gpr with eax := 0x18 } }) = raised (.gp 0x18) (.gp 0x6B)
    ∧ faultOf (exec (.ltr (.reg .eax)) { poke runA 0x101C 0x0900 with gpr := { runA.gpr with eax := 0x18 } })
      = raised (.np 0x18) (.gp 0x5B) := by decide +kernel

/-- V29a at level 3; the upper half is a free value. -/
theorem test_str_register : ∃ t, exec (.str (.reg .ebx)) runA3 = .next t ∧ t.gpr.ebx.extractLsb' 0 16 = 0x18 ∧ t.gpr.eax = 0xA0
    ∧ t.eip = 0x11003 := by
  refine ⟨_, rfl, ?_, rfl, rfl⟩
  show (Config.strUpper 0 ++ (0x18 : Half)).extractLsb' 0 16 = 0x18
  apply BitVec.eq_of_getLsbD_eq
  intro i hi
  rw [BitVec.getLsbD_extractLsb', BitVec.getLsbD_append]
  simp [hi]

/-- V29b. -/
theorem test_str_memory :
    after (exec (.str (.mem (.base .ebx))) { runA3 with gpr := { runA.gpr with ebx := 0x5000 }, tr := ⟨0x1B, 0, 0⟩ }) (fun t =>
      memGet t.mem 0x5000 == some 0x1B && memGet t.mem 0x5001 == some 0 && t.eip == 0x11003) = true := by decide +kernel

/-- P1, third step, from the EIP and flags of P2. -/
theorem test_jmpPtr_switches :
    after (exec (.jmpPtr 0 0x20) (poke runA 0x2124 0x4002)) (fun t =>
      t.eip == 0x20000 && t.eflags == 2 && t.tr == ⟨0x20, 0x2100, 0x67⟩ && memGet t.mem 0x101D == some 0x89
        && memGet t.mem 0x1025 == some 0x8B && memGet t.mem 0x2020 == some 0x07) = true := by decide +kernel

/-- V40, V41, V42, V47, V50. -/
theorem test_jmpPtr_refuses : faultOf (exec (.jmpPtr 0 0x03) runA) = raised (.gp 0) (.gp 0x6B)
    ∧ faultOf (exec (.jmpPtr 0 0x40) runA) = raised (.gp 0x40) (.gp 0x6B)
    ∧ faultOf (exec (.jmpPtr 0 0x38) runA) = raised (.ts 0x38) (.gp 0x53)
    ∧ faultOf (exec (.jmpPtr 0 0x20) (poke runA 0x1024 0x0900)) = raised (.np 0x20) (.gp 0x5B)
    ∧ faultOf (exec (.jmpPtr 0 0x18) runA) = raised (.gp 0x18) (.gp 0x6B) := by decide +kernel

/-- 30_encoding.md R115: the offset lies first, the selector after it. -/
theorem test_jmpMem_reads :
    faultOf (exec (.jmpMem (.base .esi)) { running (gdtCells ++ cells 0x4000 [0x18, 0, 0, 0, 0x40, 0x00]) with
      gpr := { runA.gpr with esi := 0x4000 } }) = raised (.gp 0x40) (.gp 0x6B) := by decide +kernel

/-- P2, first step: through the gate at level 3, linked and nested. -/
theorem test_callPtr_switches :
    after (exec (.callPtr 0 0x2B) runA3) (fun t =>
      t.eip == 0x20000 && t.eflags == 0x4002 && t.cpl == 0 && t.gpr == ⟨0xB0, 0xB1, 0xB2, 0xB3, 0xB4, 0xB5, 0xB6, 0xB7⟩
        && memGet t.mem 0x2100 == some 0x18 && memGet t.mem 0x101D == some 0x8B) = true := by decide +kernel

/-- V39, V43, V44, V45, V46. -/
theorem test_callPtr_refuses : faultOf (exec (.callPtr 0 0x20) runA3) = raised (.gp 0x20) (.gp 0x6B)
    ∧ faultOf (exec (.callPtr 0 0x28) (poke runA 0x102C 0x6500)) = raised (.np 0x28) (.gp 0x5B)
    ∧ faultOf (exec (.callPtr 0 0x28) (poke runA 0x1028 0x00240000)) = raised (.gp 0x24) (.gp 0x6B)
    ∧ faultOf (exec (.callPtr 0 0x2B) (poke runA3 0x102C 0x8500)) = raised (.gp 0x28) (.gp 0x6B)
    ∧ faultOf (exec (.callPtr 0 0x28) (poke runA 0x1028 0x00280000)) = raised (.gp 0x28) (.gp 0x6B) := by decide +kernel

theorem test_callMem_reads :
    faultOf (exec (.callMem (.base .ebx)) { running (gdtCells ++ cells 0x4000 [0x18, 0, 0, 0, 0x38, 0x00]) with
      gpr := { runA.gpr with ebx := 0x4000 } }) = raised (.ts 0x38) (.gp 0x53) := by decide +kernel

/-- P2, second step. -/
theorem test_iret_returns :
    after (exec .iret (poke runB 0x1024 0x8B00)) (fun t =>
      t.eip == 0x11007 && t.eflags == 0x202 && t.cpl == 3 && t.gpr == ⟨0xA0, 0xA1, 0xA2, 0xA3, 0xA4, 0xA5, 0xA6, 0xA7⟩
        && memGet t.mem 0x1025 == some 0x89 && memGet t.mem 0x2125 == some 0) = true := by decide +kernel

/-- V60, V61, V62, V63, V64, with the back-link in task A's TSS. -/
theorem test_iret_refuses :
    ([0x20, 0x00, 0x24, 0x28, 0x48].map fun b =>
      faultOf (exec .iret { running (gdtCells ++ cells 0x2000 [b, 0]) with eflags := 0x4202 }))
    = [raised (.ts 0x20) (.gp 0x53), raised (.ts 0) (.gp 0x53), raised (.ts 0x24) (.gp 0x53), raised (.ts 0x28) (.gp 0x53),
      raised (.ts 0x48) (.gp 0x53)] := by decide +kernel

/-- P3, first step, at level 0. -/
theorem test_intN_switches :
    after (exec (.intN (.imm 0x20)) runAIdt) (fun t =>
      t.eip == 0x30000 && t.eflags == 0x4002 && t.tr.sel == 0x30 && memGet t.mem 0x2200 == some 0x18
        && memGet t.mem 0x2020 == some 0x02) = true := by decide +kernel

/-- V52: class GP with the error of the vector, delivered through an IDT whose entry 0Dh is no longer there. -/
theorem test_intN_refuses :
    faultOf (exec (.intN (.imm 0x22)) runA) = raised (.gp 0x112) (.gp 0x6B) := by decide

/-- V54: the exception raised by the delivery of an external interrupt. -/
theorem test_external_refuses :
    faultOf (takeExternal 0x20 (poke runAIdt 0x1904 0x0500))
      = some (.exceptionDuringDelivery (.external 0x20) (.np 0x103)) := by decide +kernel

/-! ## Witnesses: for each statement with hypotheses, a concrete input that meets them

Encoding. -/

theorem witness_DecodeOfEncode : (Instr.callMem (.sibDisp32 ⟨0, .esp, .esp⟩ 0x100)).wf = true := by decide

theorem witness_EncodeOfDecode : decode [0x0F, 0x00, 0x4C, 0x88, 0xFC, 0x90] = .instr (.str (.mem (.sibDisp8 ⟨2, .ecx, .eax⟩ 0xFC))) 5 := by
  decide

theorem witness_MemoryOperandAddress : ((3 : BitVec 3) ≠ 4 ∧ (3 : BitVec 3) ≠ 5) ∧ ((6 : BitVec 3) ≠ 4 ∧ (6 : BitVec 3) ≠ 5)
    ∧ ((5 : BitVec 3) ≠ 4) ∧ ((4 : BitVec 3) ≠ 5)
    ∧ sibIndex runA.gpr 3 .esp = (if (4 : BitVec 3) = 4 then 0 else gprGet runA.gpr (regOfNum 4) <<< (3 : BitVec 2).toNat)
    ∧ sibIndex runA.gpr 3 .ebp = (if (5 : BitVec 3) = 4 then 0 else gprGet runA.gpr (regOfNum 5) <<< (3 : BitVec 2).toNat) := by decide

/-- The second byte's `reg` field and the third byte's, for each clause. -/
theorem witness_DecodingOrder :
    ((0x2E : Byte).extractLsb' 3 3 = 5 ∧ (0x2E : Byte).extractLsb' 6 2 ≠ 3)
    ∧ ((0x1B : Byte).extractLsb' 3 3 = 3 ∧ (0x1B : Byte).extractLsb' 6 2 ≠ 3)
    ∧ ((0xEB : Byte).extractLsb' 3 3 = 5 ∧ (0xEB : Byte).extractLsb' 6 2 = 3)
    ∧ ((0xDB : Byte).extractLsb' 3 3 = 3 ∧ (0xDB : Byte).extractLsb' 6 2 = 3)
    ∧ ((0x15 : Byte).extractLsb' 3 3 ≠ 5 ∧ (0x15 : Byte).extractLsb' 3 3 ≠ 3)
    ∧ (0xCB : Byte).extractLsb' 3 3 = 1 ∧ (0xD8 : Byte).extractLsb' 3 3 = 3
    ∧ ((0xC0 : Byte).extractLsb' 3 3 ≠ 1 ∧ (0xC0 : Byte).extractLsb' 3 3 ≠ 3)
    ∧ (0x0B : Byte) ≠ 0x00 ∧ (0xF3 : Byte) ∈ [(0x66 : Byte), 0x67, 0x26, 0x2E, 0x36, 0x3E, 0x64, 0x65, 0xF0, 0xF2, 0xF3]
    ∧ ((Instr.intN (.imm 0x20)).wf = true ∧ Instr.intN (.imm 0x20) ≠ .intN .int3 ∧ Instr.intN (.imm 0x20) ≠ .intN .into)
    ∧ (0x90 : Byte) ∉ [(0xEA : Byte), 0x9A, 0xCF, 0xCD, 0xCC, 0xCE, 0xFF, 0x0F]
    ∧ (0x90 : Byte) ∉ [(0x66 : Byte), 0x67, 0x26, 0x2E, 0x36, 0x3E, 0x64, 0x65, 0xF0, 0xF2, 0xF3] := by decide

/-! Steps. -/

/-- These bytes stand at EIP. -/
def atEip (bs : List Byte) : State := { running (cells 0x11000 bs) with gdtr := ⟨0, 0⟩ }

theorem witness_StepRunsDecodedInstr : boundaryEvent (atEip [0xCF]) = .run
    ∧ fetch (boundaryState (atEip [0xCF])) = .ok (.instr .iret 1) := by decide

theorem witness_StepRunsBytesAtEip : (Instr.intN (.imm 0x20)).wf = true ∧ boundaryEvent (atEip [0xCD, 0x20]) = .run
    ∧ ∀ j, j < (encode (.intN (.imm 0x20))).length →
      ∃ b, (encode (.intN (.imm 0x20)))[j]? = some b ∧ fetchByte (boundaryState (atEip [0xCD, 0x20])) j = .ok b := by
  refine ⟨rfl, rfl, fun j hj => ?_⟩
  match j, hj with
  | 0, _ => exact ⟨0xCD, rfl, rfl⟩
  | 1, _ => exact ⟨0x20, rfl, rfl⟩

theorem witness_StepOnOtherBytes : boundaryEvent (atEip [0xFF, 0xDB]) = .run
    ∧ fetch (boundaryState (atEip [0xFF, 0xDB])) = .ok .undefined
    ∧ boundaryEvent (atEip [0x66]) = .run ∧ fetch (boundaryState (atEip [0x66])) = .ok (.prefixByte 0x66)
    ∧ boundaryEvent (atEip [0x90]) = .run ∧ fetch (boundaryState (atEip [0x90])) = .ok (.outOfScope 0x90)
    ∧ boundaryEvent (atEip []) = .run ∧ fetch (boundaryState (atEip [])) = .error (.fault (.unwrittenMemory 0x11000)) := by decide

theorem witness_PlacedWordRuns : (24 ≤ 64 ∧ decodeTableWord 24 0x0F00D8 = some (.ltr (.reg .eax)))
    ∧ (64 ≤ 64 ∧ decodeTableWord 64 0x0F000CDD78563412 = some (.str (.mem (.sibNoBase 3 .ebx 0x12345678)))) := by decide

/-! LTR and STR. -/

/-- Task A's descriptor is available and EAX names it. -/
def beforeLtr : State := { poke runA 0x101C 0x8900 with gpr := { runA.gpr with eax := 0x18 } }

def availA : Desc := ⟨0x20000067, 0x00008900⟩

theorem witness_LtrLoadsTaskRegister : beforeLtr.pg = false ∧ beforeLtr.cpl = 0 ∧ readRM16 beforeLtr (.reg .eax) = .ok 0x18
    ∧ NamesTss beforeLtr 0x18 0x1018 availA ∧ descBusy availA = false ∧ descPresent availA = true :=
  ⟨rfl, rfl, rfl, ⟨rfl, rfl, rfl, rfl⟩, rfl, rfl⟩

theorem witness_LtrUnderPaging : beforeLtr.cpl = 0 ∧ readRM16 beforeLtr (.reg .eax) = .ok 0x18
    ∧ NamesTss beforeLtr 0x18 0x1018 availA ∧ descBusy availA = false ∧ descPresent availA = true
    ∧ ∃ s', setBusy 0x1018 true beforeLtr = .ok s' :=
  ⟨rfl, rfl, ⟨rfl, rfl, rfl, rfl⟩, rfl, rfl, _, rfl⟩

/-- Task A runs with this selector in EAX. -/
def withAx (v : Word) : State := { runA with gpr := { runA.gpr with eax := v } }

/-- Privilege, null (0 and 3), TI = 1, beyond the GDT, 16-bit TSS, no TSS, busy, not present. -/
theorem witness_LtrRefusals : runA3.cpl ≠ 0
    ∧ readRM16 (withAx 0) (.reg .eax) = .ok 0 ∧ (0 : Half) &&& 0xFFFC = 0
    ∧ readRM16 (withAx 3) (.reg .eax) = .ok 3 ∧ (3 : Half) &&& 0xFFFC = 0
    ∧ readRM16 (withAx 4) (.reg .eax) = .ok 4 ∧ (4 : Half) &&& 4 = 4
    ∧ readRM16 (withAx 0x40) (.reg .eax) = .ok 0x40 ∧ readDesc (withAx 0x40) 0x40 = .ok none
    ∧ readDesc (poke runA 0x1024 0x8100) 0x20 = .ok (some (0x1020, ⟨0x21000067, 0x8100⟩)) ∧ isTss16 ⟨0x21000067, 0x8100⟩ = true
    ∧ readDesc runA 0x28 = .ok (some (0x1028, gateB)) ∧ isTss16 gateB = false ∧ isTss gateB = false
    ∧ readDesc runA 0x18 = .ok (some (0x1018, descA)) ∧ isTss descA = true ∧ descBusy descA = true
    ∧ readDesc (poke runA 0x1024 0x0900) 0x20 = .ok (some (0x1020, ⟨0x21000067, 0x0900⟩)) ∧ isTss ⟨0x21000067, 0x0900⟩ = true
    ∧ descBusy ⟨0x21000067, 0x0900⟩ = false ∧ descPresent ⟨0x21000067, 0x0900⟩ = false := by decide +kernel

theorem witness_StrToMemory : runA.pg = false ∧ operandLinear runA (.base .ebx) 2 .write = .ok 0xA3 := ⟨rfl, rfl⟩

/-! Far transfers. -/

/-- A switch to task B is ready, for each kind but IRET. -/
theorem readyB {k : SwitchKind} (hk : k ≠ .iret) : SwitchReady k 0x20 0x1020 descB runA where
  paging := rfl
  names := ⟨rfl, rfl, rfl, rfl⟩
  present := rfl
  busy := by cases k <;> first | rfl | contradiction
  limit := by decide
  image := by decide +kernel
  outgoing := fun _ => by decide +kernel

theorem leadsDirectly : FarLeadsTo runA 0x20 0x20 := ⟨rfl, .inl ⟨0x1020, descB, ⟨rfl, rfl, rfl, rfl⟩, rfl, rfl⟩⟩

theorem leadsThroughGate : FarLeadsTo runA 0x2B 0x20 := ⟨rfl, .inr ⟨0x1028, gateB, rfl, rfl, rfl, rfl, rfl⟩⟩

/-- ESI and EBX hold the address of a far pointer to the gate. -/
def withFarPtr : State :=
  { running (gdtCells ++ tssB ++ cells 0x4000 [0, 0, 0, 0, 0x2B, 0x00]) with gpr := { runA.gpr with esi := 0x4000, ebx := 0x4000 } }

theorem readyFarPtr {k : SwitchKind} (hk : k ≠ .iret) : SwitchReady k 0x20 0x1020 descB withFarPtr where
  paging := rfl
  names := ⟨rfl, rfl, rfl, rfl⟩
  present := rfl
  busy := by cases k <;> first | rfl | contradiction
  limit := by decide
  image := by decide +kernel
  outgoing := fun _ => by decide +kernel

theorem leadsFarPtr : FarLeadsTo withFarPtr 0x2B 0x20 := ⟨rfl, .inr ⟨0x1028, gateB, rfl, rfl, rfl, rfl, rfl⟩⟩

theorem readsFarPtr : readFarPtr withFarPtr (.base .esi) = .ok (0x2B, 0) ∧ readFarPtr withFarPtr (.base .ebx) = .ok (0x2B, 0) := by
  decide +kernel

theorem witness_FarJumpSwitchesTask : (FarLeadsTo runA 0x20 0x20 ∧ SwitchReady .jmp 0x20 0x1020 descB runA)
    ∧ (FarLeadsTo runA 0x2B 0x20 ∧ SwitchReady .jmp 0x20 0x1020 descB runA)
    ∧ readFarPtr withFarPtr (.base .esi) = .ok (0x2B, 0) ∧ FarLeadsTo withFarPtr 0x2B 0x20
    ∧ SwitchReady .jmp 0x20 0x1020 descB withFarPtr
    ∧ (∃ s' img, SwitchRuns .jmp false 0x20 (runA.eip + 7) 0x1020 descB runA s' img)
    ∧ ∃ s' img, SwitchRuns .jmp false 0x20 (withFarPtr.eip + BitVec.ofNat 32 (1 + addrLength (.base .esi))) 0x1020 descB withFarPtr s' img :=
  ⟨⟨leadsDirectly, readyB (by decide)⟩, ⟨leadsThroughGate, readyB (by decide)⟩, readsFarPtr.1, leadsFarPtr, readyFarPtr (by decide),
    switchRuns_of_ready _ (readyB (by decide)), switchRuns_of_ready _ (readyFarPtr (by decide))⟩

theorem witness_FarCallSwitchesTask : (FarLeadsTo runA 0x20 0x20 ∧ SwitchReady .call 0x20 0x1020 descB runA)
    ∧ (FarLeadsTo runA 0x2B 0x20 ∧ SwitchReady .call 0x20 0x1020 descB runA)
    ∧ readFarPtr withFarPtr (.base .ebx) = .ok (0x2B, 0) ∧ FarLeadsTo withFarPtr 0x2B 0x20
    ∧ SwitchReady .call 0x20 0x1020 descB withFarPtr
    ∧ (∃ s' img, SwitchRuns .call false 0x20 (runA.eip + 7) 0x1020 descB runA s' img)
    ∧ ∃ s' img, SwitchRuns .call false 0x20 (withFarPtr.eip + BitVec.ofNat 32 (1 + addrLength (.base .ebx))) 0x1020 descB withFarPtr s' img :=
  ⟨⟨leadsDirectly, readyB (by decide)⟩, ⟨leadsThroughGate, readyB (by decide)⟩, readsFarPtr.2, leadsFarPtr, readyFarPtr (by decide),
    switchRuns_of_ready _ (readyB (by decide)), switchRuns_of_ready _ (readyFarPtr (by decide))⟩

/-- An LDT of one entry that is a TSS descriptor. -/
def withLdt : State := { runA with ldtr := { sel := 0x48, hidden := .table 0x1020 7 } }

/-- A transfer that leads to task A, which is busy, directly and through the gate. -/
theorem leadsToBusy : FarLeadsTo runA 0x18 0x18 ∧ FarLeadsTo (poke runA 0x1028 0x00180000) 0x2B 0x18 :=
  ⟨⟨rfl, .inl ⟨0x1018, descA, ⟨rfl, rfl, rfl, rfl⟩, rfl, rfl⟩⟩,
    rfl, .inr ⟨0x1028, ⟨0x00180000, 0xE500⟩, by decide +kernel, rfl, rfl, rfl, rfl⟩⟩

/-- Null (0 and 3); beyond the GDT; TI = 1; privilege by CPL 1 above DPL 0 and by RPL 1 above DPL 0; a 16-bit TSS and a gate not present
with CPL and RPL equal to the DPL. A switch that the busy test ends, directly and through a gate, is met by `leadsToBusy`. -/
theorem witness_FarTransferRefusals : (FarLeadsTo runA 0x18 0x18 ∧ FarLeadsTo (poke runA 0x1028 0x00180000) 0x2B 0x18)
    ∧ farOf (.jmpPtr 0 0x18) runA = some (.jmp, 0x18, 0) ∧ findTss .jmp false 0x18 runA = .error (.raise (.gp 0x18))
    ∧ farOf (.callPtr 0 0x2B) (poke runA 0x1028 0x00180000) = some (.call, 0x2B, 0)
    ∧ findTss .call false 0x18 (poke runA 0x1028 0x00180000) = .error (.raise (.gp 0x18))
    ∧ readDesc (poke runA 0x1024 0x8100) 0x20 = .ok (some (0x1020, ⟨0x21000067, 0x8100⟩)) ∧ isTss16 ⟨0x21000067, 0x8100⟩ = true
    ∧ (0x20 : Half) &&& 4 = 0 ∧ (poke runA 0x1024 0x8100).cpl.toNat ≤ (descDPL ⟨0x21000067, 0x8100⟩).toNat
    ∧ ((0x20 : Half) &&& 3).toNat ≤ (descDPL ⟨0x21000067, 0x8100⟩).toNat
    ∧ farOf (.jmpPtr 0 3) runA = some (.jmp, 3, 0) ∧ (3 : Half) &&& 0xFFFC = 0
    ∧ farOf (.callPtr 0 0x40) runA = some (.call, 0x40, 0) ∧ (0x40 : Half) &&& 0xFFFC ≠ 0 ∧ readDesc runA 0x40 = .ok none
    ∧ farOf (.jmpPtr 0 4) withLdt = some (.jmp, 4, 0) ∧ (4 : Half) &&& 0xFFFC ≠ 0 ∧ readDesc withLdt 4 = .ok (some (0x1020, descB))
    ∧ isTss descB = true ∧ (4 : Half) &&& 4 = 4
    ∧ readDesc { runA with cpl := 1 } 0x20 = .ok (some (0x1020, descB)) ∧ (1 : BitVec 2).toNat > (descDPL descB).toNat
    ∧ readDesc runA 0x21 = .ok (some (0x1020, descB)) ∧ ((0x21 : Half) &&& 3).toNat > (descDPL descB).toNat
    ∧ readDesc (poke runA3 0x102C 0x6500) 0x2B = .ok (some (0x1028, ⟨0x00200000, 0x6500⟩)) ∧ isTaskGate ⟨0x00200000, 0x6500⟩ = true
    ∧ (poke runA3 0x102C 0x6500).cpl.toNat ≤ (descDPL ⟨0x00200000, 0x6500⟩).toNat
    ∧ ((0x2B : Half) &&& 3).toNat ≤ (descDPL ⟨0x00200000, 0x6500⟩).toNat ∧ descPresent ⟨0x00200000, 0x6500⟩ = false
    ∧ farOf (.jmpMem (.base .esi)) withFarPtr = some (.jmp, 0x2B, 0) := by
  refine ⟨leadsToBusy, ?_⟩
  and_intros <;> decide +kernel

/-- Entry 1 holds a code segment descriptor (V66). -/
theorem witness_FarTransferOther :
    farOf (.jmpPtr 0 8) (running (cells 0x1008 (rows [⟨0x0000FFFF, 0x00CF9B00⟩]))) = some (.jmp, 8, 0) ∧ selNull 8 = false
    ∧ readDesc (running (cells 0x1008 (rows [⟨0x0000FFFF, 0x00CF9B00⟩]))) 8 = .ok (some (0x1008, ⟨0x0000FFFF, 0x00CF9B00⟩))
    ∧ isTss ⟨0x0000FFFF, 0x00CF9B00⟩ = false ∧ isTss16 ⟨0x0000FFFF, 0x00CF9B00⟩ = false
    ∧ isTaskGate ⟨0x0000FFFF, 0x00CF9B00⟩ = false := by decide +kernel

/-! IRET. -/

/-- Task B has been called by task A and both are busy. -/
def nested : State := poke runB 0x1024 0x8B00

theorem readyBack : SwitchReady .iret 0x18 0x1018 descA nested where
  paging := rfl
  names := ⟨rfl, rfl, rfl, rfl⟩
  present := rfl
  busy := rfl
  limit := by decide
  image := by decide +kernel
  outgoing := fun _ => by decide +kernel

theorem witness_IretReturnsToLinkedTask : flagNT nested.eflags = true ∧ read16 nested nested.tr.base = .ok 0x18
    ∧ SwitchReady .iret 0x18 0x1018 descA nested
    ∧ ∃ s' img, SwitchRuns .iret false 0x18 (nested.eip + 1) 0x1018 descA nested s' img :=
  ⟨rfl, by decide +kernel, readyBack, switchRuns_of_ready _ readyBack⟩

theorem witness_IretWithoutNestedTask : flagNT runA.eflags = false := rfl

/-- Task A runs with NT set and this back-link. -/
def linkedTo (b : Byte) (high : Word) : State :=
  { running (cells 0x1018 (rows [descA, ⟨0x21000067, high⟩, gateB, descC, ⟨0x23000066, 0x8B00⟩]) ++ cells 0x2000 [b, 0]) with
    eflags := 0x4202 }

/-- Null, TI = 1, beyond the GDT, no TSS, not present, not busy, a limit of 102. -/
theorem witness_IretRefusals : flagNT (linkedTo 0 0x8B00).eflags = true ∧ read16 (linkedTo 0 0x8B00) 0x2000 = .ok 0
    ∧ (0 : Half) &&& 0xFFFC = 0
    ∧ read16 (linkedTo 4 0x8B00) 0x2000 = .ok 4 ∧ (4 : Half) &&& 4 = 4
    ∧ read16 (linkedTo 0x40 0x8B00) 0x2000 = .ok 0x40 ∧ readDesc (linkedTo 0x40 0x8B00) 0x40 = .ok none
    ∧ readDesc (linkedTo 0x28 0x8B00) 0x28 = .ok (some (0x1028, gateB)) ∧ isTss16 gateB = false ∧ isTss gateB = false
    ∧ readDesc (linkedTo 0x20 0x0B00) 0x20 = .ok (some (0x1020, ⟨0x21000067, 0x0B00⟩)) ∧ isTss ⟨0x21000067, 0x0B00⟩ = true
    ∧ descPresent ⟨0x21000067, 0x0B00⟩ = false
    ∧ readDesc (linkedTo 0x20 0x8900) 0x20 = .ok (some (0x1020, descB)) ∧ isTss descB = true ∧ descPresent descB = true
    ∧ descBusy descB = false
    ∧ readDesc (linkedTo 0x38 0x8B00) 0x38 = .ok (some (0x1038, ⟨0x23000066, 0x8B00⟩)) ∧ isTss ⟨0x23000066, 0x8B00⟩ = true
    ∧ descPresent ⟨0x23000066, 0x8B00⟩ = true ∧ descBusy ⟨0x23000066, 0x8B00⟩ = true ∧ (effLimit ⟨0x23000066, 0x8B00⟩).toNat = 102 := by
  decide +kernel

/-! What cannot be read. -/

/-- Entry 2 of the GDT, which nothing has written, is named by the task gate of the GDT and by that of IDT entry 20h. -/
def gateLost : State := poke runA 0x1028 0x00100000
def intLost : State := poke runAIdt 0x1900 0x00100000

theorem opensLost (o : Origin) : GateOpen intLost 0x20 o ⟨0x00100000, 0x8500⟩ := ⟨by decide +kernel, rfl, by cases o <;> rfl, rfl⟩

/-- An operand, the descriptor of entry 2 named directly, through a gate, an IDT gate and a back-link, a back-link itself and an IDT
entry: nothing has written them. -/
theorem witness_AccessStops : (runA.cpl = 0 ∧ readRM16 runA (.mem (.base .ebx)) = .error (.fault (.unwrittenMemory 0xA3))
    ∧ readFarPtr runA (.base .esi) = .error (.fault (.unwrittenMemory 0xA6))
    ∧ readRM16 (withAx 0x10) (.reg .eax) = .ok 0x10 ∧ (withAx 0x10).cpl = 0 ∧ (0x10 : Half) &&& 0xFFFC ≠ 0 ∧ (0x10 : Half) &&& 4 = 0
    ∧ readDesc (withAx 0x10) 0x10 = .error (.fault (.unwrittenMemory 0x1010))
    ∧ farOf (.callPtr 0 0x10) runA = some (.call, 0x10, 0) ∧ readDesc runA 0x10 = .error (.fault (.unwrittenMemory 0x1010))
    ∧ flagNT { runA with eflags := 0x4202 }.eflags = true ∧ read16 { runA with eflags := 0x4202 } 0x2000 = .error (.fault (.unwrittenMemory 0x2000))
    ∧ intVector (.imm 0x21) runAIdt = some 0x21 ∧ readIdt runAIdt 0x21 = .error (.fault (.unwrittenMemory 0x1908)))
    ∧ (farOf (.jmpPtr 0 0x2B) gateLost = some (.jmp, 0x2B, 0) ∧ FarLeadsTo gateLost 0x2B 0x10
      ∧ readDesc gateLost 0x10 = .error (.fault (.unwrittenMemory 0x1010)))
    ∧ (flagNT (linkedTo 0x10 0x8B00).eflags = true ∧ read16 (linkedTo 0x10 0x8B00) (linkedTo 0x10 0x8B00).tr.base = .ok 0x10
      ∧ readDesc (linkedTo 0x10 0x8B00) 0x10 = .error (.fault (.unwrittenMemory 0x1010)))
    ∧ intVector (.imm 0x20) intLost = some 0x20 ∧ GateOpen intLost 0x20 .software ⟨0x00100000, 0x8500⟩
    ∧ GateOpen intLost 0x20 .external ⟨0x00100000, 0x8500⟩ ∧ gateSel ⟨0x00100000, 0x8500⟩ = 0x10
    ∧ readDesc intLost 0x10 = .error (.fault (.unwrittenMemory 0x1010)) :=
  ⟨by decide +kernel, ⟨rfl, ⟨rfl, .inr ⟨0x1028, ⟨0x00100000, 0xE500⟩, by decide +kernel, rfl, rfl, rfl, rfl⟩⟩, by decide +kernel⟩,
    by decide +kernel, rfl, opensLost _, opensLost _, rfl, by decide +kernel⟩

/-! Interrupt instructions, exceptions, external interrupts. -/

theorem readyC : SwitchReady .int 0x30 0x1030 descC runAIdt where
  paging := rfl
  names := ⟨rfl, rfl, rfl, rfl⟩
  present := rfl
  busy := rfl
  limit := by decide
  image := by decide +kernel
  outgoing := fun h => by cases h

theorem idt20 : readIdt runAIdt 0x20 = .ok (some gateC) := by decide +kernel

theorem idt0D : readIdt runAIdt 0x0D = .ok (some gateC) := by decide +kernel

theorem witness_InterruptInstrSwitchesTask : intVector (.imm 0x20) runAIdt = some 0x20 ∧ GateOpen runAIdt 0x20 .software gateC
    ∧ SwitchReady .int (gateSel gateC) 0x1030 descC runAIdt
    ∧ ∃ s' img, SwitchRuns .int false (gateSel gateC) (runAIdt.eip + BitVec.ofNat 32 (instrLength (.intN (.imm 0x20)))) 0x1030 descC
      runAIdt s' img := ⟨rfl, ⟨idt20, rfl, rfl, rfl⟩, readyC, switchRuns_of_ready _ readyC⟩

theorem witness_IntoWithoutOverflow : runA.eflags &&& 0x800 = 0 := by decide

/-- Task C, to which both gates of the IDT lead, is busy. -/
def intBusy : State := poke runAIdt 0x1034 0x8B00

/-- INT 3 with an IDT that ends before entry 3; INTO with the overflow flag set through a gate that is not present, CPL equal to its
DPL; CPL above the DPL, the gate present and not present; an open gate to a task that is busy; an entry that is no task gate. -/
theorem witness_InterruptInstrRefusals : GateOpen intBusy 0x20 .software gateC
    ∧ findTss .int false (gateSel gateC) intBusy = .error (.raise (.gp 0x30)) ∧ intVector .int3 runA = some 3 ∧ readIdt runA 3 = .ok none
    ∧ intVector .into { runA with eflags := 0x800 } = some 4
    ∧ readIdt { running (cells 0x1820 (rows [⟨0x00300000, 0x0500⟩])) with idtr := ⟨0x1800, 0x27⟩ } 4
      = .ok (some ⟨0x00300000, 0x0500⟩)
    ∧ isTaskGate ⟨0x00300000, 0x0500⟩ = true ∧ (0 : BitVec 2).toNat ≤ (descDPL ⟨0x00300000, 0x0500⟩).toNat
    ∧ descPresent ⟨0x00300000, 0x0500⟩ = false
    ∧ readIdt { runAIdt with cpl := 1 } 0x20 = .ok (some gateC) ∧ isTaskGate gateC = true
    ∧ (descDPL gateC).toNat < (1 : BitVec 2).toNat ∧ descPresent gateC = true
    ∧ readIdt { poke runAIdt 0x1904 0x0500 with cpl := 1 } 0x20 = .ok (some ⟨0x00300000, 0x0500⟩)
    ∧ (descDPL ⟨0x00300000, 0x0500⟩).toNat < (1 : BitVec 2).toNat
    ∧ readIdt (poke runAIdt 0x1904 0x8E00) 0x20 = .ok (some ⟨0x00300000, 0x8E00⟩) ∧ isTaskGate ⟨0x00300000, 0x8E00⟩ = false := by
  refine ⟨⟨by decide +kernel, rfl, rfl, rfl⟩, ?_⟩
  decide +kernel

/-- A present task gate; an entry that is no task gate. -/
theorem witness_ExceptionEntersHandler : (0x0D : Byte) = exnVector (.gp 0) ∧ readIdt runAIdt 0x0D = .ok (some gateC)
    ∧ isTaskGate gateC = true ∧ descPresent gateC = true ∧ SwitchReady .int (gateSel gateC) 0x1030 descC runAIdt
    ∧ (∃ s' img, SwitchRuns .int true (gateSel gateC) runAIdt.eip 0x1030 descC { runAIdt with lastExn := some (.gp 0) } s' img)
    ∧ readIdt (poke runAIdt 0x186C 0x8E00) 0x0D = .ok (some ⟨0x00300000, 0x8E00⟩) ∧ isTaskGate ⟨0x00300000, 0x8E00⟩ = false :=
  ⟨rfl, idt0D, rfl, rfl, readyC, switchRuns_of_ready (s := { runAIdt with lastExn := some (.gp 0) }) _
    ⟨readyC.1, readyC.2, readyC.3, readyC.4, readyC.5, readyC.6, readyC.7⟩, by decide +kernel, rfl⟩

/-- No IDT entry; a gate that is not present (V54); a gate to a busy task (V55). -/
theorem witness_ExceptionDuringDelivery :
    (exnVector (.gp 0) = 0x0D ∧ readIdt (poke runAIdt 0x186C 0x0500) 0x0D = .ok (some ⟨0x00300000, 0x0500⟩)
      ∧ readIdt (poke runAIdt 0x1904 0x0500) 0x20 = .ok (some ⟨0x00300000, 0x0500⟩) ∧ isTaskGate ⟨0x00300000, 0x0500⟩ = true
      ∧ descPresent ⟨0x00300000, 0x0500⟩ = false)
    ∧ (readIdt intBusy 0x0D = .ok (some gateC) ∧ readIdt intBusy 0x20 = .ok (some gateC) ∧ isTaskGate gateC = true
      ∧ descPresent gateC = true
      ∧ taskSwitch .int true (gateSel gateC) intBusy.eip { intBusy with lastExn := some (.gp 0) } = .error (.raise (.gp 0x31))
      ∧ taskSwitch .int true (gateSel gateC) intBusy.eip intBusy = .error (.raise (.gp 0x31)))
    ∧ vectorTo (exnVector .ud) .exception runA.eip { runA with lastExn := some .ud } = .error (.raise (.gp 0x33))
    ∧ vectorTo 0x20 .external runA.eip runA = .error (.raise (.gp 0x103))
    ∧ readIdt runA (exnVector .ud) = .ok none ∧ readIdt runA 0x20 = .ok none := by
  refine ⟨by decide +kernel, ⟨by decide +kernel, by decide +kernel, rfl, rfl, ?_, ?_⟩, by decide⟩
  · exact taskSwitch_err (by decide +kernel)
  · exact taskSwitch_err (by decide +kernel)

theorem witness_PendingExceptionFirst : { runA with pending := some .db }.pending = some .db := rfl

/-- The outside presents vector 20h. -/
def presented (s : State) : State := { s with extIntEnabled := true, extInts := [some 0x20] }

/-- A present task gate; an entry that is no task gate. -/
theorem witness_ExternalInterruptEntersHandler :
    ((presented runAIdt).pending = none ∧ (presented runAIdt).extIntEnabled = true ∧ (presented runAIdt).extInts = some 0x20 :: [])
    ∧ readIdt (presented runAIdt) 0x20 = .ok (some gateC) ∧ isTaskGate gateC = true ∧ descPresent gateC = true
    ∧ SwitchReady .int (gateSel gateC) 0x1030 descC (presented runAIdt)
    ∧ (∃ s' img, SwitchRuns .int true (gateSel gateC) runAIdt.eip 0x1030 descC { presented runAIdt with extInts := [] } s' img)
    ∧ (presented (poke runAIdt 0x1904 0x8E00)).pending = none
    ∧ readIdt (presented (poke runAIdt 0x1904 0x8E00)) 0x20 = .ok (some ⟨0x00300000, 0x8E00⟩)
    ∧ isTaskGate ⟨0x00300000, 0x8E00⟩ = false :=
  ⟨⟨rfl, rfl, rfl⟩, idt20, rfl, rfl, ⟨readyC.1, readyC.2, readyC.3, readyC.4, readyC.5, readyC.6, readyC.7⟩,
    switchRuns_of_ready (s := { presented runAIdt with extInts := [] }) _
      ⟨readyC.1, readyC.2, readyC.3, readyC.4, readyC.5, readyC.6, readyC.7⟩, rfl, by decide +kernel, rfl⟩

/-- Interrupts shut out; nothing presented, by an empty list and by a head that presents nothing. -/
theorem witness_NoInterruptRunsInstruction : runA.pending = none ∧ admitsExternal runA = false ∧ runA.extIntEnabled = false
    ∧ runA.extInts = []
    ∧ { runA with extIntEnabled := true, extInts := [none, some 0x20] }.pending = none
    ∧ { runA with extIntEnabled := true, extInts := [none, some 0x20] }.extInts = none :: [some 0x20] :=
  ⟨rfl, rfl, rfl, rfl, rfl, rfl⟩

/-! The task switch. -/

/-- TI = 1; null (0 and 3); beyond the GDT; no TSS; 16-bit TSS. -/
theorem witness_SwitchNeedsTssInGdt : (4 : Half) &&& 4 = 4 ∧ (0 : Half) &&& 0xFFFC = 0 ∧ (3 : Half) &&& 0xFFFC = 0
    ∧ (0x40 : Half) &&& 4 = 0 ∧ (0x40 : Half) &&& 0xFFFC ≠ 0 ∧ readDesc runA 0x40 = .ok none
    ∧ (0x28 : Half) &&& 4 = 0 ∧ (0x28 : Half) &&& 0xFFFC ≠ 0 ∧ readDesc runA 0x28 = .ok (some (0x1028, gateB))
    ∧ isTss gateB = false ∧ isTss16 gateB = false
    ∧ (0x20 : Half) &&& 4 = 0 ∧ (0x20 : Half) &&& 0xFFFC ≠ 0
    ∧ readDesc (poke runA 0x1024 0x8300) 0x20 = .ok (some (0x1020, ⟨0x21000067, 0x8300⟩)) ∧ isTss16 ⟨0x21000067, 0x8300⟩ = true := by
  decide +kernel

theorem witness_SwitchNeedsPresent : NamesTss (poke runA 0x1024 0x0B00) 0x20 0x1020 ⟨0x21000067, 0x0B00⟩
    ∧ descPresent ⟨0x21000067, 0x0B00⟩ = false := ⟨⟨rfl, rfl, by decide +kernel, rfl⟩, rfl⟩

theorem witness_SwitchBusyTest : (NamesTss runA 0x18 0x1018 descA ∧ descPresent descA = true ∧ descBusy descA = true)
    ∧ (NamesTss runA 0x20 0x1020 descB ∧ descPresent descB = true ∧ descBusy descB = false) :=
  ⟨⟨⟨rfl, rfl, rfl, rfl⟩, rfl, rfl⟩, ⟨rfl, rfl, rfl, rfl⟩, rfl, rfl⟩

theorem witness_SwitchLimitTest : NamesTss runA 0x38 0x1038 descD ∧ descPresent descD = true ∧ busyAsNeeded .jmp descD = true
    ∧ (effLimit descD).toNat < 103 := ⟨⟨rfl, rfl, rfl, rfl⟩, rfl, rfl, by decide⟩

theorem findsB : findTss .jmp false 0x20 runA = .ok (0x1020, descB) := by decide +kernel

theorem witness_SwitchRaisesOnlyBeforeCommit : findTss .jmp false 0x20 runA = .ok (0x1020, descB)
    ∧ taskSwitch .jmp false 0x18 0 runA = .error (.raise (.gp 0x18)) ∧ selNull (segGet runA.segs .cs).sel = false
    ∧ selNull withLdt.ldtr.sel = false ∧ selTI withLdt.ldtr.sel = false := ⟨findsB, rfl, rfl, rfl, rfl⟩

theorem witness_SwitchEntersTask : SwitchReady .jmp 0x20 0x1020 descB runA ∧ SwitchReady .call 0x20 0x1020 descB runA
    ∧ SwitchReady .int 0x30 0x1030 descC runAIdt ∧ SwitchReady .iret 0x18 0x1018 descA nested :=
  ⟨readyB (by decide), readyB (by decide), readyC, readyBack⟩

/-- The switch from task A to task B by a JMP and by a CALL ends, and so does the return from task B to task A. -/
theorem switchesJmp : ∃ t, taskSwitch .jmp false 0x20 0x11007 runA = .ok t := by
  obtain ⟨t, h, -⟩ := okAnd_exists (p := fun _ => true)
    (show okAnd (taskSwitch .jmp false 0x20 0x11007 runA) (fun _ => true) = true by decide +kernel)
  exact ⟨t, h⟩

theorem switchesCall : ∃ t, taskSwitch .call false 0x20 0x11007 runA = .ok t := by
  obtain ⟨t, h, -⟩ := okAnd_exists (p := fun _ => true)
    (show okAnd (taskSwitch .call false 0x20 0x11007 runA) (fun _ => true) = true by decide +kernel)
  exact ⟨t, h⟩

theorem switchesInt : ∃ t, taskSwitch .int true 0x20 0x11000 runA = .ok t := by
  obtain ⟨t, h, -⟩ := okAnd_exists (p := fun _ => true)
    (show okAnd (taskSwitch .int true 0x20 0x11000 runA) (fun _ => true) = true by decide +kernel)
  exact ⟨t, h⟩

theorem switchesIret : ∃ t, taskSwitch .iret false 0x18 0x20001 nested = .ok t := by
  obtain ⟨t, h, -⟩ := okAnd_exists (p := fun _ => true)
    (show okAnd (taskSwitch .iret false 0x18 0x20001 nested) (fun _ => true) = true by decide +kernel)
  exact ⟨t, h⟩

theorem witness_SwitchLoadsUnderPaging : ∃ s' img, SwitchRuns .jmp false 0x20 0x11007 0x1020 descB runA s' img :=
  switchRuns_of_ready _ (readyB (by decide))

theorem witness_SwitchFrame : (∃ t, taskSwitch .jmp false 0x20 0x11007 runA = .ok t) ∧ runA.pg = false := ⟨switchesJmp, rfl⟩

theorem witness_SwitchSavesTask : SwitchReady .call 0x20 0x1020 descB runA ∧ switchApart 0x1020 descB runA = true
    ∧ ∃ t, taskSwitch .call false 0x20 0x11007 runA = .ok t := ⟨readyB (by decide), by decide, switchesCall⟩

theorem witness_SwitchMemoryFrame : runA.pg = false ∧ findTss .jmp false 0x20 runA = .ok (0x1020, descB)
    ∧ (∃ t, taskSwitch .jmp false 0x20 0x11007 runA = .ok t)
    ∧ switchWrites .jmp 0x1020 descB runA 0x201F = false ∧ switchWrites .jmp 0x1020 descB runA 0x2060 = false
    ∧ switchWrites .jmp 0x1020 descB runA 0x1024 = false := ⟨rfl, findsB, switchesJmp, rfl, rfl, rfl⟩

/-- The columns JMP, CALL, IRET, and an interrupt, which takes the CALL column. -/
theorem witness_LinkingTable :
    (runA.pg = false ∧ tasksApart 0x1020 descB runA = true ∧ read32 runA (outgoingDesc runA + 4) = .ok 0x8B00)
    ∧ (findTss .jmp false 0x20 runA = .ok (0x1020, descB) ∧ ∃ t, taskSwitch .jmp false 0x20 0x11007 runA = .ok t)
    ∧ (findTss .call false 0x20 runA = .ok (0x1020, descB) ∧ ∃ t, taskSwitch .call false 0x20 0x11007 runA = .ok t)
    ∧ (findTss .int true 0x20 runA = .ok (0x1020, descB) ∧ ∃ t, taskSwitch .int true 0x20 0x11000 runA = .ok t)
    ∧ nested.pg = false ∧ findTss .iret false 0x18 nested = .ok (0x1018, descA) ∧ tasksApart 0x1018 descA nested = true
    ∧ read32 nested (outgoingDesc nested + 4) = .ok 0x8B00 ∧ ∃ t, taskSwitch .iret false 0x18 0x20001 nested = .ok t :=
  ⟨⟨rfl, by decide, by decide +kernel⟩, ⟨findsB, switchesJmp⟩, ⟨findTss_ready (readyB (by decide)), switchesCall⟩,
    ⟨findTss_ready (readyB (by decide)), switchesInt⟩, rfl, findTss_ready readyBack, by decide, by decide +kernel, switchesIret⟩

theorem witness_LtrAndSwitchGivePremiseTr : (SwitchReady .iret 0x18 0x1018 descA nested ∧ tasksApart 0x1018 descA nested = true
      ∧ ∃ t, taskSwitch .iret false 0x18 0x20001 nested = .ok t)
    ∧ beforeLtr.pg = false ∧ beforeLtr.cpl = 0 ∧ readRM16 beforeLtr (.reg .eax) = .ok 0x18
    ∧ NamesTss beforeLtr 0x18 0x1018 availA ∧ descBusy availA = false ∧ descPresent availA = true :=
  ⟨⟨readyBack, by decide, switchesIret⟩, witness_LtrLoadsTaskRegister⟩

/-- The GDT of a legal start: task B is busy too. -/
def launchedGdt : Vector Desc 8 := #v[⟨0, 0⟩, ⟨0, 0⟩, ⟨0, 0⟩, descA, ⟨0x21000067, 0x8B00⟩, gateB, descC, descD]

/-- A legal start: task A runs, nested in task B; task C is available; the GDT and a one-entry IDT are there whole. -/
def launched : State :=
  { running (cells 0x1000 (rows launchedGdt.toList) ++ cells 0x1800 (rows [gateC]) ++ cells 0x2000 [0x20, 0x00]
      ++ cells 0x2124 (wordBytes 2) ++ tssC) with
    eflags := 0x4202, idtr := ⟨0x1800, 7⟩ }

theorem launched_reads : ∀ j : Fin 8, readDescAt launched (0x1000 + BitVec.ofNat 32 (8 * j.val)) = .ok (launchedGdt.get j) := by
  decide +kernel

theorem launched_tasks : ∀ j : Fin 8, isTss (launchedGdt.get j) = true → (j.val = 3 ∧ launchedGdt.get j = descA)
    ∨ (j.val = 4 ∧ launchedGdt.get j = ⟨0x21000067, 0x8B00⟩) ∨ (j.val = 6 ∧ launchedGdt.get j = descC)
    ∨ (j.val = 7 ∧ launchedGdt.get j = descD) := by decide +kernel

/-- Its TSS descriptors. -/
theorem launched_entry {i : Nat} {d : Desc} (h : TssEntry launched i d) :
    (i = 3 ∧ d = descA) ∨ (i = 4 ∧ d = ⟨0x21000067, 0x8B00⟩) ∨ (i = 6 ∧ d = descC) ∨ (i = 7 ∧ d = descD) := by
  obtain ⟨h0, h1, h2, h3⟩ := h
  have h1 : 8 * i + 7 ≤ 63 := h1
  have hi : i < 8 := by omega
  have e := Except.ok.inj (h2.symm.trans (launched_reads ⟨i, hi⟩))
  subst e
  exact launched_tasks ⟨i, hi⟩ h3

theorem launched_suspended {sel : Half} (h : Suspended launched sel) : sel = 0x20 := by
  induction h with
  | first bl _ hr =>
    have e : read16 launched launched.tr.base = .ok 0x20 := by decide +kernel
    exact (Except.ok.inj (e.symm.trans hr)).symm
  | next sel bl a d f _ hn hf hnt _ ih =>
    subst ih
    have e : readDesc launched 0x20 = .ok (some (0x1020, ⟨0x21000067, 0x8B00⟩)) := by decide +kernel
    obtain ⟨-, rfl⟩ := Prod.mk.inj (Option.some.inj (Except.ok.inj (e.symm.trans hn.2.2.1)))
    have e' : read32 launched (descBase ⟨0x21000067, 0x8B00⟩ + 36) = .ok 2 := by decide +kernel
    rw [← Except.ok.inj (e'.symm.trans hf)] at hnt
    cases hnt

theorem launched_tss : PremiseTss launched := by
  refine ⟨by decide, fun j _ => ⟨⟨_, rfl⟩, _, rfl⟩, by decide, fun i d h hi => ?_⟩
  rcases launched_entry h with ⟨rfl, rfl⟩ | ⟨rfl, rfl⟩ | ⟨rfl, rfl⟩ | ⟨rfl, rfl⟩
  · exact absurd rfl hi
  · decide
  · decide
  · decide

theorem launched_inChain {i : Nat} : InChain launched i ↔ i = 3 ∨ i = 4 := by
  constructor
  · rintro ⟨sel, a, d, rfl | h, -, e⟩
    · exact .inl e.symm
    · rw [launched_suspended h] at e
      exact .inr e.symm
  · rintro (rfl | rfl)
    · exact ⟨0x18, 0x1018, descA, .inl rfl, ⟨rfl, rfl, by decide +kernel, rfl⟩, rfl⟩
    · exact ⟨0x20, 0x1020, ⟨0x21000067, 0x8B00⟩, .inr (.first 0x20 rfl (by decide +kernel)), ⟨rfl, rfl, by decide +kernel, rfl⟩, rfl⟩

theorem launched_busy : PremiseBusy launched := by
  intro i d h
  rw [launched_inChain]
  rcases launched_entry h with ⟨rfl, rfl⟩ | ⟨rfl, rfl⟩ | ⟨rfl, rfl⟩ | ⟨rfl, rfl⟩ <;> decide

theorem readable_of_all {s : State} {a : Word} {n : Nat}
    (h : ((List.range n).all fun j => (readByte s (a + BitVec.ofNat 32 j)).toBool) = true) : readable s a n := by
  intro j hj
  have h := List.all_eq_true.mp h j (List.mem_range.mpr hj)
  cases hr : readByte s (a + BitVec.ofNat 32 j) with
  | ok b => exact ⟨b, rfl⟩
  | error e =>
    rw [hr] at h
    cases h

/-- The launch premises can be met. -/
theorem test_launch_premises : LaunchPremises launched where
  tables := ⟨readable_of_all (by decide +kernel), readable_of_all (by decide +kernel)⟩
  tr := ⟨0x1018, descA, ⟨rfl, rfl, by decide +kernel, rfl⟩, rfl, rfl, rfl, rfl⟩
  tss := launched_tss
  busy := launched_busy

/-- The first and the last byte of the GDT and of the IDT, and the busy byte of task C, in a JMP to task C. -/
theorem witness_SwitchLeavesTables : launched.pg = false ∧ PremiseTss launched ∧ offTables launched (descBase descC) = true
    ∧ findTss .jmp false 0x30 launched = .ok (0x1030, descC) ∧ (∃ t, taskSwitch .jmp false 0x30 0x11007 launched = .ok t)
    ∧ (0x1000, 0x40) ∈ tables launched ∧ inRange 0x1000 0x1000 0x40 = true ∧ inRange 0x103F 0x1000 0x40 = true
    ∧ (0x1800, 8) ∈ tables launched ∧ inRange 0x1800 0x1800 8 = true ∧ inRange 0x1807 0x1800 8 = true
    ∧ inRange 0x1035 0x1000 0x40 = true ∧ memGet launched.mem (0x1035 : Word).toNat = some 0x89 := by
  refine ⟨rfl, launched_tss, by decide, by decide +kernel, ?_, by decide, by decide, by decide, by decide, by decide, by decide, by decide,
    by decide +kernel⟩
  obtain ⟨t, h, -⟩ := okAnd_exists (p := fun _ => true)
    (show okAnd (taskSwitch .jmp false 0x30 0x11007 launched) (fun _ => true) = true by decide +kernel)
  exact ⟨t, h⟩

/-- Task A has a TSS of its own, to come back to. -/
def returnable : State := running (gdtCells ++ cells 0x2060 [0, 0, 0, 0, 0, 0] ++ tssB)

theorem witness_NestedTaskReturns : links .call = true ∧ SwitchReady .call 0x20 0x1020 descB returnable
    ∧ tasksApart 0x1020 descB returnable = true ∧ CanReturn 0x1018 descA returnable := by
  refine ⟨rfl, ⟨rfl, ⟨rfl, rfl, rfl, rfl⟩, rfl, rfl, by decide, by decide +kernel, fun h => by cases h⟩, by decide, ?_⟩
  exact ⟨⟨rfl, rfl, rfl, rfl⟩, rfl, rfl, rfl, by decide, by decide +kernel⟩

/-- Task A's back-link names task A. -/
def selfLinked : State :=
  { running (gdtCells ++ cells 0x2000 [0x18, 0x00] ++ cells 0x2020 (tssBytes 0 0 [0, 0, 0, 0, 0, 0, 0, 0] [0, 0, 0, 0, 0, 0])) with
    eflags := 0x4202 }

theorem witness_IretToItself : flagNT selfLinked.eflags = true ∧ read16 selfLinked selfLinked.tr.base = .ok 0x18
    ∧ SwitchReady .iret 0x18 0x1018 descA selfLinked ∧ (0x1018 : Word) = outgoingDesc selfLinked
    ∧ descBase descA = selfLinked.tr.base ∧ apart selfLinked.tr.base 104 0x1018 8 = true := by
  refine ⟨rfl, by decide +kernel, ⟨rfl, ⟨rfl, rfl, rfl, rfl⟩, rfl, rfl, by decide, by decide +kernel, fun _ => by decide +kernel⟩, rfl, rfl,
    by decide⟩

/-- The T-bit's word of task B is 1, or 0. -/
theorem witness_TrapBitRaisesDebug :
    (SwitchReady .jmp 0x20 0x1020 descB (poke runA 0x2162 0x10000)
      ∧ ∃ t, taskSwitch .jmp false 0x20 0x11007 (poke runA 0x2162 0x10000) = .ok t ∧ read16 t (descBase descB + 100) = .ok 1)
    ∧ (SwitchReady .jmp 0x20 0x1020 descB runA
      ∧ ∃ t, taskSwitch .jmp false 0x20 0x11007 runA = .ok t ∧ read16 t (descBase descB + 100) = .ok 0) := by
  constructor
  · refine ⟨⟨rfl, ⟨rfl, rfl, by decide +kernel, rfl⟩, rfl, rfl, by decide, by decide +kernel, fun _ => by decide +kernel⟩, ?_⟩
    obtain ⟨t, h, hp⟩ := okAnd_exists (p := fun t => decide (read16 t (descBase descB + 100) = .ok 1))
      (show okAnd (taskSwitch .jmp false 0x20 0x11007 (poke runA 0x2162 0x10000)) _ = true by decide +kernel)
    exact ⟨t, h, of_decide_eq_true hp⟩
  · refine ⟨readyB (by decide), ?_⟩
    obtain ⟨t, h, hp⟩ := okAnd_exists (p := fun t => decide (read16 t (descBase descB + 100) = .ok 0))
      (show okAnd (taskSwitch .jmp false 0x20 0x11007 runA) _ = true by decide +kernel)
    exact ⟨t, h, of_decide_eq_true hp⟩

/-- Task B's TSS gives FS the selector of task C's TSS descriptor, or of the task gate; and CS, DS that select a TSS descriptor or a
task gate in the GDT, DS one in the LDT. -/
theorem witness_BarredSelectorRaises :
    (∃ t, taskSwitch .jmp false 0x20 0x11007 (poke runA 0x2158 0x30) = .ok t ∧ selNull (segGet t.segs .fs).sel = false
      ∧ readDesc t (segGet t.segs .fs).sel = .ok (some (0x1030, descC)) ∧ isTss descC = true)
    ∧ (∃ t, taskSwitch .jmp false 0x20 0x11007 (poke runA 0x2158 0x28) = .ok t ∧ selNull (segGet t.segs .fs).sel = false
      ∧ readDesc t (segGet t.segs .fs).sel = .ok (some (0x1028, gateB)) ∧ isTaskGate gateB = true ∧ SegName.fs ≠ .cs)
    ∧ (readDesc { runA with segs := { runA.segs with cs := ⟨0x20, .flat⟩ } } 0x20 = .ok (some (0x1020, descB)) ∧ isTss descB = true)
    ∧ readDesc { runA with segs := { runA.segs with ds := ⟨0x2B, .flat⟩ } } 0x2B = .ok (some (0x1028, gateB))
    ∧ readDesc { withLdt with segs := { runA.segs with ds := ⟨4, .flat⟩ } } 4 = .ok (some (0x1020, descB)) ∧ selNull 4 = false := by
  refine ⟨?_, ?_, by decide +kernel, by decide +kernel, by decide +kernel, rfl⟩
  · obtain ⟨t, h, hp⟩ := okAnd_exists (p := fun t => (segGet t.segs .fs).sel == 0x30
        && decide (readDesc t 0x30 = .ok (some (0x1030, descC))))
      (show okAnd (taskSwitch .jmp false 0x20 0x11007 (poke runA 0x2158 0x30)) _ = true by decide +kernel)
    simp only [Bool.and_eq_true, beq_iff_eq, decide_eq_true_eq] at hp
    exact ⟨t, h, by rw [hp.1]; rfl, by rw [hp.1]; exact hp.2, rfl⟩
  · obtain ⟨t, h, hp⟩ := okAnd_exists (p := fun t => (segGet t.segs .fs).sel == 0x28
        && decide (readDesc t 0x28 = .ok (some (0x1028, gateB))))
      (show okAnd (taskSwitch .jmp false 0x20 0x11007 (poke runA 0x2158 0x28)) _ = true by decide +kernel)
    simp only [Bool.and_eq_true, beq_iff_eq, decide_eq_true_eq] at hp
    exact ⟨t, h, by rw [hp.1]; rfl, by rw [hp.1]; exact hp.2, rfl, by decide⟩

theorem witness_SwitchFillsHiddenParts : ∃ t, taskSwitch .jmp false 0x20 0x11007 runA = .ok t := switchesJmp

/-! Memory and invariants. -/

theorem witness_SetBusyChangesOneBit : runA.pg = false ∧ read32 runA (0x1020 + 4) = .ok 0x8900 := ⟨rfl, rfl⟩

theorem witness_WordReadsBackLittleEndian : runA.pg = false := rfl

/-- INTO with the overflow flag clear. -/
def beforeInto : State := { atEip [0xCE] with ts := true }

theorem stepsInto : ∃ t, step beforeInto = .next t := ⟨_, rfl⟩

theorem witness_StepKeepsMemoryCanonical : (∃ t, step beforeInto = .next t) ∧ Memory.wf beforeInto.mem = true := ⟨stepsInto, rfl⟩

theorem witness_StepNeverClearsTaskSwitched : (∃ t, step beforeInto = .next t) ∧ beforeInto.ts = true := ⟨stepsInto, rfl⟩

theorem witness_StepKeepsTableRegisters : ∃ t, step beforeInto = .next t := stepsInto

theorem witness_StepKeepsExtIntEnabled : ∃ t, step beforeInto = .next t := stepsInto

theorem witness_WrittenMemoryStaysWritten : (∃ t, step beforeInto = .next t) ∧ (memGet beforeInto.mem 0x11000).isSome :=
  ⟨stepsInto, rfl⟩

theorem witness_OnlyLtrAndSwitchWriteTr :
    ∃ s t : State, step s = .next t ∧ t.tr ≠ s.tr := by
  obtain ⟨t, h, hp⟩ := after_exists (p := fun t => t.tr.limit == 0x67)
    (show after (step { running (cells 0x1018 (rows [availA]) ++ cells 0x11000 [0x0F, 0x00, 0xD8]) with
        gpr := { runA.gpr with eax := 0x18 }, tr := ⟨0, 0, 0⟩ }) _ = true by decide +kernel)
  refine ⟨_, t, h, fun e => ?_⟩
  rw [e] at hp
  cases hp

/-- A JMP to task B, whose TSS names another LDT. -/
theorem witness_OnlySwitchWritesLdtrAndPdbr :
    ∃ s t : State, step s = .next t ∧ (t.ldtr ≠ s.ldtr ∨ t.pdbr ≠ s.pdbr) := by
  obtain ⟨t, h, hp⟩ := after_exists (p := fun t => t.ldtr.sel == 0x48)
    (show after (step { poke (running (gdtCells ++ tssB ++ cells 0x11000 [0xEA, 0, 0, 0, 0, 0x20, 0])) 0x2160 0x48 with
        ldtr := ⟨0, .absent⟩ }) _ = true by decide +kernel)
  refine ⟨_, t, h, .inl fun e => ?_⟩
  rw [e] at hp
  cases hp

end Sys2Proof.Tests
end

section
/-! The step at a boundary where an instruction runs (00_scope.md R13, R14). -/

namespace Sys2Proof.Machine

/-- A pending exception is delivered before any instruction runs (log 12). -/
theorem pending_eq_none_of_boundaryEvent_run {s : State} (h : boundaryEvent s = .run) : s.pending = none := by
  cases hp : s.pending with
  | none => rfl
  | some e => simp [boundaryEvent, hp] at h

/-- With no exception pending, a boundary uses up what the outside presents and changes nothing else (log 15). -/
theorem boundaryState_of_pending_none {s : State} (h : s.pending = none) :
    boundaryState s = { s with extInts := if admitsExternal s then s.extInts.tail else s.extInts } := by
  simp only [boundaryState, h, Option.isNone_none, Bool.true_and]

theorem step_of_boundaryEvent_run {s : State} (h : boundaryEvent s = .run) : step s = runInstr (boundaryState s) := by
  simp only [step, h]

theorem runInstr_of_fetch_instr {s : State} {i : Instr} {n : Nat} (h : fetch s = .ok (.instr i n)) :
    runInstr s = exec i s := by
  simp only [runInstr, h]

/-- Settles O6: the boundary chooses to run, the fetch chooses the instruction; and running means that no exception was
pending, so the boundary took none out of the state. -/
theorem stepRunsDecodedInstr : Obligations.StepRunsDecodedInstr := by
  intro s i n hrun hfetch
  refine ⟨?_, boundaryState_of_pending_none (pending_eq_none_of_boundaryEvent_run hrun)⟩
  calc step s = runInstr (boundaryState s) := step_of_boundaryEvent_run hrun
    _ = exec i (boundaryState s) := runInstr_of_fetch_instr hfetch

end Sys2Proof.Machine
end

section
/-! Memory at reset (10_state.md R61), and what steps do not write: PG, GDTR and IDTR no step at all (R34, R35), the LDT register and
PDBR no step but one that switches tasks (R31, R32). -/

namespace Sys2Proof.Machine

/-! ## Memory at reset -/

/-- Settles O54: at reset no byte of memory is listed. -/
theorem resetMemoryCanonical : Obligations.ResetMemoryCanonical := by
  show Memory.wf [] = true
  rfl

/-! ## The boundary -/

@[simp] theorem boundaryState_ldtr (s : State) : (boundaryState s).ldtr = s.ldtr := rfl
@[simp] theorem boundaryState_pdbr (s : State) : (boundaryState s).pdbr = s.pdbr := rfl
@[simp] theorem boundaryState_pg (s : State) : (boundaryState s).pg = s.pg := rfl
@[simp] theorem boundaryState_gdtr (s : State) : (boundaryState s).gdtr = s.gdtr := rfl
@[simp] theorem boundaryState_idtr (s : State) : (boundaryState s).idtr = s.idtr := rfl

/-! ## PG and the table registers -/

/-- PG, GDTR and IDTR of `t` are those of `s`. -/
structure SameTables (s t : State) : Prop where
  pg : t.pg = s.pg
  gdtr : t.gdtr = s.gdtr
  idtr : t.idtr = s.idtr

theorem SameTables.trans {s t u : State} (h : SameTables s t) (h' : SameTables t u) : SameTables s u :=
  ⟨h'.pg.trans h.pg, h'.gdtr.trans h.gdtr, h'.idtr.trans h.idtr⟩

theorem boundaryState_sameTables (s : State) : SameTables s (boundaryState s) :=
  ⟨boundaryState_pg s, boundaryState_gdtr s, boundaryState_idtr s⟩

/-- Entering a task writes none of the three, and neither does what the switch loads after it. -/
theorem taskSwitch_sameTables {k : SwitchKind} {ext : Bool} {tsel : Half} {ret : Word} {s t : State}
    (h : taskSwitch k ext tsel ret s = .ok t) : SameTables s t := by
  obtain ⟨a, d, s', img, -, -, he, -, rfl⟩ := taskSwitch_ok h
  have hs : SameTables s s' := by rw [he.eq]; exact ⟨rfl, rfl, rfl⟩
  exact hs.trans ⟨by simp, by simp, by simp⟩

theorem otherTransfer_sameTables {r : OtherRequest} {s t : State} (h : otherTransfer r s = .ok t) : SameTables s t := by
  obtain ⟨e, rfl⟩ := otherTransfer_ok h
  exact ⟨applyOther_pg e s, applyOther_gdtr e s, applyOther_idtr e s⟩

/-- None of the four ways in which a state follows another writes PG, GDTR or IDTR. -/
theorem Follows.sameTables {l : Prop} {s t : State} (h : Follows l s t) : SameTables s t := by
  cases h with
  | plain eq => rw [eq]; exact ⟨rfl, rfl, rfl⟩
  | ltr _ _ eq => rw [eq]; exact ⟨rfl, rfl, rfl⟩
  | switch s1 k ext tsel ret eq h =>
    have hs : SameTables s s1 := by rw [eq]; exact ⟨rfl, rfl, rfl⟩
    exact hs.trans (taskSwitch_sameTables h)
  | other s1 r eq h =>
    have hs : SameTables s s1 := by rw [eq]; exact ⟨rfl, rfl, rfl⟩
    exact hs.trans (otherTransfer_sameTables h)

/-- Settles O56: neither the boundary nor what follows it writes PG, GDTR or IDTR. -/
theorem stepKeepsTableRegisters : Obligations.StepKeepsTableRegisters := by
  intro s t h
  obtain ⟨hpg, hgdtr, hidtr⟩ := (boundaryState_sameTables s).trans (step_follows h).sameTables
  exact ⟨hpg, hgdtr, hidtr⟩

/-! ## The LDT register and PDBR -/

theorem otherTransfer_ldtr_pdbr {r : OtherRequest} {s t : State} (h : otherTransfer r s = .ok t) :
    t.ldtr = s.ldtr ∧ t.pdbr = s.pdbr := by
  obtain ⟨e, rfl⟩ := otherTransfer_ok h
  exact ⟨applyOther_ldtr e s, applyOther_pdbr e s⟩

/-- A state follows another by a task switch, or has its LDT register and its PDBR. -/
theorem Follows.switch_or_same_ldtr_pdbr {l : Prop} {s t : State} (h : Follows l s t) :
    (∃ (s1 : State) (k : SwitchKind) (ext : Bool) (tsel : Half) (ret : Word),
        s1 = { s with lastExn := s1.lastExn } ∧ taskSwitch k ext tsel ret s1 = .ok t)
      ∨ (t.ldtr = s.ldtr ∧ t.pdbr = s.pdbr) := by
  cases h with
  | plain eq => exact .inr (by rw [eq]; exact ⟨rfl, rfl⟩)
  | ltr _ _ eq => exact .inr (by rw [eq]; exact ⟨rfl, rfl⟩)
  | switch s1 k ext tsel ret eq h => exact .inl ⟨s1, k, ext, tsel, ret, eq, h⟩
  | other s1 r eq h =>
    have hs : s1.ldtr = s.ldtr ∧ s1.pdbr = s.pdbr := by rw [eq]; exact ⟨rfl, rfl⟩
    obtain ⟨hl, hp⟩ := otherTransfer_ldtr_pdbr h
    exact .inr ⟨hl.trans hs.1, hp.trans hs.2⟩

/-- Settles O58: what follows the boundary without a task switch has the LDT register and the PDBR the step began with. -/
theorem onlySwitchWritesLdtrAndPdbr : Obligations.OnlySwitchWritesLdtrAndPdbr := by
  intro s t h hne
  rcases (step_follows h).switch_or_same_ldtr_pdbr with hswitch | ⟨hl, hp⟩
  · exact hswitch
  · rcases hne with hne | hne
    · exact absurd (hl.trans (boundaryState_ldtr s)) hne
    · exact absurd (hp.trans (boundaryState_pdbr s)) hne

end Sys2Proof.Machine
end

section
/-! The fields of a TSS descriptor as numbers, and the update of its busy bit (10_state.md R46, R60; 20_memory.md R83). -/

namespace Sys2Proof.Machine

/-! ## Base and limits as numbers -/

/-- A concatenation as a number: its parts do not overlap, so they add. -/
theorem toNat_append_eq_add {n m : Nat} (x : BitVec n) (y : BitVec m) : (x ++ y).toNat = x.toNat * 2 ^ m + y.toNat := by
  rw [BitVec.toNat_append, ← Nat.shiftLeft_add_eq_or_of_lt y.isLt, Nat.shiftLeft_eq]

/-- A field of a word as a number: what remains above it is cut off, and what lies below it divided away. -/
theorem toNat_extractLsb'_eq_div_mod (w : Word) (i n : Nat) : (w.extractLsb' i n).toNat = w.toNat / 2 ^ i % 2 ^ n := by
  rw [BitVec.extractLsb'_toNat, Nat.shiftRight_eq_div_pow]

theorem descBase_toNat (d : Desc) : (descBase d).toNat
    = d.high.toNat / 2 ^ 24 * 2 ^ 24 + d.high.toNat % 2 ^ 8 * 2 ^ 16 + d.low.toNat / 2 ^ 16 := by
  have hhigh := d.high.isLt
  have hlow := d.low.isLt
  simp only [descBase, toNat_append_eq_add, toNat_extractLsb'_eq_div_mod]
  omega

theorem descLimit20_toNat (d : Desc) :
    (descLimit20 d).toNat = d.high.toNat / 2 ^ 16 % 16 * 2 ^ 16 + d.low.toNat % 2 ^ 16 := by
  simp only [descLimit20, toNat_append_eq_add, toNat_extractLsb'_eq_div_mod]
  omega

theorem descG_iff (d : Desc) : descG d = true ↔ d.high.toNat / 2 ^ 23 % 2 = 1 := by
  simp only [descG, BitVec.getLsbD, Nat.testBit_eq_decide_div_mod_eq, decide_eq_true_eq]

/-- Scaling by 4096 with ones below appends twelve ones; without it the 20-bit limit is only widened. -/
theorem effLimit_toNat (d : Desc) : (effLimit d).toNat
    = if d.high.toNat / 2 ^ 23 % 2 = 1 then (descLimit20 d).toNat * 2 ^ 12 + 0xFFF else (descLimit20 d).toNat := by
  simp only [effLimit, descG_iff]
  split
  · exact toNat_append_eq_add (descLimit20 d) 0xFFF#12
  · exact BitVec.toNat_setWidth_of_le (by omega)

/-- Settles O52: base and limit are concatenations of fields, the effective limit one of the limit and twelve ones. -/
theorem descriptorBaseAndLimit : Obligations.DescriptorBaseAndLimit := fun d =>
  ⟨descBase_toNat d, descLimit20_toNat d, effLimit_toNat d⟩

/-! ## The busy bit -/

theorem busyMask_getLsbD (i : Nat) : (0x200 : Word).getLsbD i = decide (i = 9) := by
  rw [show (0x200 : Word) = BitVec.twoPow 32 9 from rfl, BitVec.getLsbD_twoPow]
  simp [eq_comm]

/-- Replacing the busy bit changes bit 9 of the high row alone (10_state.md R47, R60). -/
theorem withBusy_getLsbD (b : Bool) (high : Word) (i : Nat) :
    (withBusy b high).getLsbD i = if i = 9 then b else high.getLsbD i := by
  by_cases h9 : i = 9
  · subst h9
    cases b <;> simp [withBusy]
  · rw [if_neg h9]
    cases b with
    | true => rw [withBusy_true, BitVec.getLsbD_or, busyMask_getLsbD, decide_eq_false h9, Bool.or_false]
    | false =>
      rw [withBusy_false, BitVec.getLsbD_and, BitVec.getLsbD_not, busyMask_getLsbD, decide_eq_false h9]
      by_cases hi : i < 32
      · simp [hi]
      · simp [BitVec.getLsbD_of_ge high i (by omega)]

/-- The busy bit is bit 1 of the high row's second byte. -/
theorem withBusy_byte_getLsbD (b : Bool) (high : Word) (i : Nat) :
    ((withBusy b high).extractLsb' 8 8).getLsbD i = if i = 1 then b else (high.extractLsb' 8 8).getLsbD i := by
  simp only [BitVec.getLsbD_extractLsb', withBusy_getLsbD]
  by_cases h1 : i = 1
  · simp [h1]
  · rw [if_neg h1, if_neg (by omega)]

/-- A word read with paging off has its second byte at the address after its own. -/
theorem read32_second_byte {s : State} {a v : Word} (hp : s.pg = false) (h : read32 s a = .ok v) :
    memGet s.mem (a + 1).toNat = some (v.extractLsb' 8 8) := by
  obtain ⟨b0, b1, b2, b3, -, h1, -, -, rfl⟩ := (read32_flat hp).mp h
  obtain ⟨-, e1, -, -⟩ := extractLsb_wordOfBytes b0 b1 b2 b3
  rw [h1, e1]

/-- Settles O50: the high row goes back with its busy bit replaced, and that bit lies in its second byte. -/
theorem setBusyChangesOneBit : Obligations.SetBusyChangesOneBit := by
  intro a b s high hp hr
  obtain ⟨hframe, hback⟩ := setBusy_stage (s := s) (m := s.mem) (b := b) hp hr rfl
  have hfive : a + 4 + 1 = a + 5 := by bv_omega
  refine ⟨_, setBusy_flat hp b hr, rfl, hframe, high.extractLsb' 8 8, (withBusy b high).extractLsb' 8 8, ?_, ?_,
    withBusy_byte_getLsbD b high⟩
  · exact hfive ▸ read32_second_byte hp hr
  · exact hfive ▸ read32_second_byte (s := { s with mem := _ }) hp hback

end Sys2Proof.Machine
end

section
/-! Physical memory through a step: the canonical form is kept, and a byte that has a value keeps having one (10_state.md R61;
20_memory.md R80, R87, R94). A word written with paging off lies at its address lowest byte first, and nothing else changes
(R82, R84). -/

namespace Sys2Proof.Machine

/-! ## What a step keeps of memory -/

/-- From `s` to `t` memory keeps its canonical form, and every byte that has a value keeps having one. -/
structure KeepsMemory (s t : State) : Prop where
  wf : Memory.wf s.mem = true → Memory.wf t.mem = true
  some : ∀ p, (memGet s.mem p).isSome → (memGet t.mem p).isSome

/-- Only the memory a step begins with counts. -/
theorem KeepsMemory.of_mem_eq {s s1 t : State} (hm : s1.mem = s.mem) (h : KeepsMemory s1 t) : KeepsMemory s t :=
  ⟨hm ▸ h.wf, hm ▸ h.some⟩

theorem taskSwitch_keepsMemory {k : SwitchKind} {ext : Bool} {tsel : Half} {ret : Word} {s t : State}
    (h : taskSwitch k ext tsel ret s = .ok t) : KeepsMemory s t :=
  ⟨taskSwitch_wf h, taskSwitch_some h⟩

theorem otherTransfer_keepsMemory {r : OtherRequest} {s t : State} (h : otherTransfer r s = .ok t) : KeepsMemory s t :=
  ⟨otherTransfer_wf h, otherTransfer_some h⟩

/-- Each of the four ways in which a state follows another only adds bytes to memory or replaces them. -/
theorem Follows.keepsMemory {l : Prop} {s t : State} (h : Follows l s t) : KeepsMemory s t := by
  cases h with
  | plain _ wf some => exact ⟨wf, some⟩
  | ltr _ _ _ wf some => exact ⟨wf, some⟩
  | switch s1 k ext tsel ret eq h => exact (taskSwitch_keepsMemory h).of_mem_eq (by rw [eq])
  | other s1 r eq h => exact (otherTransfer_keepsMemory h).of_mem_eq (by rw [eq])

@[simp] theorem boundaryState_mem (s : State) : (boundaryState s).mem = s.mem := rfl

theorem step_keepsMemory {s t : State} (h : step s = .next t) : KeepsMemory s t :=
  (step_follows h).keepsMemory.of_mem_eq (boundaryState_mem s)

/-- Settles O53: a step changes memory by storing bytes at 32-bit addresses and in no other way, and each such store keeps the
form. -/
theorem stepKeepsMemoryCanonical : Obligations.StepKeepsMemoryCanonical := fun _ _ h => (step_keepsMemory h).wf

/-- Settles O60: no store takes a byte's value away. -/
theorem writtenMemoryStaysWritten : Obligations.WrittenMemoryStaysWritten := fun _ _ p h => (step_keepsMemory h).some p

/-! ## A word in memory -/

/-- The four addresses of a word are those at offsets 0 to 3. -/
theorem inRange_four_eq_false {p a : Word} (h0 : p ≠ a) (h1 : p ≠ a + 1) (h2 : p ≠ a + 2) (h3 : p ≠ a + 3) :
    inRange p a 4 = false := by
  simp only [inRange, decide_eq_false_iff_not]
  bv_omega

/-- The bytes of a word placed at `a`, lowest first (20_memory.md R82). -/
theorem memGet_placeBytes_wordBytes (a v : Word) (m : List Host.Cell) :
    memGet (placeBytes (wordBytes v) a m) a.toNat = some (v.extractLsb' 0 8)
      ∧ memGet (placeBytes (wordBytes v) a m) (a + 1).toNat = some (v.extractLsb' 8 8)
      ∧ memGet (placeBytes (wordBytes v) a m) (a + 2).toNat = some (v.extractLsb' 16 8)
      ∧ memGet (placeBytes (wordBytes v) a m) (a + 3).toNat = some (v.extractLsb' 24 8) := by
  have hbyte {i : Nat} (hi : i < (wordBytes v).length) :
      memGet (placeBytes (wordBytes v) a m) (a + BitVec.ofNat 32 i).toNat = some (wordBytes v)[i] :=
    memGet_placeBytes_inside (by simp [wordBytes]) hi
  have h0 := hbyte (i := 0) (by simp [wordBytes])
  rw [BitVec.add_zero] at h0
  exact ⟨h0, hbyte (i := 1) (by simp [wordBytes]), hbyte (i := 2) (by simp [wordBytes]), hbyte (i := 3) (by simp [wordBytes])⟩

/-- Settles O51: with paging off the word's four bytes are placed at its address, and those are what a read puts together. -/
theorem wordReadsBackLittleEndian : Obligations.WordReadsBackLittleEndian := by
  intro s a v hp
  obtain ⟨h0, h1, h2, h3⟩ := memGet_placeBytes_wordBytes a v s.mem
  have hread := read32_placeBytes (a := a) (v := v) (i := 0) hp (bs := wordBytes v) (by simp [wordBytes]) rfl
  rw [BitVec.add_zero] at hread
  refine ⟨_, write32_flat hp a v, hread, rfl, h0, h1, h2, h3, ?_⟩
  intro p hp0 hp1 hp2 hp3
  exact memGet_placeBytes_outside (inRange_four_eq_false hp0 hp1 hp2 hp3)

end Sys2Proof.Machine
end

section
/-! The decoder reads back what the encoder writes, line by line of the tables (30_encoding.md R113 to R117, R119), so a step runs
the instruction whose bytes stand at EIP (20_memory.md R97; 30_encoding.md R110, R112). -/

namespace Sys2Proof

/-! ## Memory operands -/

/-- The register number 100b, which in `rm` means that a SIB byte follows, is ESP's. -/
@[simp] theorem regNum_eq_four_iff (r : Reg) : regNum r = 4#3 ↔ r = .esp := by
  cases r <;> decide

/-- The register number 101b, which with mod 00 means that there is no register, is EBP's. -/
@[simp] theorem regNum_eq_five_iff (r : Reg) : regNum r = 5#3 ↔ r = .ebp := by
  cases r <;> decide

/-- Every memory operand has a line in the table of R114, whose `mod` is not that of a register, and the line reads the operand
back from the bytes after ModRM. -/
theorem encodeAddr_line (reg : BitVec 3) {a : Addr} (h : a.wf = true) :
    ∃ mod rm tail k, encodeAddr reg a = modRM mod reg rm :: tail ∧ mod ≠ 3 ∧ addrLength a = 1 + k
      ∧ ∀ rest, decodeAddr mod rm (tail ++ rest) = some (a, k) := by
  cases a with
  | base r =>
    simp only [Addr.wf, Bool.and_eq_true, decide_eq_true_eq] at h
    obtain ⟨hesp, hebp⟩ := h
    exact ⟨0, regNum r, [], 0, rfl, by decide, rfl, fun rest => by simp [decodeAddr, hesp, hebp]⟩
  | disp32 d => exact ⟨0, 5, wordBytes d, 4, rfl, by decide, rfl, fun rest => by simp [decodeAddr]⟩
  | baseDisp8 r d =>
    have hesp : r ≠ .esp := by simpa [Addr.wf] using h
    exact ⟨1, regNum r, [d], 1, rfl, by decide, rfl, fun rest => by simp [decodeAddr, hesp]⟩
  | baseDisp32 r d =>
    have hesp : r ≠ .esp := by simpa [Addr.wf] using h
    exact ⟨2, regNum r, wordBytes d, 4, rfl, by decide, rfl, fun rest => by simp [decodeAddr, hesp]⟩
  | sib s =>
    have hebp : s.base ≠ .ebp := by simpa [Addr.wf] using h
    exact ⟨0, 4, [sibByte s], 1, rfl, by decide, rfl, fun rest => by simp [decodeAddr, decodeSib, hebp]⟩
  | sibNoBase sc ix d =>
    exact ⟨0, 4, sibByte ⟨sc, ix, .ebp⟩ :: wordBytes d, 5, rfl, by decide, rfl, fun rest => by simp [decodeAddr, decodeSib]⟩
  | sibDisp8 s d => exact ⟨1, 4, [sibByte s, d], 2, rfl, by decide, rfl, fun rest => by simp [decodeAddr, decodeSib]⟩
  | sibDisp32 s d =>
    exact ⟨2, 4, sibByte s :: wordBytes d, 5, rfl, by decide, rfl, fun rest => by simp [decodeAddr, decodeSib]⟩

/-- ModRM and what follows it read back as the memory operand, after `n` bytes of opcode. -/
theorem decodeMem_encodeAddr (reg : BitVec 3) {a : Addr} (h : a.wf = true) (rest : List Byte) :
    ∃ m tail, encodeAddr reg a ++ rest = m :: tail ∧ m.extractLsb' 3 3 = reg ∧ m.extractLsb' 6 2 ≠ 3
      ∧ ∀ mk n, decodeMem mk (n + 1) m tail = .instr (mk a) (n + addrLength a) := by
  obtain ⟨mod, rm, tail, k, he, hmod, hk, hd⟩ := encodeAddr_line reg h
  refine ⟨modRM mod reg rm, tail ++ rest, by rw [he, List.cons_append], modRM_reg mod reg rm, by rwa [modRM_mod], fun mk n => ?_⟩
  simp only [decodeMem, modRM_mod, modRM_rm, hd, hk, Nat.add_assoc]

/-- ModRM and what follows it read back as the r/m16 operand. -/
theorem decodeRM16_encodeRM16 (reg : BitVec 3) {d : RM16} (h : d.wf = true) (rest : List Byte) :
    ∃ m tail, encodeRM16 reg d ++ rest = m :: tail ∧ m.extractLsb' 3 3 = reg
      ∧ ∀ mk, decodeRM16 mk m tail = .instr (mk d) (2 + rm16Length d) := by
  cases d with
  | reg r => exact ⟨modRM 3 reg (regNum r), rest, rfl, modRM_reg 3 reg _, fun mk => by simp [decodeRM16, rm16Length]⟩
  | mem a =>
    obtain ⟨m, tail, he, hreg, hmod, hd⟩ := decodeMem_encodeAddr reg h rest
    exact ⟨m, tail, he, hreg, fun mk => by simp only [decodeRM16, if_neg hmod, hd, rm16Length]⟩

/-! ## Instructions -/

/-- A far pointer reads back, offset first (30_encoding.md R115). -/
theorem decodePtr_wordBytes (mk : Word → Half → Instr) (off : Word) (sel : Half) (rest : List Byte) :
    decodePtr mk (wordBytes off ++ halfBytes sel ++ rest) = .instr (mk off sel) 7 := by
  simp [decodePtr, wordBytes, halfBytes, Machine.wordOfBytes_wordBytes, Machine.halfOfBytes_halfBytes]

/-- The decoder reads a well-formed instruction back from its bytes, whatever follows them: the opcode and ModRM's `reg` name the
row, the bytes after them are its operand. -/
theorem decode_encode_append {i : Instr} (h : i.wf = true) (rest : List Byte) :
    decode (encode i ++ rest) = .instr i (instrLength i) := by
  cases i with
  | str d =>
    obtain ⟨m, tail, he, hreg, hd⟩ := decodeRM16_encodeRM16 1 h rest
    show decode0F (0x00 :: (encodeRM16 1 d ++ rest)) = _
    rw [he]
    simp [decode0F, hreg, hd, instrLength]
  | ltr d =>
    obtain ⟨m, tail, he, hreg, hd⟩ := decodeRM16_encodeRM16 3 h rest
    show decode0F (0x00 :: (encodeRM16 3 d ++ rest)) = _
    rw [he]
    simp [decode0F, hreg, hd, instrLength]
  | jmpPtr off sel => exact decodePtr_wordBytes .jmpPtr off sel rest
  | jmpMem a =>
    obtain ⟨m, tail, he, hreg, hmod, hd⟩ := decodeMem_encodeAddr 5 h rest
    show decodeFF (encodeAddr 5 a ++ rest) = _
    rw [he]
    simpa [decodeFF, hreg, hd, instrLength] using hmod
  | callPtr off sel => exact decodePtr_wordBytes .callPtr off sel rest
  | callMem a =>
    obtain ⟨m, tail, he, hreg, hmod, hd⟩ := decodeMem_encodeAddr 3 h rest
    show decodeFF (encodeAddr 3 a ++ rest) = _
    rw [he]
    simpa [decodeFF, hreg, hd, instrLength] using hmod
  | iret => rfl
  | intN f => cases f <;> rfl

theorem decode_encode {i : Instr} (h : i.wf = true) : decode (encode i) = .instr i (instrLength i) := by
  simpa using decode_encode_append h []

theorem encodedLength (i : Instr) : Laws.EncodedLength.Statement i := by
  cases i with
  | str d => exact Laws.EncodedLength.str d
  | ltr d => exact Laws.EncodedLength.ltr d
  | jmpPtr off sel => exact Laws.EncodedLength.jmpPtr off sel
  | jmpMem a => exact Laws.EncodedLength.jmpMem a
  | callPtr off sel => exact Laws.EncodedLength.callPtr off sel
  | callMem a => exact Laws.EncodedLength.callMem a
  | iret => exact Laws.EncodedLength.iret
  | intN f => exact Laws.EncodedLength.intN f

/-- No instruction is longer than a fetch reads. -/
theorem encode_length_le_maxLength (i : Instr) : (encode i).length ≤ maxLength := by
  obtain ⟨heq, -, hle⟩ := encodedLength i
  exact heq.trans_le hle

/-! ## The fetch -/

namespace Machine

/-- A fetch where the bytes of a well-formed instruction are readable answers that instruction. -/
theorem fetch_encode {s : State} {i : Instr} (h : i.wf = true)
    (hbytes : ∀ j, j < (encode i).length → ∃ b, (encode i)[j]? = some b ∧ fetchByte s j = .ok b) :
    fetch s = .ok (.instr i (instrLength i)) :=
  fetchFrom_bytes (encode i) (decode_encode h) maxLength [] (encode i) rfl (encode_length_le_maxLength i) hbytes

/-- Settles O7: the fetch ends with the instruction whose bytes it reads, and the boundary lets it run. -/
theorem stepRunsBytesAtEip : Obligations.StepRunsBytesAtEip := by
  intro s i hwf hrun hbytes
  calc step s = runInstr (boundaryState s) := step_of_boundaryEvent_run hrun
    _ = exec i (boundaryState s) := runInstr_of_fetch_instr (fetch_encode hwf hbytes)

end Machine
end Sys2Proof
end

section
/-! What the decoder calls an instruction is well-formed, and the bytes begin with those the encoder writes for it (30_encoding.md
R112 to R119): line by line of the tables, the bytes that a line takes are the bytes of its operand. -/

namespace Sys2Proof

/-! ## What the opcode decides -/

section Opcodes

variable (rest : List Byte)

theorem decode_EA : decode (0xEA :: rest) = decodePtr .jmpPtr rest := rfl
theorem decode_9A : decode (0x9A :: rest) = decodePtr .callPtr rest := rfl
theorem decode_CF : decode (0xCF :: rest) = .instr .iret 1 := rfl
theorem decode_CD (v : Byte) : decode (0xCD :: v :: rest) = .instr (.intN (.imm v)) 2 := rfl
theorem decode_CC : decode (0xCC :: rest) = .instr (.intN .int3) 1 := rfl
theorem decode_CE : decode (0xCE :: rest) = .instr (.intN .into) 1 := rfl
theorem decode_FF : decode (0xFF :: rest) = decodeFF rest := rfl
theorem decode_0F : decode (0x0F :: rest) = decode0F rest := rfl

/-- The first bytes that begin an instruction of the model (30_encoding.md R117, R119). -/
def opcodes : List Byte := [0xEA, 0x9A, 0xCF, 0xCD, 0xCC, 0xCE, 0xFF, 0x0F]

/-- A first byte that begins no instruction decides alone. -/
theorem decode_of_not_mem_opcodes {b : Byte} (h : b ∉ opcodes) :
    decode (b :: rest) = if isPrefix b then .prefixByte b else .outOfScope b := by
  simp only [opcodes, List.mem_cons, List.not_mem_nil, or_false, not_or] at h
  obtain ⟨hEA, h9A, hCF, hCD, hCC, hCE, hFF, h0F⟩ := h
  simp only [decode, if_neg hEA, if_neg h9A, if_neg hCF, if_neg hCD, if_neg hCC, if_neg hCE, if_neg hFF, if_neg h0F]

theorem decodeFF_invalid {m : Byte} (hreg : m.extractLsb' 3 3 = 5 ∨ m.extractLsb' 3 3 = 3) (hmod : m.extractLsb' 6 2 = 3) :
    decodeFF (m :: rest) = .undefined := by
  rcases hreg with hreg | hreg <;> simp [decodeFF, hreg, hmod]

theorem decodeFF_jmp {m : Byte} (hreg : m.extractLsb' 3 3 = 5) (hmod : m.extractLsb' 6 2 ≠ 3) :
    decodeFF (m :: rest) = decodeMem .jmpMem 2 m rest := by
  simp only [decodeFF, if_pos hreg, if_neg hmod]

theorem decodeFF_call {m : Byte} (hreg : m.extractLsb' 3 3 = 3) (hmod : m.extractLsb' 6 2 ≠ 3) :
    decodeFF (m :: rest) = decodeMem .callMem 2 m rest := by
  have hne : m.extractLsb' 3 3 ≠ 5 := by rw [hreg]; decide
  simp only [decodeFF, if_neg hne, if_pos hreg, if_neg hmod]

theorem decodeFF_other {m : Byte} (h5 : m.extractLsb' 3 3 ≠ 5) (h3 : m.extractLsb' 3 3 ≠ 3) :
    decodeFF (m :: rest) = .outOfScope 0xFF := by
  simp only [decodeFF, if_neg h5, if_neg h3]

theorem decode0F_str {m : Byte} (hreg : m.extractLsb' 3 3 = 1) : decode0F (0x00 :: m :: rest) = decodeRM16 .str m rest := by
  simp only [decode0F, if_true, if_pos hreg]

theorem decode0F_ltr {m : Byte} (hreg : m.extractLsb' 3 3 = 3) : decode0F (0x00 :: m :: rest) = decodeRM16 .ltr m rest := by
  have hne : m.extractLsb' 3 3 ≠ 1 := by rw [hreg]; decide
  simp only [decode0F, if_true, if_neg hne, if_pos hreg]

theorem decode0F_other {m : Byte} (h1 : m.extractLsb' 3 3 ≠ 1) (h3 : m.extractLsb' 3 3 ≠ 3) :
    decode0F (0x00 :: m :: rest) = .outOfScope 0x0F := by
  simp only [decode0F, if_true, if_neg h1, if_neg h3]

theorem decode0F_other_second {b1 : Byte} (h : b1 ≠ 0x00) : decode0F (b1 :: rest) = .outOfScope 0x0F := by
  simp only [decode0F, if_neg h]

end Opcodes

/-! ## The lines of the table of R114 -/

section Lines

variable (rest : List Byte)

theorem decodeAddr_base {rm : BitVec 3} (h4 : rm ≠ 4) (h5 : rm ≠ 5) :
    decodeAddr 0 rm rest = some (.base (regOfNum rm), 0) := by
  simp only [decodeAddr, if_neg h4, if_neg h5, if_true]

theorem decodeAddr_disp32 : decodeAddr 0 5 rest = (takeWord rest).map fun d => (.disp32 d, 4) := rfl

theorem decodeAddr_baseDisp8 {rm : BitVec 3} (h4 : rm ≠ 4) :
    decodeAddr 1 rm rest = rest.head?.map fun d => (.baseDisp8 (regOfNum rm) d, 1) := by
  exact if_neg h4

theorem decodeAddr_baseDisp32 {rm : BitVec 3} (h4 : rm ≠ 4) :
    decodeAddr 2 rm rest = (takeWord rest).map fun d => (.baseDisp32 (regOfNum rm) d, 4) := by
  exact if_neg h4

theorem decodeAddr_sib (mod : BitVec 2) (b : Byte) : decodeAddr mod 4 (b :: rest) = decodeSib mod (sibOfByte b) rest := rfl

theorem decodeSib_base {s : Sib} (h : s.base ≠ .ebp) : decodeSib 0 s rest = some (.sib s, 1) := by
  simp [decodeSib, h]

theorem decodeSib_noBase {s : Sib} (h : s.base = .ebp) :
    decodeSib 0 s rest = (takeWord rest).map fun d => (.sibNoBase s.scale s.index d, 5) := by
  simp [decodeSib, h]

theorem decodeSib_disp8 (s : Sib) : decodeSib 1 s rest = rest.head?.map fun d => (.sibDisp8 s d, 2) := rfl

theorem decodeSib_disp32 (s : Sib) : decodeSib 2 s rest = (takeWord rest).map fun d => (.sibDisp32 s d, 5) := rfl

end Lines

/-- The three values of `mod` that name a memory operand. -/
theorem mod_cases {mod : BitVec 2} (h : mod ≠ 3) : mod = 0 ∨ mod = 1 ∨ mod = 2 := by
  revert mod
  decide

/-! ## Displacements and pointers -/

theorem wordBytes_wordOfBytes (b0 b1 b2 b3 : Byte) : wordBytes (wordOfBytes b0 b1 b2 b3) = [b0, b1, b2, b3] := by
  obtain ⟨h0, h1, h2, h3⟩ := Machine.extractLsb_wordOfBytes b0 b1 b2 b3
  rw [wordBytes, h0, h1, h2, h3]

theorem halfBytes_halfOfBytes (b0 b1 : Byte) : halfBytes (halfOfBytes b0 b1) = [b0, b1] := by
  have h0 : (b1 ++ b0).extractLsb' 0 8 = b0 := by
    rw [BitVec.extractLsb'_append_eq_of_add_le (by omega)]
    simp
  have h1 : (b1 ++ b0).extractLsb' 8 8 = b1 := by
    rw [BitVec.extractLsb'_append_eq_of_le (by omega)]
    simp
  rw [halfBytes, halfOfBytes, h0, h1]

/-- A displacement takes the four bytes it is written as. -/
theorem wordBytes_prefix_of_takeWord {bs : List Byte} {d : Word} (h : takeWord bs = some d) : wordBytes d <+: bs := by
  match bs, h with
  | b0 :: b1 :: b2 :: b3 :: rest, h =>
    obtain rfl : wordOfBytes b0 b1 b2 b3 = d := Option.some.inj h
    exact ⟨rest, by rw [wordBytes_wordOfBytes]; rfl⟩

/-- A one-byte displacement is the first of the bytes. -/
theorem singleton_prefix_of_head? {bs : List Byte} {d : Byte} (h : bs.head? = some d) : [d] <+: bs := by
  obtain ⟨rest, rfl⟩ := List.head?_eq_some_iff.mp h
  exact ⟨rest, rfl⟩

/-! ## Memory operands -/

/-- A SIB line of R114 takes the bytes of a well-formed memory operand. -/
theorem encodeAddr_prefix_of_decodeSib {mod : BitVec 2} {s : Sib} {rest : List Byte} {a : Addr} {k : Nat} (hmod : mod ≠ 3)
    (h : decodeSib mod s rest = some (a, k)) :
    a.wf = true ∧ ∀ reg, encodeAddr reg a <+: modRM mod reg 4 :: sibByte s :: rest := by
  rcases mod_cases hmod with rfl | rfl | rfl
  · by_cases hb : s.base = .ebp
    · rw [decodeSib_noBase rest hb] at h
      obtain ⟨d, hd, heq⟩ := Option.map_eq_some_iff.mp h
      cases heq
      refine ⟨rfl, fun reg => ?_⟩
      rw [encodeAddr, ← hb, List.prefix_cons_inj, List.prefix_cons_inj]
      exact wordBytes_prefix_of_takeWord hd
    · rw [decodeSib_base rest hb] at h
      cases h
      exact ⟨by simpa [Addr.wf] using hb, fun reg => ⟨rest, rfl⟩⟩
  · obtain ⟨d, hd, heq⟩ := Option.map_eq_some_iff.mp (decodeSib_disp8 rest s ▸ h)
    cases heq
    refine ⟨rfl, fun reg => ?_⟩
    rw [encodeAddr, List.prefix_cons_inj, List.prefix_cons_inj]
    exact singleton_prefix_of_head? hd
  · obtain ⟨d, hd, heq⟩ := Option.map_eq_some_iff.mp (decodeSib_disp32 rest s ▸ h)
    cases heq
    refine ⟨rfl, fun reg => ?_⟩
    rw [encodeAddr, List.prefix_cons_inj, List.prefix_cons_inj]
    exact wordBytes_prefix_of_takeWord hd

/-- A line of R114 takes the bytes of a well-formed memory operand: its number in `rm` is the register's, so it is not one of those
that mean something else. -/
theorem encodeAddr_prefix_of_decodeAddr {mod : BitVec 2} {rm : BitVec 3} {rest : List Byte} {a : Addr} {k : Nat} (hmod : mod ≠ 3)
    (h : decodeAddr mod rm rest = some (a, k)) :
    a.wf = true ∧ ∀ reg, encodeAddr reg a <+: modRM mod reg rm :: rest := by
  by_cases h4 : rm = 4
  · subst h4
    cases rest with
    | nil => cases h
    | cons b rest =>
      have hsib := encodeAddr_prefix_of_decodeSib hmod (decodeAddr_sib rest mod b ▸ h)
      rwa [sibByte_sibOfByte] at hsib
  have hesp : regOfNum rm ≠ .esp := by simpa [← regNum_eq_four_iff] using h4
  rcases mod_cases hmod with rfl | rfl | rfl
  · by_cases h5 : rm = 5
    · subst h5
      obtain ⟨d, hd, heq⟩ := Option.map_eq_some_iff.mp (decodeAddr_disp32 rest ▸ h)
      cases heq
      exact ⟨rfl, fun reg => List.prefix_cons_inj _ |>.mpr (wordBytes_prefix_of_takeWord hd)⟩
    · have hebp : regOfNum rm ≠ .ebp := by simpa [← regNum_eq_five_iff] using h5
      cases decodeAddr_base rest h4 h5 ▸ h
      exact ⟨by simp [Addr.wf, hesp, hebp], fun reg => ⟨rest, by simp [encodeAddr]⟩⟩
  · obtain ⟨d, hd, heq⟩ := Option.map_eq_some_iff.mp (decodeAddr_baseDisp8 rest h4 ▸ h)
    cases heq
    refine ⟨by simp [Addr.wf, hesp], fun reg => ?_⟩
    rw [encodeAddr, regNum_regOfNum, List.prefix_cons_inj]
    exact singleton_prefix_of_head? hd
  · obtain ⟨d, hd, heq⟩ := Option.map_eq_some_iff.mp (decodeAddr_baseDisp32 rest h4 ▸ h)
    cases heq
    refine ⟨by simp [Addr.wf, hesp], fun reg => ?_⟩
    rw [encodeAddr, regNum_regOfNum, List.prefix_cons_inj]
    exact wordBytes_prefix_of_takeWord hd

/-! ## Formats -/

/-- The format with ModRM and a memory operand. -/
theorem encodeAddr_prefix_of_decodeMem {mk : Addr → Instr} {n len : Nat} {m : Byte} {rest : List Byte} {i : Instr}
    (hmod : m.extractLsb' 6 2 ≠ 3) (h : decodeMem mk n m rest = .instr i len) :
    ∃ a, i = mk a ∧ a.wf = true ∧ encodeAddr (m.extractLsb' 3 3) a <+: m :: rest := by
  unfold decodeMem at h
  split at h
  next a k hd =>
    obtain ⟨hwf, hpre⟩ := encodeAddr_prefix_of_decodeAddr hmod hd
    cases h
    exact ⟨a, rfl, hwf, by simpa only [modRM_fields] using hpre (m.extractLsb' 3 3)⟩
  next => cases h

/-- The format with ModRM and an r/m16 operand. -/
theorem encodeRM16_prefix_of_decodeRM16 {mk : RM16 → Instr} {len : Nat} {m : Byte} {rest : List Byte} {i : Instr}
    (h : decodeRM16 mk m rest = .instr i len) :
    ∃ d, i = mk d ∧ d.wf = true ∧ encodeRM16 (m.extractLsb' 3 3) d <+: m :: rest := by
  unfold decodeRM16 at h
  split at h
  next hmod =>
    cases h
    refine ⟨_, rfl, rfl, rest, ?_⟩
    rw [encodeRM16, regNum_regOfNum, ← hmod, modRM_fields]
    rfl
  next hmod =>
    obtain ⟨a, heq, hwf, hpre⟩ := encodeAddr_prefix_of_decodeMem hmod h
    exact ⟨.mem a, heq, hwf, hpre⟩

/-- The format with a far pointer. -/
theorem pointer_prefix_of_decodePtr {mk : Word → Half → Instr} {len : Nat} {bs : List Byte} {i : Instr}
    (h : decodePtr mk bs = .instr i len) :
    ∃ off sel, i = mk off sel ∧ wordBytes off ++ halfBytes sel <+: bs := by
  match bs, h with
  | o0 :: o1 :: o2 :: o3 :: s0 :: s1 :: rest, h =>
    cases h
    exact ⟨_, _, rfl, rest, by rw [wordBytes_wordOfBytes, halfBytes_halfOfBytes]; rfl⟩

/-! ## Instructions -/

/-- The bytes begin with those the encoder writes for `i`, which is well-formed. -/
def BeginsWith (i : Instr) (bs : List Byte) : Prop := i.wf = true ∧ encode i <+: bs

/-- After FFh: JMP and CALL through memory (30_encoding.md R117, R120). -/
theorem beginsWith_of_decodeFF {bs : List Byte} {i : Instr} {n : Nat} (h : decodeFF bs = .instr i n) :
    BeginsWith i (0xFF :: bs) := by
  cases bs with
  | nil => cases h
  | cons m rest =>
    by_cases h5 : m.extractLsb' 3 3 = 5
    · by_cases hmod : m.extractLsb' 6 2 = 3
      · cases decodeFF_invalid rest (.inl h5) hmod ▸ h
      · obtain ⟨a, rfl, hwf, hpre⟩ := encodeAddr_prefix_of_decodeMem hmod (decodeFF_jmp rest h5 hmod ▸ h)
        exact ⟨hwf, (List.prefix_cons_inj _).mpr (h5 ▸ hpre)⟩
    by_cases h3 : m.extractLsb' 3 3 = 3
    · by_cases hmod : m.extractLsb' 6 2 = 3
      · cases decodeFF_invalid rest (.inr h3) hmod ▸ h
      · obtain ⟨a, rfl, hwf, hpre⟩ := encodeAddr_prefix_of_decodeMem hmod (decodeFF_call rest h3 hmod ▸ h)
        exact ⟨hwf, (List.prefix_cons_inj _).mpr (h3 ▸ hpre)⟩
    · cases decodeFF_other rest h5 h3 ▸ h

/-- After 0Fh: STR and LTR (30_encoding.md R117). -/
theorem beginsWith_of_decode0F {bs : List Byte} {i : Instr} {n : Nat} (h : decode0F bs = .instr i n) :
    BeginsWith i (0x0F :: bs) := by
  cases bs with
  | nil => cases h
  | cons b1 bs =>
    by_cases h0 : b1 = 0x00
    · subst h0
      cases bs with
      | nil => cases h
      | cons m rest =>
        by_cases h1 : m.extractLsb' 3 3 = 1
        · obtain ⟨d, rfl, hwf, hpre⟩ := encodeRM16_prefix_of_decodeRM16 (decode0F_str rest h1 ▸ h)
          exact ⟨hwf, List.prefix_append_right_inj [0x0F, 0x00] |>.mpr (h1 ▸ hpre)⟩
        by_cases h3 : m.extractLsb' 3 3 = 3
        · obtain ⟨d, rfl, hwf, hpre⟩ := encodeRM16_prefix_of_decodeRM16 (decode0F_ltr rest h3 ▸ h)
          exact ⟨hwf, List.prefix_append_right_inj [0x0F, 0x00] |>.mpr (h3 ▸ hpre)⟩
        · cases decode0F_other rest h1 h3 ▸ h
    · cases decode0F_other_second bs h0 ▸ h

/-- The first byte chooses the format, and each format takes the bytes of its operand. -/
theorem beginsWith_of_decode {bs : List Byte} {i : Instr} {n : Nat} (h : decode bs = .instr i n) : BeginsWith i bs := by
  cases bs with
  | nil => cases h
  | cons b rest =>
    by_cases hb : b ∈ opcodes
    · simp only [opcodes, List.mem_cons, List.not_mem_nil, or_false] at hb
      rcases hb with rfl | rfl | rfl | rfl | rfl | rfl | rfl | rfl
      · obtain ⟨off, sel, rfl, hpre⟩ := pointer_prefix_of_decodePtr (decode_EA rest ▸ h)
        exact ⟨rfl, (List.prefix_cons_inj _).mpr hpre⟩
      · obtain ⟨off, sel, rfl, hpre⟩ := pointer_prefix_of_decodePtr (decode_9A rest ▸ h)
        exact ⟨rfl, (List.prefix_cons_inj _).mpr hpre⟩
      · cases decode_CF rest ▸ h
        exact ⟨rfl, rest, rfl⟩
      · cases rest with
        | nil => cases h
        | cons v rest =>
          cases decode_CD rest v ▸ h
          exact ⟨rfl, rest, rfl⟩
      · cases decode_CC rest ▸ h
        exact ⟨rfl, rest, rfl⟩
      · cases decode_CE rest ▸ h
        exact ⟨rfl, rest, rfl⟩
      · exact beginsWith_of_decodeFF (decode_FF rest ▸ h)
      · exact beginsWith_of_decode0F (decode_0F rest ▸ h)
    · rw [decode_of_not_mem_opcodes rest hb] at h
      split at h <;> cases h

/-- Settles O1: the opcode and ModRM's `reg` name the row, and the bytes after them read back as its operand. -/
theorem decodeOfEncode : Obligations.DecodeOfEncode := fun _ rest h => decode_encode_append h rest

/-- Settles O2: the bytes begin with the instruction's own, so the length is the one the decoder gives for those. -/
theorem encodeOfDecode : Obligations.EncodeOfDecode := by
  intro bs i n h
  obtain ⟨hwf, rest, rfl⟩ := beginsWith_of_decode h
  have hlen : n = instrLength i := by
    rw [decode_encode_append hwf rest] at h
    exact (Decoded.instr.inj h).2.symm
  obtain ⟨hlength, -, -⟩ := encodedLength i
  exact ⟨hwf, hlen, by rw [hlen, ← hlength, List.take_left]⟩

end Sys2Proof
end

section
/-! Which bytes decide what the decoder answers (30_encoding.md R118 to R120; log 43), the spec's own vectors, and the lines of the
table of R114 as addresses. -/

namespace Sys2Proof

/-! ## First bytes that begin no instruction -/

/-- The bytes of R111 begin no instruction of R117. -/
theorem not_mem_opcodes_of_isPrefix {b : Byte} (h : isPrefix b = true) : b ∉ opcodes := by
  revert b
  decide

/-- A byte of R111 decides alone (log 43). -/
theorem decode_prefix {b : Byte} (h : isPrefix b = true) (rest : List Byte) : decode (b :: rest) = .prefixByte b := by
  rw [decode_of_not_mem_opcodes rest (not_mem_opcodes_of_isPrefix h), if_pos h]

/-- Any other byte that begins no instruction is refused (30_encoding.md R118). -/
theorem decode_other {b : Byte} (hop : b ∉ opcodes) (hpre : isPrefix b = false) (rest : List Byte) :
    decode (b :: rest) = .outOfScope b := by
  simp only [decode_of_not_mem_opcodes rest hop, hpre, Bool.false_eq_true, if_false]

/-! ## Operands with enough bytes -/

/-- No memory operand takes more than five bytes after ModRM. -/
theorem decodeAddr_of_length {rest : List Byte} (h : 5 ≤ rest.length) (mod : BitVec 2) (rm : BitVec 3) :
    ∃ a k, decodeAddr mod rm rest = some (a, k) := by
  match rest, h with
  | b0 :: b1 :: b2 :: b3 :: b4 :: rest, _ =>
    simp only [decodeAddr, decodeSib, takeWord, List.head?_cons, Option.map_some]
    split_ifs <;> exact ⟨_, _, rfl⟩

theorem decodeMem_of_length {rest : List Byte} (h : 5 ≤ rest.length) (mk : Addr → Instr) (n : Nat) (m : Byte) :
    ∃ a k, decodeMem mk n m rest = .instr (mk a) k := by
  obtain ⟨a, k, hd⟩ := decodeAddr_of_length h (m.extractLsb' 6 2) (m.extractLsb' 0 3)
  exact ⟨a, n + k, by simp only [decodeMem, hd]⟩

theorem decodeRM16_of_length {rest : List Byte} (h : 5 ≤ rest.length) (mk : RM16 → Instr) (m : Byte) :
    ∃ d k, decodeRM16 mk m rest = .instr (mk d) k := by
  unfold decodeRM16
  split
  · exact ⟨_, _, rfl⟩
  · obtain ⟨a, k, hd⟩ := decodeMem_of_length h (fun a => mk (.mem a)) 3 m
    exact ⟨.mem a, k, hd⟩

/-! ## The order of decoding -/

/-- Settles O5: the first byte, then the second byte or ModRM's fields, choose the equation of the decoder that applies. -/
theorem decodingOrder : Obligations.DecodingOrder := by
  rintro b b1 b2 b3 b4 b5 b6 b7 reg prefixes rfl rfl
  have hprefix : isPrefix b = true ↔ b ∈ [0x66#8, 0x67, 0x26, 0x2E, 0x36, 0x3E, 0x64, 0x65, 0xF0, 0xF2, 0xF3] :=
    List.contains_iff_mem
  refine ⟨?jmpPtr, ?callPtr, ?iret, ?intImm, ?int3, ?into, ?invalid, ?jmp, ?call, ?otherFF, ?str, ?ltr, ?otherReg,
    ?otherSecond, ?prefixInstr, ?prefixAny, ?other⟩
  case jmpPtr => rintro rfl; exact decode_EA _
  case callPtr => rintro rfl; exact decode_9A _
  case iret => rintro rfl; exact decode_CF _
  case intImm => rintro rfl; exact decode_CD _ _
  case int3 => rintro rfl; exact decode_CC _
  case into => rintro rfl; exact decode_CE _
  case invalid => rintro rfl hreg hmod; exact decodeFF_invalid _ hreg hmod
  case jmp =>
    rintro rfl hreg hmod
    rw [decode_FF, decodeFF_jmp _ hreg hmod]
    exact decodeMem_of_length (by simp) .jmpMem 2 b1
  case call =>
    rintro rfl hreg hmod
    rw [decode_FF, decodeFF_call _ hreg hmod]
    exact decodeMem_of_length (by simp) .callMem 2 b1
  case otherFF => rintro rfl h5 h3; exact decodeFF_other _ h5 h3
  case str =>
    rintro rfl rfl hreg
    rw [decode_0F, decode0F_str _ hreg]
    exact decodeRM16_of_length (by simp) .str b2
  case ltr =>
    rintro rfl rfl hreg
    rw [decode_0F, decode0F_ltr _ hreg]
    exact decodeRM16_of_length (by simp) .ltr b2
  case otherReg => rintro rfl rfl h1 h3; exact decode0F_other _ h1 h3
  case otherSecond => rintro rfl h0; rw [decode_0F]; exact decode0F_other_second _ h0
  case prefixInstr => intro hb i _ _ _; exact decode_prefix (hprefix.mpr hb) (encode i)
  case prefixAny => intro hb; exact decode_prefix (hprefix.mpr hb) _
  case other => intro hop hb; exact decode_other hop (Bool.eq_false_iff.mpr (mt hprefix.mp hb)) _

/-- Settles O3: the vectors are closed, so the decoder is run on each. -/
theorem specWordsDecode : Obligations.SpecWordsDecode := by
  unfold Obligations.SpecWordsDecode
  decide

/-! ## Memory operands as addresses -/

theorem regOfNum_eq_esp_iff (b : BitVec 3) : regOfNum b = .esp ↔ b = 4 := by
  rw [← regNum_eq_four_iff, regNum_regOfNum]
  rfl

theorem regOfNum_eq_ebp_iff (b : BitVec 3) : regOfNum b = .ebp ↔ b = 5 := by
  rw [← regNum_eq_five_iff, regNum_regOfNum]
  rfl

/-- A SIB byte written as its three fields (30_encoding.md R114). -/
theorem decodeAddr_sib_fields (mod scale : BitVec 2) (index base : BitVec 3) (rest : List Byte) :
    decodeAddr mod 4 ((scale ++ index ++ base) :: rest) = decodeSib mod ⟨scale, regOfNum index, regOfNum base⟩ rest := by
  have hbyte : scale ++ index ++ base = modRM scale index base := rfl
  rw [decodeAddr_sib, sibOfByte, hbyte, modRM_mod, modRM_reg, modRM_rm]

namespace Machine

/-- The base registers that make SS the default segment are those numbered 100b and 101b. -/
theorem segOfBase_regOfNum (b : BitVec 3) : segOfBase (regOfNum b) = if b = 4 ∨ b = 5 then .ss else .ds := by
  revert b
  decide

/-- With another base register than ESP only that numbered 101b makes SS the default segment. -/
theorem segOfBase_regOfNum_of_ne_four {b : BitVec 3} (h4 : b ≠ 4) :
    segOfBase (regOfNum b) = if b = 5 then .ss else .ds := by
  simp only [segOfBase_regOfNum, h4, false_or]

/-- With another base register than EBP only that numbered 100b makes SS the default segment. -/
theorem segOfBase_regOfNum_of_ne_five {b : BitVec 3} (h5 : b ≠ 5) :
    segOfBase (regOfNum b) = if b = 4 then .ss else .ds := by
  simp only [segOfBase_regOfNum, h5, or_false]

/-- The index number 100b means that there is no index. -/
theorem sibIndex_regOfNum (g : Gprs) (scale : BitVec 2) (index : BitVec 3) :
    sibIndex g scale (regOfNum index) = if index = 4 then 0 else gprGet g (regOfNum index) <<< scale.toNat := by
  simp only [sibIndex, regOfNum_eq_esp_iff]

end Machine

open Machine

/-- Settles O4: each line of the table is an equation of the decoder, and the operand it answers has that line's offset and
segment. -/
theorem memoryOperandAddress : Obligations.MemoryOperandAddress := by
  refine ⟨?base, ?disp32, ?baseDisp8, ?baseDisp32, ?sib, fun _ _ _ _ => rfl⟩
  case base =>
    intro g rm rest h4 h5
    exact ⟨_, decodeAddr_base rest h4 h5, rfl, (segOfBase_regOfNum_of_ne_four h4).trans (if_neg h5)⟩
  case disp32 =>
    intro g d rest
    exact ⟨.disp32 d, by rw [decodeAddr_disp32, takeWord_wordBytes, Option.map_some], rfl, rfl⟩
  case baseDisp8 =>
    intro g rm d rest h4
    exact ⟨_, decodeAddr_baseDisp8 (d :: rest) h4, rfl, segOfBase_regOfNum_of_ne_four h4⟩
  case baseDisp32 =>
    intro g rm d rest h4
    exact ⟨.baseDisp32 (regOfNum rm) d, by rw [decodeAddr_baseDisp32 _ h4, takeWord_wordBytes, Option.map_some], rfl,
      segOfBase_regOfNum_of_ne_four h4⟩
  case sib =>
    intro g scale index base d8 d rest ix hix
    obtain rfl : ix = sibIndex g scale (regOfNum index) := hix.trans (sibIndex_regOfNum g scale index).symm
    refine ⟨fun h5 => ?base, ?noBase, ?disp8, ?disp32⟩
    case base =>
      have hebp : regOfNum base ≠ .ebp := mt (regOfNum_eq_ebp_iff base).mp h5
      exact ⟨.sib ⟨scale, regOfNum index, regOfNum base⟩, by rw [decodeAddr_sib_fields, decodeSib_base _ hebp], rfl,
        segOfBase_regOfNum_of_ne_five h5⟩
    case noBase =>
      exact ⟨.sibNoBase scale (regOfNum index) d,
        by rw [decodeAddr_sib_fields, decodeSib_noBase _ rfl, takeWord_wordBytes, Option.map_some], rfl, rfl⟩
    case disp8 =>
      exact ⟨.sibDisp8 ⟨scale, regOfNum index, regOfNum base⟩ d8,
        by rw [decodeAddr_sib_fields, decodeSib_disp8, List.head?_cons, Option.map_some], rfl, segOfBase_regOfNum base⟩
    case disp32 =>
      exact ⟨.sibDisp32 ⟨scale, regOfNum index, regOfNum base⟩ d,
        by rw [decodeAddr_sib_fields, decodeSib_disp32, takeWord_wordBytes, Option.map_some], rfl, segOfBase_regOfNum base⟩

end Sys2Proof
end

section
/-! A step on bytes that are no instruction, on a placed instruction, and on INTO with the overflow flag clear (30_encoding.md R117
to R120; log 4, log 18, log 29). -/

namespace Sys2Proof

/-! ## The bytes of a table word -/

theorem bytesHighFirst_length (w n : Nat) : (bytesHighFirst w n).length = n := by
  induction n with
  | zero => rfl
  | succ n ih => exact congrArg (· + 1) ih

theorem bytesLowFirst_length (w n : Nat) : (bytesLowFirst w n).length = n := by
  induction n generalizing w with
  | zero => rfl
  | succ n ih => exact congrArg (· + 1) (ih (w >>> 8))

/-- The bytes of a word of at most 64 bits are as many as a fetch reads at most. -/
theorem tableBytes_length {nbits : Nat} (h : nbits ≤ 64) (w : Nat) : (tableBytes nbits w).length = maxLength := by
  have hn : (nbits + 7) / 8 + (maxLength - (nbits + 7) / 8) = maxLength := by
    unfold maxLength
    omega
  simp only [tableBytes]
  split_ifs <;> simp only [List.length_append, List.length_replicate, bytesHighFirst_length, bytesLowFirst_length, hn]

/-- The instruction a table word stands for is the one its bytes decode to. -/
theorem decode_tableBytes {nbits w : Nat} {i : Instr} (h : decodeTableWord nbits w = some i) :
    ∃ n, decode (tableBytes nbits w) = .instr i n := by
  unfold decodeTableWord at h
  split at h
  next j n hd =>
    cases h
    exact ⟨n, hd⟩
  next => cases h

namespace Machine

/-! ## A placed instruction -/

/-- After placing, the bytes of the word stand where the fetch reads them (log 4). -/
theorem fetchByte_placeInstr (s : State) {nbits w j : Nat} (hn : nbits ≤ 64) (hj : j < (tableBytes nbits w).length) :
    fetchByte (placeInstr s nbits w) j = .ok (tableBytes nbits w)[j] := by
  have hlen : (tableBytes nbits w).length ≤ 2 ^ 32 := by
    rw [tableBytes_length hn, maxLength]
    omega
  have hlin : segToLinear (placeInstr s nbits w) .cs (s.eip + BitVec.ofNat 32 j) 1 .read = .ok (s.eip + BitVec.ofNat 32 j) := rfl
  rw [fetchByte, placeInstr_eip, hlin, ok_bind]
  exact (readByte_flat (placeInstr_pg s nbits w)).mpr (memGet_placeBytes_inside hlen hj)

theorem fetch_placeInstr (s : State) {nbits w n : Nat} {i : Instr} (hn : nbits ≤ 64)
    (hd : decode (tableBytes nbits w) = .instr i n) : fetch (placeInstr s nbits w) = .ok (.instr i n) :=
  fetchFrom_bytes (tableBytes nbits w) hd maxLength [] (tableBytes nbits w) rfl (tableBytes_length hn w).le
    fun _ hj => ⟨_, List.getElem?_eq_getElem hj, fetchByte_placeInstr s hn hj⟩

/-- With nothing pending and nothing presented, an instruction runs. -/
theorem boundaryEvent_placeInstr (s : State) (nbits w : Nat) : boundaryEvent (placeInstr s nbits w) = .run := by
  simp [boundaryEvent]

/-- There is nothing for the boundary to use up. -/
theorem boundaryState_placeInstr (s : State) (nbits w : Nat) :
    boundaryState (placeInstr s nbits w) = placeInstr s nbits w := by
  rw [boundaryState_of_pending_none (placeInstr_pending s nbits w), placeInstr_extInts, List.tail_nil, ite_self]
  rfl

/-- Settles O9: placing leaves nothing for the boundary to do, and the fetch finds the word's bytes. -/
theorem placedWordRuns : Obligations.PlacedWordRuns := by
  intro s nbits w i hn hi
  obtain ⟨n, hd⟩ := decode_tableBytes hi
  calc step (placeInstr s nbits w)
      = runInstr (boundaryState (placeInstr s nbits w)) := step_of_boundaryEvent_run (boundaryEvent_placeInstr s nbits w)
    _ = runInstr (placeInstr s nbits w) := congrArg runInstr (boundaryState_placeInstr s nbits w)
    _ = exec i (placeInstr s nbits w) := runInstr_of_fetch_instr (fetch_placeInstr s hn hd)

/-! ## Bytes that are no instruction -/

section NoInstr

variable {s : State}

theorem runInstr_of_fetch_undefined (h : fetch s = .ok .undefined) : runInstr s = takeException .ud s := by
  simp only [runInstr, h]

theorem runInstr_of_fetch_prefixByte {b : Byte} (h : fetch s = .ok (.prefixByte b)) :
    runInstr s = .refused (.prefixNotModelled b) := by
  simp only [runInstr, h]

theorem runInstr_of_fetch_outOfScope {b : Byte} (h : fetch s = .ok (.outOfScope b)) :
    runInstr s = .refused (.instructionOutOfScope b) := by
  simp only [runInstr, h]

theorem runInstr_of_fetch_error {st : Stop} (h : fetch s = .error st) : runInstr s = complete s (.error st) := by
  simp only [runInstr, h]

end NoInstr

/-- Settles O8: where an instruction is to run, the step is what the fetch's answer comes to. -/
theorem stepOnOtherBytes : Obligations.StepOnOtherBytes := by
  intro s hrun
  rw [step_of_boundaryEvent_run hrun]
  exact ⟨runInstr_of_fetch_undefined, fun _ => runInstr_of_fetch_prefixByte, fun _ => runInstr_of_fetch_outOfScope,
    fun _ => runInstr_of_fetch_error⟩

/-! ## INTO with the overflow flag clear -/

/-- The overflow flag, said with a mask (log 18). -/
theorem flagOF_eq_false_of_mask {f : Word} (h : f &&& 0x800 = 0) : flagOF f = false := by
  have hbit := congrArg (·.getLsbD 11) h
  simpa [flagOF] using hbit

theorem interruptInstr_into_of_flagOF_false {s : State} (h : flagOF s.eflags = false) (next : Word) :
    interruptInstr .into next s = .ok { s with eip := next } := by
  simp only [interruptInstr, h, Bool.false_eq_true, if_false]

/-- Settles O24: INTO vectors only with the flag set, and it is one byte long. -/
theorem intoWithoutOverflow : Obligations.IntoWithoutOverflow := by
  intro s h
  have hexec : exec (.intN .into) s = complete s (interruptInstr .into (s.eip + 1) s) := rfl
  rw [hexec, interruptInstr_into_of_flagOF_false (flagOF_eq_false_of_mask h), complete]

end Machine
end Sys2Proof
end

section
/-! LTR (40_task_register.md R140): what each of its checks answers, and what it leaves when all of them pass. -/

namespace Sys2Proof.Machine

section Ltr

variable {src : RM16} {s : State} {sel : Half} {a next : Word} {d : Desc} {st : Stop}

/-! ## The operand -/

theorem exec_ltr_of_cpl_ne_zero (hcpl : s.cpl ≠ 0) : exec (.ltr src) s = takeException (.gp 0) s := by
  have hop : ltrOperand src (nextEip s (.ltr src)) s = .error (.raise (.gp 0)) := if_pos hcpl
  exact congrArg (complete s) hop

theorem exec_ltr_of_cpl_zero (hcpl : s.cpl = 0) : exec (.ltr src) s
    = complete s (readRM16 s src >>= fun sel => loadTaskRegister sel (nextEip s (.ltr src)) s) := by
  have hop : ltrOperand src (nextEip s (.ltr src)) s
      = (readRM16 s src >>= fun sel => loadTaskRegister sel (nextEip s (.ltr src)) s) := if_neg (not_not_intro hcpl)
  exact congrArg (complete s) hop

theorem exec_ltr_of_operand_error (hcpl : s.cpl = 0) (hread : readRM16 s src = .error st) :
    exec (.ltr src) s = complete s (.error st) := by
  rw [exec_ltr_of_cpl_zero hcpl, hread, error_bind]

/-- With the operand read, LTR is what it does with the selector. -/
theorem exec_ltr_of_operand (hcpl : s.cpl = 0) (hread : readRM16 s src = .ok sel) :
    exec (.ltr src) s = complete s (loadTaskRegister sel (nextEip s (.ltr src)) s) := by
  rw [exec_ltr_of_cpl_zero hcpl, hread, ok_bind]

/-! ## The selector -/

theorem loadTaskRegister_of_null (hnull : selNull sel = true) : loadTaskRegister sel next s = .error (.raise (.gp 0)) :=
  if_pos hnull

theorem loadTaskRegister_of_ti (hnull : selNull sel = false) (hti : selTI sel = true) :
    loadTaskRegister sel next s = .error (.raise (.gp (errSel sel))) := by
  simp only [loadTaskRegister, hnull, hti, Bool.false_eq_true, if_false, if_true]

theorem loadTaskRegister_of_readDesc_error (hnull : selNull sel = false) (hti : selTI sel = false)
    (hdesc : readDesc s sel = .error st) : loadTaskRegister sel next s = .error st := by
  simp only [loadTaskRegister, hnull, hti, hdesc, Bool.false_eq_true, if_false, error_bind]

theorem loadTaskRegister_of_outOfTable (hnull : selNull sel = false) (hti : selTI sel = false)
    (hdesc : readDesc s sel = .ok none) : loadTaskRegister sel next s = .error (.raise (.gp (errSel sel))) := by
  simp only [loadTaskRegister, hnull, hti, hdesc, Bool.false_eq_true, if_false, ok_bind]

/-! ## The descriptor -/

theorem loadTaskRegister_of_checkLtr_error (hnull : selNull sel = false) (hti : selTI sel = false)
    (hdesc : readDesc s sel = .ok (some (a, d))) (hcheck : checkLtr sel d = .error st) :
    loadTaskRegister sel next s = .error st := by
  simp only [loadTaskRegister, hnull, hti, hdesc, hcheck, Bool.false_eq_true, if_false, ok_bind, error_bind]

/-- LTR once every check has passed and the busy bit is set. -/
theorem loadTaskRegister_of_setBusy {s' : State} (hnull : selNull sel = false) (hti : selTI sel = false)
    (hdesc : readDesc s sel = .ok (some (a, d))) (hcheck : checkLtr sel d = .ok ()) (hbusy : setBusy a true s = .ok s') :
    loadTaskRegister sel next s
      = .ok { s' with tr := { sel := sel, base := descBase d, limit := effLimit d }, eip := next } := by
  simp only [loadTaskRegister, hnull, hti, hdesc, hcheck, hbusy, Bool.false_eq_true, if_false, ok_bind]

theorem checkLtr_of_tss16 (h16 : isTss16 d = true) : checkLtr sel d = .error (.refuse .tss16NotModelled) := if_pos h16

theorem checkLtr_of_not_tss (h16 : isTss16 d = false) (htss : isTss d = false) :
    checkLtr sel d = .error (.raise (.gp (errSel sel))) := by
  simp [checkLtr, h16, htss]

theorem checkLtr_of_busy (htss : isTss d = true) (hbusy : descBusy d = true) :
    checkLtr sel d = .error (.raise (.gp (errSel sel))) := by
  simp [checkLtr, isTss16_of_isTss htss, htss, hbusy]

theorem checkLtr_of_not_present (htss : isTss d = true) (hbusy : descBusy d = false) (hpresent : descPresent d = false) :
    checkLtr sel d = .error (.raise (.np (errSel sel))) := by
  simp [checkLtr, isTss16_of_isTss htss, htss, hbusy, hpresent]

theorem checkLtr_of_available (htss : isTss d = true) (hbusy : descBusy d = false) (hpresent : descPresent d = true) :
    checkLtr sel d = .ok () := by
  simp [checkLtr, isTss16_of_isTss htss, htss, hbusy, hpresent]

end Ltr

/-- Settles O12: the tests of LTR one after the other; each clause assumes the outcomes of the tests before its own. -/
theorem ltrRefusals : Obligations.LtrRefusals := by
  intro src s
  refine ⟨exec_ltr_of_cpl_ne_zero, fun sel hcpl hread => ?_⟩
  rw [exec_ltr_of_operand hcpl hread]
  refine ⟨fun hnull => ?_, fun hti => ?_, fun hnull hti => ?_⟩
  · rw [loadTaskRegister_of_null ((selNull_true_iff sel).mpr hnull), complete]
  · rw [loadTaskRegister_of_ti ((selNull_false_iff sel).mpr (not_null_of_ti hti)) ((selTI_true_iff sel).mpr hti), complete, errSel]
  rw [← selNull_false_iff] at hnull
  rw [← selTI_false_iff] at hti
  refine ⟨fun hdesc => ?_, fun a d hdesc => ?_⟩
  · rw [loadTaskRegister_of_outOfTable hnull hti hdesc, complete, errSel]
  have hstop {st : Stop} (hcheck : checkLtr sel d = .error st) :=
    congrArg (complete s) (loadTaskRegister_of_checkLtr_error (next := nextEip s (.ltr src)) hnull hti hdesc hcheck)
  exact ⟨fun h16 => hstop (checkLtr_of_tss16 h16), fun h16 htss => hstop (checkLtr_of_not_tss h16 htss),
    fun htss hbusy => hstop (checkLtr_of_busy htss hbusy),
    fun htss hbusy hpresent => hstop (checkLtr_of_not_present htss hbusy hpresent)⟩

/-! ## Completion -/

/-- Settles O11: an available, present TSS descriptor passes every check, and then only the locked update can stop LTR. -/
theorem ltrUnderPaging : Obligations.LtrUnderPaging := by
  intro src s s' sel a d hcpl hread ⟨hti, hnull, hdesc, htss⟩ hbusy hpresent hset
  rw [exec_ltr_of_operand hcpl hread,
    loadTaskRegister_of_setBusy hnull hti hdesc (checkLtr_of_available htss hbusy hpresent) hset]
  rfl

/-- A byte of which bit 1 alone has been set is the old byte with that bit or-ed in. -/
theorem eq_or_two_of_getLsbD {x y : Byte} (h : ∀ i, y.getLsbD i = if i = 1 then true else x.getLsbD i) : y = x ||| 2 := by
  apply BitVec.eq_of_getLsbD_eq
  intro i hi
  rw [h i, BitVec.getLsbD_or]
  interval_cases i <;> simp

/-- Settles O10: with paging off the locked update succeeds and sets one bit of one byte, and the rest is what LTR does wherever
that update does. -/
theorem ltrLoadsTaskRegister : Obligations.LtrLoadsTaskRegister := by
  intro src s sel a d hpg hcpl hread hnames hbusy hpresent
  have ⟨_, _, hdesc, _⟩ := hnames
  obtain ⟨-, hhigh, -⟩ := readDesc_some hdesc
  obtain ⟨s', hset, hs', hframe, x, y, hx, hy, hbits⟩ := setBusyChangesOneBit a true s d.high hpg hhigh
  refine ⟨_, ltrUnderPaging src s s' sel a d hcpl hread hnames hbusy hpresent hset, ?_, ⟨x, hx, ?_⟩, hframe⟩
  · rw [hs']
  · exact eq_or_two_of_getLsbD hbits ▸ hy

end Sys2Proof.Machine
end

section
/-! STR (40_task_register.md R141): into a register, and into memory. -/

namespace Sys2Proof.Machine

/-! ## Into a register -/

theorem exec_str_reg (r : Reg) (s : State) : exec (.str (.reg r)) s
    = .next { s with
        gpr := gprSet s.gpr r (Config.strUpper s.freeCount ++ s.tr.sel)
        eip := s.eip + 3
        freeCount := s.freeCount + 1 } := rfl

/-- Settles O13: one register is written, its low half with the selector and the half above with a free value (log 10); nothing
can raise. -/
theorem strToRegister : Obligations.StrToRegister := by
  intro r s
  refine ⟨_, exec_str_reg r s, ?_, fun q hq => ?_, rfl⟩
  · rw [gprGet_gprSet, if_pos rfl, BitVec.extractLsb'_append_eq_right]
  · rw [gprGet_gprSet, if_neg hq]

/-! ## Into memory -/

section StrMem

variable {a : Addr} {s : State} {lin : Word} {st : Stop}

theorem exec_str_mem (a : Addr) (s : State) : exec (.str (.mem a)) s = complete s (do
    let s' ← (do
      let lin ← operandLinear s a 2 .write
      write16 s lin s.tr.sel)
    .ok { s' with eip := s.eip + BitVec.ofNat 32 (2 + addrLength a) }) := rfl

theorem exec_str_mem_of_operandLinear_error (hlin : operandLinear s a 2 .write = .error st) :
    exec (.str (.mem a)) s = complete s (.error st) := by
  rw [exec_str_mem, hlin, error_bind, error_bind]

theorem exec_str_mem_of_write16_error (hlin : operandLinear s a 2 .write = .ok lin)
    (hwrite : write16 s lin s.tr.sel = .error st) : exec (.str (.mem a)) s = complete s (.error st) := by
  rw [exec_str_mem, hlin, ok_bind, hwrite, error_bind]

theorem exec_str_mem_of_write16 {s' : State} (hlin : operandLinear s a 2 .write = .ok lin)
    (hwrite : write16 s lin s.tr.sel = .ok s') :
    exec (.str (.mem a)) s = .next { s' with eip := s.eip + BitVec.ofNat 32 (2 + addrLength a) } := by
  rw [exec_str_mem, hlin, ok_bind, hwrite, ok_bind, complete]

end StrMem

/-- The two addresses of a selector in memory are those at offsets 0 and 1. -/
theorem inRange_two_eq_false {p a : Word} (h0 : p ≠ a) (h1 : p ≠ a + 1) : inRange p a 2 = false := by
  simp only [inRange, decide_eq_false_iff_not]
  bv_omega

/-- The bytes of a selector placed at `a`, lowest first (20_memory.md R82). -/
theorem memGet_placeBytes_halfBytes (a : Word) (v : Half) (m : List Host.Cell) :
    memGet (placeBytes (halfBytes v) a m) a.toNat = some (v.extractLsb' 0 8)
      ∧ memGet (placeBytes (halfBytes v) a m) (a + 1).toNat = some (v.extractLsb' 8 8) := by
  have hbyte {i : Nat} (hi : i < (halfBytes v).length) :
      memGet (placeBytes (halfBytes v) a m) (a + BitVec.ofNat 32 i).toNat = some (halfBytes v)[i] :=
    memGet_placeBytes_inside (by simp [halfBytes]) hi
  have h0 := hbyte (i := 0) (by simp [halfBytes])
  rw [BitVec.add_zero] at h0
  exact ⟨h0, hbyte (i := 1) (by simp [halfBytes])⟩

/-- Settles O14: with paging off the selector's two bytes are placed at the operand's linear address. -/
theorem strToMemory : Obligations.StrToMemory := by
  intro a s lin hpg hlin
  obtain ⟨hlow, hhigh⟩ := memGet_placeBytes_halfBytes lin s.tr.sel s.mem
  refine ⟨_, exec_str_mem_of_write16 hlin (write16_flat hpg lin s.tr.sel), rfl, hlow, hhigh, ?_⟩
  intro p hp0 hp1
  exact memGet_placeBytes_outside (inRange_two_eq_false hp0 hp1)

end Sys2Proof.Machine
end

section
/-! TR (40_task_register.md R142): a step that writes it runs LTR or switches tasks, and writes all of it from one descriptor. -/

namespace Sys2Proof.Machine

@[simp] theorem boundaryState_tr (s : State) : (boundaryState s).tr = s.tr := rfl

/-- A task switch names a TSS descriptor, and TR is that descriptor's when it ends (41_task_switch.md R153, R163). -/
theorem taskSwitch_tr {k : SwitchKind} {ext : Bool} {tsel : Half} {ret : Word} {s t : State}
    (h : taskSwitch k ext tsel ret s = .ok t) :
    ∃ a d, NamesTss s tsel a d ∧ t.tr = { sel := tsel, base := descBase d, limit := effLimit d } := by
  obtain ⟨a, d, s', img, hfind, -, henter, -, rfl⟩ := taskSwitch_ok h
  refine ⟨a, d, (findTss_ok hfind).1, ?_⟩
  rw [makeUsable_tr, install_tr, henter.eq]

theorem otherTransfer_tr {r : OtherRequest} {s t : State} (h : otherTransfer r s = .ok t) : t.tr = s.tr := by
  obtain ⟨e, rfl⟩ := otherTransfer_ok h
  exact applyOther_tr e s

/-- A state follows another by LTR, by a task switch, each of which loads TR from the descriptor it names, or has its TR. -/
theorem Follows.tr_cases {l : Prop} {s t : State} (h : Follows l s t) :
    (l ∧ ∃ sel a d, NamesTss s sel a d ∧ t.tr = { sel := sel, base := descBase d, limit := effLimit d })
      ∨ (∃ (s1 : State) (k : SwitchKind) (ext : Bool) (tsel : Half) (ret : Word),
        s1 = { s with lastExn := s1.lastExn } ∧ taskSwitch k ext tsel ret s1 = .ok t)
      ∨ t.tr = s.tr := by
  cases h with
  | plain eq => exact .inr (.inr (by rw [eq]))
  | ltr isLtr names => exact .inl ⟨isLtr, names⟩
  | switch s1 k ext tsel ret eq h => exact .inr (.inl ⟨s1, k, ext, tsel, ret, eq, h⟩)
  | other s1 r eq h => exact .inr (.inr ((otherTransfer_tr h).trans (by rw [eq])))

/-- Settles O57: of the ways in which a step can go on from its boundary, only LTR and a task switch do not keep TR. -/
theorem onlyLtrAndSwitchWriteTr : Obligations.OnlyLtrAndSwitchWriteTr := by
  intro s t hstep hne
  rcases (step_follows hstep).tr_cases with
    ⟨⟨src, n, hfetch⟩, sel, a, d, hnames, htr⟩ | ⟨s1, k, ext, tsel, ret, heq, hswitch⟩ | hsame
  · exact .inl ⟨src, n, sel, a, d, hfetch, hnames, htr⟩
  · obtain ⟨a, d, hnames, htr⟩ := taskSwitch_tr hswitch
    exact .inr ⟨s1, k, ext, tsel, ret, a, d, heq, hswitch, hnames, htr⟩
  · exact absurd (hsame.trans (boundaryState_tr s)) hne

end Sys2Proof.Machine
end

section
/-! Where an access before the commit point stops, the instruction stops (60_exceptions.md R232, R234; 20_memory.md R91): how each
transfer comes to its task switch or to the standard mechanism, and what each answers when an access on the way stops. -/

namespace Sys2Proof.Machine

section Stops

variable {i : Instr} {s : State} {k : FarKind} {sel tsel bl : Half} {off next ret a : Word} {d g : Desc} {st : Stop}
  {v : Byte} {o : Origin} {f : IntForm}

/-! ## The task switch -/

theorem findTss_of_readDesc_error {kind : SwitchKind} {ext : Bool} (hnull : selNull tsel = false) (hti : selTI tsel = false)
    (hdesc : readDesc s tsel = .error st) : findTss kind ext tsel s = .error st := by
  simp only [findTss, hnull, hti, hdesc, Bool.or_self, Bool.false_eq_true, if_false, error_bind]

/-- A switch whose descriptor cannot be read stops there (41_task_switch.md R153). -/
theorem taskSwitch_of_readDesc_error (kind : SwitchKind) (ext : Bool) (ret : Word) (hnull : tsel &&& 0xFFFC ≠ 0)
    (hti : tsel &&& 4 = 0) (hdesc : readDesc s tsel = .error st) : taskSwitch kind ext tsel ret s = .error st :=
  taskSwitch_err (findTss_of_readDesc_error ((selNull_false_iff tsel).mpr hnull) ((selTI_false_iff tsel).mpr hti) hdesc)

/-! ## Far transfers -/

theorem farThroughMem_of_readFarPtr_error {m : Addr} (hptr : readFarPtr s m = .error st) :
    farThroughMem k m next s = .error st := by
  rw [farThroughMem, hptr, error_bind]

theorem farThroughMem_of_readFarPtr {m : Addr} (hptr : readFarPtr s m = .ok (sel, off)) :
    farThroughMem k m next s = farTransfer k sel off next s := by
  rw [farThroughMem, hptr, ok_bind]

/-- An instruction with a far pointer is the far transfer through it (42 R202 to R205). -/
theorem exec_of_farOf (h : farOf i s = some (k, sel, off)) :
    exec i s = complete s (farTransfer k sel off (nextEip s i) s) := by
  cases i with
  | jmpPtr off' sel' => cases h; rfl
  | callPtr off' sel' => cases h; rfl
  | jmpMem m =>
    simp only [farOf] at h
    split at h
    next hptr => cases h; exact congrArg (complete s) (farThroughMem_of_readFarPtr hptr)
    next => cases h
  | callMem m =>
    simp only [farOf] at h
    split at h
    next hptr => cases h; exact congrArg (complete s) (farThroughMem_of_readFarPtr hptr)
    next => cases h
  | str _ => cases h
  | ltr _ => cases h
  | iret => cases h
  | intN _ => cases h

theorem farTransfer_of_readDesc_error (hnull : selNull sel = false) (hdesc : readDesc s sel = .error st) :
    farTransfer k sel off next s = .error st := by
  simp only [farTransfer, hnull, hdesc, Bool.false_eq_true, if_false, error_bind]

theorem farTransfer_of_readDesc (hnull : selNull sel = false) (hdesc : readDesc s sel = .ok (some (a, d))) :
    farTransfer k sel off next s = farThrough k sel off next d s := by
  simp only [farTransfer, hnull, hdesc, Bool.false_eq_true, if_false, ok_bind]

theorem farThrough_of_tss (htss : isTss d = true) (hti : selTI sel = false) (hpriv : privilegeFails s sel d = false) :
    farThrough k sel off next d s = taskSwitch (farSwitch k) false sel next s := by
  simp only [farThrough, htss, hti, hpriv, Bool.true_or, Bool.false_eq_true, if_true, if_false]

theorem farThrough_of_taskGate (hgate : isTaskGate g = true) (hpriv : privilegeFails s sel g = false)
    (hpresent : descPresent g = true) :
    farThrough k sel off next g s = taskSwitch (farSwitch k) false (gateSel g) next s := by
  obtain ⟨htss, h16⟩ := not_tss_of_taskGate hgate
  simp only [farThrough, htss, h16, hgate, hpriv, hpresent, Bool.or_self, Bool.not_true, Bool.false_eq_true, if_true, if_false]

/-- A far transfer that leads to a task is the switch to it, directly or through a gate (42 R201). -/
theorem farTransfer_of_farLeadsTo (h : FarLeadsTo s sel tsel) :
    farTransfer k sel off next s = taskSwitch (farSwitch k) false tsel next s := by
  obtain ⟨hnull, ⟨a, d, ⟨hti, -, hdesc, htss⟩, hpriv, rfl⟩ | ⟨a, g, hdesc, hgate, hpriv, hpresent, rfl⟩⟩ := h
  · rw [farTransfer_of_readDesc hnull hdesc, farThrough_of_tss htss hti hpriv]
  · rw [farTransfer_of_readDesc hnull hdesc, farThrough_of_taskGate hgate hpriv hpresent]

/-! ## IRET -/

/-- IRET with NT set reads the back-link and switches to the task it names (42 R206). -/
theorem exec_iret_of_flagNT (hnt : flagNT s.eflags = true) :
    exec .iret s = complete s (read16 s s.tr.base >>= fun bl => taskSwitch .iret false bl (nextEip s .iret) s) := by
  have hret : interruptReturn (nextEip s .iret) s = returnFromTask (nextEip s .iret) s := if_pos hnt
  exact congrArg (complete s) hret

/-! ## Vectoring -/

theorem vectorTo_of_readIdt_error (hidt : readIdt s v = .error st) : vectorTo v o ret s = .error st := by
  rw [vectorTo, hidt, error_bind]

/-- Vectoring through an open task gate is the switch to the task it names (42 R208). -/
theorem vectorTo_of_gateOpen (h : GateOpen s v o g) :
    vectorTo v o ret s = taskSwitch .int (originExt o) (gateSel g) ret s := by
  obtain ⟨hidt, hgate, hdpl, hpresent⟩ := h
  simp only [vectorTo, hidt, hgate, hdpl, hpresent, ok_bind, Bool.not_true, Bool.false_eq_true, if_true, if_false]

/-- An interrupt instruction that has a vector vectors through it (42 R207; 30_encoding.md R119). -/
theorem exec_intN_of_intVector (h : intVector f s = some v) :
    exec (.intN f) s = complete s (vectorTo v .software (nextEip s (.intN f)) s) := by
  cases f with
  | imm n => cases h; rfl
  | int3 => cases h; rfl
  | into =>
    simp only [intVector] at h
    split at h
    next hof =>
      cases h
      have hinstr : interruptInstr .into (nextEip s (.intN .into)) s = vectorTo 4 .software (nextEip s (.intN .into)) s :=
        if_pos hof
      exact congrArg (complete s) hinstr
    next => cases h

end Stops

/-- Settles O15: each instruction goes through its accesses in order, and the one that stops gives the instruction its outcome. -/
theorem accessStops : Obligations.AccessStops := by
  refine ⟨?outcomes, ?ltrOperand, ?farPointer, ?ltrDescriptor, ?farDescriptor, ?switchDescriptor, ?farTask, ?backLink,
    ?backLinkTask, ?idtEntry, ?intTask, ?vectoring, ?strMemory⟩
  case outcomes => exact fun s e f r ev => ⟨rfl, rfl, rfl, rfl, rfl⟩
  case ltrOperand => exact fun a s st hcpl hread => exec_ltr_of_operand_error hcpl hread
  case farPointer =>
    intro a s st hptr
    have hstop (k : FarKind) (next : Word) := congrArg (complete s) (farThroughMem_of_readFarPtr_error (k := k) (next := next) hptr)
    exact ⟨hstop .jmp _, hstop .call _⟩
  case ltrDescriptor =>
    intro src s sel st hcpl hread hnull hti hdesc
    rw [exec_ltr_of_operand hcpl hread,
      loadTaskRegister_of_readDesc_error ((selNull_false_iff sel).mpr hnull) ((selTI_false_iff sel).mpr hti) hdesc]
  case farDescriptor =>
    intro i s k sel off st hfar hnull hdesc
    rw [exec_of_farOf hfar, farTransfer_of_readDesc_error ((selNull_false_iff sel).mpr hnull) hdesc]
  case switchDescriptor =>
    exact fun k ext tsel ret s st hnull hti hdesc => taskSwitch_of_readDesc_error k ext ret hnull hti hdesc
  case farTask =>
    intro i s k sel tsel off st hfar hleads hnull hti hdesc
    rw [exec_of_farOf hfar, farTransfer_of_farLeadsTo hleads, taskSwitch_of_readDesc_error _ _ _ hnull hti hdesc]
  case backLink =>
    intro s st hnt hread
    rw [exec_iret_of_flagNT hnt, hread, error_bind]
  case backLinkTask =>
    intro s bl st hnt hread hnull hti hdesc
    rw [exec_iret_of_flagNT hnt, hread, ok_bind, taskSwitch_of_readDesc_error _ _ _ hnull hti hdesc]
  case idtEntry =>
    intro f s v st hvector hidt
    rw [exec_intN_of_intVector hvector, vectorTo_of_readIdt_error hidt]
  case intTask =>
    intro f s v g st hvector hopen hnull hti hdesc
    rw [exec_intN_of_intVector hvector, vectorTo_of_gateOpen hopen, taskSwitch_of_readDesc_error _ _ _ hnull hti hdesc]
  case vectoring =>
    intro v o ret s st
    refine ⟨vectorTo_of_readIdt_error, fun g hopen hnull hti hdesc => ?_⟩
    rw [vectorTo_of_gateOpen hopen, taskSwitch_of_readDesc_error _ _ _ hnull hti hdesc]
  case strMemory =>
    intro a s
    cases hlin : operandLinear s a 2 .write with
    | error st => exact exec_str_mem_of_operandLinear_error hlin
    | ok lin =>
      cases hwrite : write16 s lin s.tr.sel with
      | error st => simpa only [hwrite] using exec_str_mem_of_write16_error hlin hwrite
      | ok s' => simpa only [hwrite] using exec_str_mem_of_write16 hlin hwrite

end Sys2Proof.Machine
end

section
/-! An exception pending in the incoming task at the boundary, and the checks of a task switch (41_task_switch.md R153 to R159). -/

namespace Sys2Proof.Machine

/-! ## The pending exception -/

theorem boundaryEvent_of_pending_some {s : State} {e : Exn} (h : s.pending = some e) : boundaryEvent s = .deliver e := by
  simp only [boundaryEvent, h]

/-- Nothing that the outside presents is used up where an exception is delivered (log 12). -/
theorem boundaryState_of_pending_some {s : State} {e : Exn} (h : s.pending = some e) :
    boundaryState s = { s with pending := none } := by
  simp only [boundaryState, h, Option.isNone_some, Bool.false_and, Bool.false_eq_true, if_false]

/-- Settles O47: the boundary looks at the pending exception first, and takes nothing but it out of the state. -/
theorem pendingExceptionFirst : Obligations.PendingExceptionFirst := by
  intro s e h
  simp only [step, boundaryEvent_of_pending_some h, boundaryState_of_pending_some h]

section Checks

variable {k : SwitchKind} {ext : Bool} {tsel err : Half} {s : State} {a : Word} {d : Desc} {st : Stop}

/-! ## The selector -/

theorem badTarget_eq_ite (k : SwitchKind) (err : Half) : badTarget k err = if k = .iret then .ts err else .gp err := by
  cases k <;> rfl

theorem findTss_of_ti (hti : selTI tsel = true) :
    findTss k ext tsel s = .error (.raise (badTarget k (errSelExt ext tsel))) :=
  if_pos (by rw [hti, Bool.true_or])

theorem findTss_of_null (hnull : selNull tsel = true) :
    findTss k ext tsel s = .error (.raise (badTarget k (errSelExt ext tsel))) :=
  if_pos (by rw [hnull, Bool.or_true])

theorem findTss_of_outOfTable (hti : selTI tsel = false) (hnull : selNull tsel = false) (hdesc : readDesc s tsel = .ok none) :
    findTss k ext tsel s = .error (.raise (badTarget k (errSelExt ext tsel))) := by
  simp only [findTss, hti, hnull, hdesc, Bool.or_self, Bool.false_eq_true, if_false, ok_bind]

/-! ## The descriptor -/

/-- A switch whose descriptor fails a check ends in what the check answers. -/
theorem taskSwitch_of_checkTss_error (ret : Word) (hti : selTI tsel = false) (hnull : selNull tsel = false)
    (hdesc : readDesc s tsel = .ok (some (a, d))) (hcheck : checkTss k (errSelExt ext tsel) d = .error st) :
    taskSwitch k ext tsel ret s = .error st := by
  apply taskSwitch_err
  simp only [findTss, hti, hnull, hdesc, hcheck, Bool.or_self, Bool.false_eq_true, if_false, ok_bind, error_bind]

theorem checkTss_of_tss16 (h16 : isTss16 d = true) : checkTss k err d = .error (.refuse .tss16NotModelled) := if_pos h16

theorem checkTss_of_not_tss (h16 : isTss16 d = false) (htss : isTss d = false) :
    checkTss k err d = .error (.raise (badTarget k err)) := by
  simp [checkTss, h16, htss]

theorem checkTss_of_not_present (htss : isTss d = true) (hpresent : descPresent d = false) :
    checkTss k err d = .error (.raise (.np err)) := by
  simp [checkTss, isTss16_of_isTss htss, htss, hpresent]

theorem checkTss_of_busy (htss : isTss d = true) (hpresent : descPresent d = true) (hk : k ≠ .iret)
    (hbusy : descBusy d = true) : checkTss k err d = .error (.raise (.gp err)) := by
  simp [checkTss, isTss16_of_isTss htss, htss, hpresent, hk, hbusy]

theorem checkTss_iret_of_available (htss : isTss d = true) (hpresent : descPresent d = true) (hbusy : descBusy d = false) :
    checkTss .iret err d = .error (.raise (.ts err)) := by
  simp [checkTss, isTss16_of_isTss htss, htss, hpresent, hbusy]

theorem busyAsNeeded_iff : busyAsNeeded k d = true ↔ (descBusy d = true ↔ k = .iret) := by
  rw [busyAsNeeded, beq_iff_eq, Bool.eq_iff_iff, decide_eq_true_eq]

theorem checkTss_of_short (htss : isTss d = true) (hpresent : descPresent d = true) (hbusy : busyAsNeeded k d = true)
    (hlimit : (effLimit d).toNat < 103) : checkTss k err d = .error (.raise (.ts err)) := by
  have hlt : effLimit d < 103#32 := hlimit
  rw [busyAsNeeded_iff] at hbusy
  by_cases hk : k = .iret <;> simp [checkTss, isTss16_of_isTss htss, htss, hpresent, hbusy, hk, hlt]

/-- A descriptor that passes the checks is busy exactly as the kind of switch needs it (41_task_switch.md R156). -/
theorem descBusy_iff_of_checkTss_ok {u : Unit} (h : checkTss k err d = .ok u) : descBusy d = true ↔ k = .iret := by
  have htss := checkTss_ok h
  have hpresent : descPresent d = true := by
    by_contra hnp
    cases h.symm.trans (checkTss_of_not_present htss (Bool.eq_false_iff.mpr hnp))
  constructor
  · intro hbusy
    by_contra hk
    cases h.symm.trans (checkTss_of_busy htss hpresent hk hbusy)
  · rintro rfl
    by_contra hbusy
    cases h.symm.trans (checkTss_iret_of_available htss hpresent (Bool.eq_false_iff.mpr hbusy))

end Checks

/-- Settles O26: the selector's tests come first, then the descriptor's kind. -/
theorem switchNeedsTssInGdt : Obligations.SwitchNeedsTssInGdt := by
  intro k ext tsel ret s x hx
  rw [← badTarget_eq_ite] at hx
  subst hx
  refine ⟨fun hti => taskSwitch_err (findTss_of_ti ((selTI_true_iff tsel).mpr hti)),
    fun hnull => taskSwitch_err (findTss_of_null ((selNull_true_iff tsel).mpr hnull)), fun hti hnull => ?_⟩
  have hti := (selTI_false_iff tsel).mpr hti
  have hnull := (selNull_false_iff tsel).mpr hnull
  refine ⟨fun hdesc => taskSwitch_err (findTss_of_outOfTable hti hnull hdesc), fun a d hdesc => ⟨fun htss h16 => ?_, fun h16 => ?_⟩⟩
  · exact taskSwitch_of_checkTss_error ret hti hnull hdesc (checkTss_of_not_tss h16 htss)
  · exact taskSwitch_of_checkTss_error ret hti hnull hdesc (checkTss_of_tss16 h16)

/-- Settles O27: presence is tested before the busy bit and the limit are looked at. -/
theorem switchNeedsPresent : Obligations.SwitchNeedsPresent := by
  intro k ext tsel ret s a d ⟨hti, hnull, hdesc, htss⟩ hpresent
  exact taskSwitch_of_checkTss_error ret hti hnull hdesc (checkTss_of_not_present htss hpresent)

/-- Settles O28: the busy test of a present TSS descriptor, one way for IRET and the other way for the rest. -/
theorem switchBusyTest : Obligations.SwitchBusyTest := by
  intro k ext tsel ret s a d ⟨hti, hnull, hdesc, htss⟩ hpresent
  refine ⟨fun hk hbusy => ?_, fun hk hbusy => ?_⟩
  · exact taskSwitch_of_checkTss_error ret hti hnull hdesc (checkTss_of_busy htss hpresent hk hbusy)
  · subst hk
    exact taskSwitch_of_checkTss_error ret hti hnull hdesc (checkTss_iret_of_available htss hpresent hbusy)

/-- Settles O29: the limit is tested last, where the tests before it have passed. -/
theorem switchLimitTest : Obligations.SwitchLimitTest := by
  intro k ext tsel ret s a d ⟨hti, hnull, hdesc, htss⟩ hpresent hbusy hlimit
  exact taskSwitch_of_checkTss_error ret hti hnull hdesc (checkTss_of_short htss hpresent hbusy hlimit)

end Sys2Proof.Machine
end

section
/-! The commit point of a task switch (41_task_switch.md R158; 20_memory.md R91): before it exceptions are raised, after it none is, and
a not-present page is the fault `PageFaultInsideTaskSwitch`. -/

namespace Sys2Proof.Machine

/-! ## What an access can raise -/

/-- Whatever exception this operation raises is a page fault. -/
def RaisesOnlyPageFaults {α : Type} (x : Except Stop α) : Prop := ∀ e, x = .error (.raise e) → ∃ lin, e = .pf lin

section Raises

variable {α β : Type}

theorem RaisesOnlyPageFaults.ok (a : α) : RaisesOnlyPageFaults (.ok a) := nofun

theorem RaisesOnlyPageFaults.fault (f : Fault) : RaisesOnlyPageFaults (α := α) (.error (.fault f)) := nofun

theorem RaisesOnlyPageFaults.bind {x : Except Stop α} {f : α → Except Stop β} (hx : RaisesOnlyPageFaults x)
    (hf : ∀ a, RaisesOnlyPageFaults (f a)) : RaisesOnlyPageFaults (x >>= f) := by
  cases x with
  | ok a => exact hf a
  | error st =>
    intro e he
    cases he
    exact hx e rfl

theorem RaisesOnlyPageFaults.ite {c : Prop} [Decidable c] {x y : Except Stop α} (hx : RaisesOnlyPageFaults x)
    (hy : RaisesOnlyPageFaults y) : RaisesOnlyPageFaults (if c then x else y) := by
  split
  · exact hx
  · exact hy

/-- An operation followed by one that cannot raise. -/
theorem RaisesOnlyPageFaults.bind_ok {x : Except Stop α} {f : α → β} (hx : RaisesOnlyPageFaults x) :
    RaisesOnlyPageFaults (x >>= fun a => .ok (f a)) :=
  hx.bind fun _ => .ok _

end Raises

/-! ## Reads and stores -/

theorem translate_raises (s : State) (lin : Word) (acc : Access) : RaisesOnlyPageFaults (translate s lin acc) := by
  refine .ite ?_ (.ok _)
  split
  · exact .ok _
  · intro e he
    cases he
    exact ⟨lin, rfl⟩

theorem readByte_raises (s : State) (lin : Word) : RaisesOnlyPageFaults (readByte s lin) := by
  refine (translate_raises s lin .read).bind fun p => ?_
  split
  · exact .ok _
  · exact .fault _

theorem read16_raises (s : State) (lin : Word) : RaisesOnlyPageFaults (read16 s lin) :=
  (readByte_raises s _).bind fun _ => (readByte_raises s _).bind_ok

theorem read32_raises (s : State) (lin : Word) : RaisesOnlyPageFaults (read32 s lin) :=
  (readByte_raises s _).bind fun _ => (readByte_raises s _).bind fun _ => (readByte_raises s _).bind fun _ =>
    (readByte_raises s _).bind_ok

theorem storeBytes_raises (bs : List StoreByte) (a : Word) (s : State) : RaisesOnlyPageFaults (storeBytes bs a s) := by
  induction bs generalizing a s with
  | nil => exact .ok _
  | cons b bs ih =>
    simp only [storeBytes]
    split
    · exact ih _ _
    · next st htr =>
      refine .ite (ih _ _) fun e he => ?_
      cases he
      exact translate_raises s a .write e htr

theorem setBusy_raises (a : Word) (b : Bool) (s : State) : RaisesOnlyPageFaults (setBusy a b s) :=
  (read32_raises s _).bind fun _ => storeBytes_raises _ _ _

/-! ## From the commit point to the last read -/

theorem leaveTask_raises (k : SwitchKind) (ret : Word) (s : State) : RaisesOnlyPageFaults (leaveTask k ret s) :=
  (storeBytes_raises _ _ _).bind_ok.bind fun _ => .ite (.ok _) (setBusy_raises _ _ _)

theorem enterTask_raises (k : SwitchKind) (osel tsel : Half) (a : Word) (d : Desc) (s : State) :
    RaisesOnlyPageFaults (enterTask k osel tsel a d s) :=
  .bind (.ite (.ok _) (setBusy_raises _ _ _)) fun _ => .ite (storeBytes_raises _ _ _) (.ok _)

theorem readGprs_raises (nb : Word) (s : State) : RaisesOnlyPageFaults (readGprs nb s) :=
  (read32_raises s _).bind fun _ => (read32_raises s _).bind fun _ => (read32_raises s _).bind fun _ =>
    (read32_raises s _).bind fun _ => (read32_raises s _).bind fun _ => (read32_raises s _).bind fun _ =>
      (read32_raises s _).bind fun _ => (read32_raises s _).bind_ok

theorem readImage_raises (nb : Word) (s : State) : RaisesOnlyPageFaults (readImage nb s) :=
  (read16_raises s _).bind fun _ => .bind (.ite (read32_raises s _).bind_ok (.ok _)) fun _ => (read32_raises s _).bind fun _ =>
    (read32_raises s _).bind fun _ => (readGprs_raises nb s).bind fun _ => (read16_raises s _).bind fun _ =>
      (read16_raises s _).bind fun _ => (read16_raises s _).bind fun _ => (read16_raises s _).bind fun _ =>
        (read16_raises s _).bind fun _ => (read16_raises s _).bind fun _ => (read16_raises s _).bind_ok

/-- From the commit point on an access raises for a not-present page and for nothing else. -/
theorem commitSwitch_raises (k : SwitchKind) (tsel : Half) (ret a : Word) (d : Desc) (s : State) :
    RaisesOnlyPageFaults (commitSwitch k tsel ret a d s) :=
  (leaveTask_raises k ret s).bind fun _ => (enterTask_raises k _ tsel a d _).bind fun _ => (readImage_raises _ _).bind_ok

/-! ## The switch once its checks have passed -/

section Committed

variable {k : SwitchKind} {ext : Bool} {tsel : Half} {ret a : Word} {d : Desc} {s s' : State} {img : TssImage} {st : Stop}

theorem taskSwitch_of_findTss (hfind : findTss k ext tsel s = .ok (a, d)) : taskSwitch k ext tsel ret s
    = (committed (commitSwitch k tsel ret a d s) >>= fun x => finishSwitch x.2.t (install k x.2 x.1)) := by
  rw [taskSwitch, hfind, ok_bind]

theorem taskSwitch_of_commitSwitch (hfind : findTss k ext tsel s = .ok (a, d))
    (hcommit : commitSwitch k tsel ret a d s = .ok (s', img)) : taskSwitch k ext tsel ret s
    = if (fillHidden (install k img s')).stop = some .notPresentPage then .error (.fault .pageFaultInsideTaskSwitch)
      else .ok (makeUsable img.t (install k img s')) := by
  rw [taskSwitch_of_findTss hfind, hcommit, committed, ok_bind, finishSwitch_eq]

theorem taskSwitch_of_commitSwitch_error (hfind : findTss k ext tsel s = .ok (a, d))
    (hcommit : commitSwitch k tsel ret a d s = .error st) :
    taskSwitch k ext tsel ret s = committed (.error st) := by
  rw [taskSwitch_of_findTss hfind, hcommit]
  cases st <;> rfl

/-- Past its checks a switch raises nothing (41_task_switch.md R158). -/
theorem taskSwitch_no_raise (hfind : findTss k ext tsel s = .ok (a, d)) (e : Exn) :
    taskSwitch k ext tsel ret s ≠ .error (.raise e) := by
  cases hcommit : commitSwitch k tsel ret a d s with
  | ok x =>
    rw [taskSwitch_of_commitSwitch hfind hcommit]
    split <;> simp
  | error st =>
    rw [taskSwitch_of_commitSwitch_error hfind hcommit]
    cases st <;> simp [committed]

/-- An exception that a switch raises is one of its checks'. -/
theorem findTss_of_taskSwitch_raise {e : Exn} (h : taskSwitch k ext tsel ret s = .error (.raise e)) :
    findTss k ext tsel s = .error (.raise e) := by
  cases hfind : findTss k ext tsel s with
  | ok x => exact absurd h (taskSwitch_no_raise hfind e)
  | error st => rw [Except.error.inj ((taskSwitch_err hfind).symm.trans h)]

end Committed

/-! ## A not-present page met by the filling of the hidden parts -/

section NotPresent

variable {u : State} {g : SegName} {sel : Half} {e : Exn}

theorem peekDesc_of_raise (hnull : selNull sel = false) (hdesc : readDesc u sel = .error (.raise e)) :
    peekDesc u sel = .error .notPresentPage := by
  simp only [peekDesc, hnull, hdesc, Bool.false_eq_true, if_false]

theorem loadSeg_of_raise (hnull : selNull (segGet u.segs g).sel = false)
    (hdesc : readDesc u (segGet u.segs g).sel = .error (.raise e)) : loadSeg g u = .error .notPresentPage := by
  simp only [loadSeg, peekDesc_of_raise hnull hdesc]

/-- A page is not present only with paging on. -/
theorem pg_of_readDesc_raise (hdesc : readDesc u sel = .error (.raise e)) : u.pg = true := by
  cases hp : u.pg with
  | false => exact absurd hdesc (readDesc_no_raise hp sel e)
  | true => rfl

theorem loadLdt_of_raise (hnull : selNull u.ldtr.sel = false) (hti : selTI u.ldtr.sel = false)
    (hdesc : readDesc u u.ldtr.sel = .error (.raise e)) : loadLdt u = .error .notPresentPage := by
  simp only [loadLdt, ldtDescNotPresent, peekDesc_of_raise hnull hdesc, pg_of_readDesc_raise hdesc, hti, Bool.not_false,
    decide_true, Bool.true_or, Bool.and_self, if_true]

theorem fillHidden_of_loadLdt_error {st : FillStop} (h : loadLdt u = .error st) :
    fillHidden u = { segs := u.segs, ldt := u.ldtr.hidden, stop := some st } := by
  simp only [fillHidden, h]

end NotPresent

/-- Settles O30: before the commit point there are the checks alone, after it `committed` turns what is raised, a page fault each
time, into the fault, and the filling's not-present page becomes the same fault. -/
theorem switchRaisesOnlyBeforeCommit : Obligations.SwitchRaisesOnlyBeforeCommit := by
  intro k ext tsel ret s
  refine ⟨fun a d hfind => ⟨taskSwitch_no_raise hfind, ?commit⟩, fun e => findTss_of_taskSwitch_raise, fun u g hnull => ?seg,
    fun u hnull hti => ?ldt⟩
  case commit =>
    cases hcommit : commitSwitch k tsel ret a d s with
    | ok x => exact taskSwitch_of_commitSwitch hfind hcommit
    | error st =>
      have hswitch := taskSwitch_of_commitSwitch_error hfind hcommit
      cases st with
      | raise e => exact ⟨commitSwitch_raises k tsel ret a d s e hcommit, hswitch⟩
      | fault f => exact hswitch
      | refuse r => exact hswitch
  case seg =>
    split
    · next hdesc => exact loadSeg_of_raise hnull hdesc
    · trivial
  case ldt =>
    split
    · next hdesc => rw [fillHidden_of_loadLdt_error (loadLdt_of_raise hnull hti hdesc)]
    · trivial

end Sys2Proof.Machine
end

section
/-! What a task switch leaves in the registers (41_task_switch.md R163 to R168, R171): paging on or off in the memory its stores leave,
and with paging off in the memory it ends with. -/

namespace Sys2Proof.Machine

/-! ## What was read of the incoming TSS -/

theorem readImage_pd_of_unpaged {nb : Word} {s : State} {img : TssImage} (h : readImage nb s = .ok img) (hoff : s.pg = false) :
    img.pd = none := by
  obtain ⟨-, -, -, -, -, -, -, -, -, -, -, -, hunpaged⟩ := readImage_ok h
  exact hunpaged hoff

/-- The T-bit is bit 0 of the word at offset 100 (41_task_switch.md R169). -/
theorem readImage_trapBit {nb : Word} {s : State} {img : TssImage} (h : readImage nb s = .ok img) :
    ∃ w, read16 s (nb + 100) = .ok w ∧ img.t = w.getLsbD 0 := by
  obtain ⟨-, -, -, -, -, -, -, -, -, -, htrap, -⟩ := readImage_ok h
  exact htrap

/-! ## A switch that runs -/

section Runs

variable {k : SwitchKind} {ext : Bool} {tsel : Half} {ret a : Word} {d : Desc} {s s' t : State} {img : TssImage}

/-- The checks find one descriptor, so a switch that ends has run with the one they find. -/
theorem taskSwitch_runs_of_findTss (hfind : findTss k ext tsel s = .ok (a, d)) (h : taskSwitch k ext tsel ret s = .ok t) :
    ∃ s' img, SwitchRuns k ext tsel ret a d s s' img ∧ t = makeUsable img.t (install k img s') := by
  obtain ⟨a', d', s', img, hruns, rfl⟩ := switchRuns_of_ok h
  obtain ⟨rfl, rfl⟩ := Prod.mk.inj (Except.ok.inj (hfind.symm.trans hruns.finds))
  exact ⟨s', img, hruns, rfl⟩

theorem SwitchRuns.enters (h : SwitchRuns k ext tsel ret a d s s' img) :
    OnlyEnters { sel := tsel, base := descBase d, limit := effLimit d } s s' := (commitSwitch_ok h.commits).1

theorem SwitchRuns.image (h : SwitchRuns k ext tsel ret a d s s' img) : readImage (descBase d) s' = .ok img :=
  (commitSwitch_ok h.commits).2

/-- What the filling of the hidden parts begins with, seen from the state the switch ends in. -/
theorem SwitchRuns.beforeFilling (h : SwitchRuns k ext tsel ret a d s s' img) :
    beforeFilling s (makeUsable img.t (install k img s')) = install k img s' := beforeFilling_makeUsable h.enters

theorem SwitchRuns.mem (h : SwitchRuns k ext tsel ret a d s s' img) (ht : taskSwitch k ext tsel ret s = .ok t) :
    t.mem = s'.mem := by
  rw [← Except.ok.inj ((taskSwitch_of_runs h).symm.trans ht), makeUsable_mem, install_mem]

end Runs

/-- Settles O32: what was read of the incoming TSS stood in the memory and the address space of `s'`, and `install` loads it. -/
theorem switchLoadsUnderPaging : Obligations.SwitchLoadsUnderPaging := by
  intro k ext tsel ret s s' a d img hruns
  have hpdbr : s'.pdbr = s.pdbr := by rw [hruns.enters.eq]
  have hpg : s'.pg = s.pg := by rw [hruns.enters.eq]
  obtain ⟨heip, hflags, hgpr, -, -, -, -, -, -, hldt, -, hpaged, -⟩ := readImage_ok hruns.image
  refine ⟨_, taskSwitch_of_runs hruns, hpdbr, hpg, ?_, heip, ⟨img.flags, hflags, rfl⟩, hgpr, readImage_segs hruns.image k _ _, hldt⟩
  rw [makeUsable_pdbr, install_pdbr, ← hpg]
  split
  · next hon =>
    obtain ⟨pd, hread, hpd⟩ := hpaged hon
    rw [hpd]
    exact hread
  · next hoff =>
    rw [readImage_pd_of_unpaged hruns.image (Bool.eq_false_iff.mpr hoff)]
    exact hpdbr

/-- Settles O33: TR and MSW.TS are written by the entry into the task, CPL by `install`, and none of the rest by either or by the
filling of the hidden parts. -/
theorem switchFrame : Obligations.SwitchFrame := by
  intro k ext tsel ret s t h
  refine ⟨taskSwitch_tr h, ?_⟩
  obtain ⟨hpg, hgdtr, hidtr⟩ := taskSwitch_sameTables h
  obtain ⟨a, d, s', img, hruns, rfl⟩ := switchRuns_of_ok h
  have hs' := hruns.enters.eq
  have hpdbr : s.pg = false → (makeUsable img.t (install k img s')).pdbr = s.pdbr := by
    intro hoff
    have hoff' : s'.pg = false := by rw [hs']; exact hoff
    rw [makeUsable_pdbr, install_pdbr, readImage_pd_of_unpaged hruns.image hoff', hs']
    rfl
  have hext : (makeUsable img.t (install k img s')).extIntEnabled = s.extIntEnabled := by
    rw [makeUsable_extIntEnabled, install_extIntEnabled, hs']
  refine ⟨?_, rfl, hgdtr, hidtr, hpg, hpdbr, hext, ?_, ?_, ?_⟩
  · rw [makeUsable_ts, install_ts, hs']
  · rw [makeUsable_extInts, install_extInts, hs']
  · rw [makeUsable_lastExn, install_lastExn, hs']
  · rw [admitsExternal, hext]

/-- Settles O31: a ready switch runs, and with paging off the memory it ends with is the memory the incoming TSS was read in. -/
theorem switchEntersTask : Obligations.SwitchEntersTask := by
  intro k ext tsel ret s a d hready
  obtain ⟨s', img, hruns⟩ := switchRuns_of_ready (ext := ext) ret hready
  obtain ⟨t, ht, -, hpg', -, heip, ⟨f, hf, heflags⟩, hgpr, hsegs, hldt⟩ := switchLoadsUnderPaging k ext tsel ret s s' a d img hruns
  obtain ⟨-, hts, hcpl, hgdtr, hidtr, hpg, hpdbr, hext, hints, hlast, -⟩ := switchFrame k ext tsel ret s t ht
  have htr : t.tr = { sel := tsel, base := descBase d, limit := effLimit d } := by
    rw [← Except.ok.inj ((taskSwitch_of_runs hruns).symm.trans ht), makeUsable_tr, install_tr, hruns.enters.eq]
  have hoff' : s'.pg = false := hpg'.trans hready.paging
  have hoff : t.pg = false := hpg.trans hready.paging
  have h32 (x : Word) : read32 t x = read32 s' x := read32_mem hoff' hoff (hruns.mem ht) x
  have h16 (x : Word) : read16 t x = read16 s' x := read16_mem hoff' hoff (hruns.mem ht) x
  refine ⟨t, ht, ?_⟩
  exact {
    tr := htr
    ts := hts
    eip := (h32 _).trans heip
    eflags := ⟨f, (h32 _).trans hf, heflags⟩
    gpr := fun r => (h32 _).trans (hgpr r)
    segs := fun g => (h16 _).trans (hsegs g)
    ldtr := (h16 _).trans hldt
    pdbr := hpdbr hready.paging
    cpl := hcpl
    pg := hpg
    gdtr := hgdtr
    idtr := hidtr
    extIntEnabled := hext
    extInts := hints
    lastExn := hlast }

end Sys2Proof.Machine
end

section
/-! What a task switch leaves in memory with paging off (41_task_switch.md R160 to R163, R167, R170): the outgoing task's saved registers,
the two busy bits, the back-link, and every other byte as it was. -/

namespace Sys2Proof.Machine

section Stages

variable {k : SwitchKind} {ext : Bool} {tsel : Half} {ret a : Word} {d : Desc} {s t : State} {p : Word}

/-! ## The stores of a switch that ends -/

/-- Installing the incoming task and filling the hidden parts store nothing, so the last of the stages is the memory of the end. -/
theorem taskSwitch_stages (hoff : s.pg = false) (hfind : findTss k ext tsel s = .ok (a, d))
    (h : taskSwitch k ext tsel ret s = .ok t) : CommitStages k tsel ret a d s t := by
  obtain ⟨s', img, hruns, rfl⟩ := taskSwitch_runs_of_findTss hfind h
  exact ⟨(commitSwitch_stages hoff hruns.commits).ex⟩

theorem outside_of_switchWrites (h : switchWrites k a d s p = false) :
    inRange p (s.tr.base + 32) 64 = false ∧ (links k = false → p ≠ outgoingDesc s + 5) ∧ (k ≠ .iret → p ≠ a + 5)
      ∧ (links k = true → inRange p (descBase d) 2 = false) := by
  simp only [switchWrites, Bool.or_eq_false_iff, Bool.and_eq_false_iff, Bool.not_eq_false', beq_eq_false_iff_ne,
    decide_eq_false_iff_not, not_not] at h
  obtain ⟨⟨⟨hsave, hout⟩, hin⟩, hlink⟩ := h
  refine ⟨hsave, fun hl => hout.resolve_left (by simp [hl]), fun hk => hin.resolve_left hk, fun hl => hlink.resolve_left (by simp [hl])⟩

/-- What no store of the switch touches has its old value at the end. -/
theorem CommitStages.frame (hoff : s.pg = false) (h : CommitStages k tsel ret a d s t) (hp : switchWrites k a d s p = false) :
    memGet t.mem p.toNat = memGet s.mem p.toNat := by
  obtain ⟨hsave, hout, hin, hlink⟩ := outside_of_switchWrites hp
  obtain ⟨m1, m2, m3, -, hm1, hm2, hm2', hm3, hm3', hm4, hm4'⟩ := commitSwitch_frames hoff h
  have h2 : memGet m2 p.toNat = memGet m1 p.toNat := by
    cases hl : links k with
    | true => rw [hm2 hl]
    | false => exact (hm2' hl).1 p (hout hl)
  have h3 : memGet m3 p.toNat = memGet m2 p.toNat := by
    by_cases hk : k = .iret
    · rw [hm3 hk]
    · exact (hm3' hk).1 p (hin hk)
  have h4 : memGet t.mem p.toNat = memGet m3 p.toNat := by
    cases hl : links k with
    | true => rw [hm4' hl]; exact backLink_frame (hlink hl)
    | false => rw [hm4 hl]
  calc memGet t.mem p.toNat = memGet m3 p.toNat := h4
    _ = memGet m2 p.toNat := h3
    _ = memGet m1 p.toNat := h2
    _ = memGet s.mem p.toNat := hm1 p hsave

/-- A byte of a range that is apart from a descriptor is not the byte that holds its busy bit. -/
theorem ne_busy_byte_of_apart {x y : Word} {n : Nat} (h : apart x n y 8 = true) (hp : inRange p x n = true) : p ≠ y + 5 :=
  ne_of_apart (i := 5) h hp (by decide) (by decide)

/-- A range that is apart from the structures a switch of this kind stores to holds no byte that it changes. -/
theorem switchWrites_of_apart {x : Word} {n : Nat} (hsave : apart (s.tr.base + 32) 64 x n = true)
    (hout : links k = false → apart x n (outgoingDesc s) 8 = true) (hin : k ≠ .iret → apart x n a 8 = true)
    (hlink : links k = true → apart (descBase d) 2 x n = true) (hp : inRange p x n = true) : switchWrites k a d s p = false :=
  switchWrites_outside (apart_outside (apart_comm ▸ hsave) hp) (fun hl => ne_busy_byte_of_apart (hout hl) hp)
    (fun hk => ne_busy_byte_of_apart (hin hk) hp) fun hl => apart_outside (apart_comm ▸ hlink hl) hp

/-! ## The saved registers -/

theorem gprSlot_eq (b : Word) (r : Reg) : gprSlot b r = b + 32 + BitVec.ofNat 32 (8 + 4 * (regNum r).toNat) := by
  simp only [gprSlot]
  bv_omega

theorem segSlot_eq (b : Word) (g : SegName) : segSlot b g = b + 32 + BitVec.ofNat 32 (40 + 4 * segNum g) := by
  simp only [segSlot]
  bv_omega

theorem regNum_toNat_lt (r : Reg) : (regNum r).toNat < 8 := (regNum r).isLt

theorem segNum_lt (g : SegName) : segNum g < 6 := by
  cases g <;> decide

/-- What was stored from offset 32 upwards reads back field by field (10_state.md R37). -/
theorem CommitStages.saved (hoff : s.pg = false) (hoff' : t.pg = false) (h : CommitStages k tsel ret a d s t)
    (hapart : switchApart a d s = true) : Saved k ret s t := by
  have hstay := saved_bytes_stay hoff h hapart
  have hlen := saveImage_val_length k ret s
  constructor
  case eip =>
    have := read32_saved hoff hoff' hlen hstay (by decide) (saveImage_eip k ret s)
    rwa [BitVec.add_zero] at this
  case eflags =>
    have := read32_saved hoff hoff' hlen hstay (by decide) (saveImage_eflags k ret s)
    rwa [show s.tr.base + 32 + BitVec.ofNat 32 4 = s.tr.base + 36 by bv_omega] at this
  case gpr =>
    intro r
    rw [gprSlot_eq]
    have := regNum_toNat_lt r
    exact read32_saved hoff hoff' hlen hstay (by omega) (saveImage_gpr k ret s r)
  case segs =>
    intro g
    rw [segSlot_eq]
    have := segNum_lt g
    exact read16_saved hoff hoff' hlen hstay (by omega) (saveImage_seg k ret s g)

/-! ## The busy bits and the back-link -/

theorem inRange_high_row {x : Word} (h : inRange p (x + 4) 4 = true) : inRange p x 8 = true :=
  inRange_sub (i := 4) h (by decide) (by decide)

/-- The outgoing descriptor of a switch that does not link becomes available, and nothing else of its high row changes
(41_task_switch.md R162). -/
theorem CommitStages.outgoing_row (hoff : s.pg = false) (hoff' : t.pg = false) (h : CommitStages k tsel ret a d s t) {hi : Word}
    (hl : links k = false) (hsave : apart (s.tr.base + 32) 64 (outgoingDesc s) 8 = true)
    (hin : k ≠ .iret → apart a 8 (outgoingDesc s) 8 = true) (hrow : read32 s (outgoingDesc s + 4) = .ok hi) :
    read32 t (outgoingDesc s + 4) = .ok (withBusy false hi) := by
  obtain ⟨m1, m2, m3, -, hm1, -, hm2, hm3, hm3', hm4, -⟩ := commitSwitch_frames hoff h
  obtain ⟨-, hi', hread, hback⟩ := hm2 hl
  have hsame : read32 { s with mem := m1 } (outgoingDesc s + 4) = read32 s (outgoingDesc s + 4) :=
    read32_agree hoff (t := { s with mem := m1 }) hoff fun p hp =>
      hm1 p (apart_outside (apart_comm ▸ hsave) (inRange_high_row hp))
  obtain rfl : hi' = hi := Except.ok.inj (hread.symm.trans (hsame.trans hrow))
  refine (read32_agree (s := { s with mem := m2 }) hoff hoff' fun p hp => ?_).trans hback
  rw [hm4 hl]
  by_cases hk : k = .iret
  · rw [hm3 hk]
  · exact (hm3' hk).1 p (ne_busy_byte_of_apart (apart_comm ▸ hin hk) (inRange_high_row hp))

/-- The incoming descriptor of a switch that is no IRET becomes busy, and nothing else of its high row changes
(41_task_switch.md R163). -/
theorem CommitStages.incoming_row (hoff : s.pg = false) (hoff' : t.pg = false) (h : CommitStages k tsel ret a d s t) {hi : Word}
    (hk : k ≠ .iret) (hsave : apart (s.tr.base + 32) 64 a 8 = true) (hout : apart a 8 (outgoingDesc s) 8 = true)
    (hlink : apart (descBase d) 2 a 8 = true) (hrow : read32 s (a + 4) = .ok hi) :
    read32 t (a + 4) = .ok (withBusy true hi) := by
  obtain ⟨m1, m2, m3, -, hm1, hm2, hm2', -, hm3, hm4, hm4'⟩ := commitSwitch_frames hoff h
  obtain ⟨-, hi', hread, hback⟩ := hm3 hk
  have hsame : read32 { s with mem := m2 } (a + 4) = read32 s (a + 4) := by
    refine read32_agree hoff (t := { s with mem := m2 }) hoff fun p hp => ?_
    have h1 := hm1 p (apart_outside (apart_comm ▸ hsave) (inRange_high_row hp))
    cases hl : links k with
    | true => exact (hm2 hl) ▸ h1
    | false => exact ((hm2' hl).1 p (ne_busy_byte_of_apart hout (inRange_high_row hp))).trans h1
  obtain rfl : hi' = hi := Except.ok.inj (hread.symm.trans (hsame.trans hrow))
  refine (read32_agree (s := { s with mem := m3 }) hoff hoff' fun p hp => ?_).trans hback
  cases hl : links k with
  | true => rw [hm4' hl]; exact backLink_frame (apart_outside (apart_comm ▸ hlink) (inRange_high_row hp))
  | false => rw [hm4 hl]

/-- The back-link of a switch that links is the outgoing task's selector (41_task_switch.md R167). -/
theorem CommitStages.back_link (hoff : s.pg = false) (hoff' : t.pg = false) (h : CommitStages k tsel ret a d s t)
    (hl : links k = true) : read16 t (descBase d) = .ok s.tr.sel := by
  obtain ⟨m1, m2, m3, -, -, -, -, -, -, -, hm4⟩ := commitSwitch_frames hoff h
  have hback := read16_placeBytes (s := { s with mem := m3 }) hoff (a := descBase d) (v := s.tr.sel) (i := 0)
    (bs := halfBytes s.tr.sel) (by simp [halfBytes]) rfl
  rw [BitVec.add_zero] at hback
  exact (read16_agree (t := t) (by exact hoff) hoff' fun p _ => by rw [hm4 hl]).trans hback

end Stages

/-- Settles O35: the four stores of a switch, one after the other, leave alone what `switchWrites` does not hold. -/
theorem switchMemoryFrame : Obligations.SwitchMemoryFrame := fun _ _ _ _ _ _ _ _ hoff hfind h _ hp =>
  (taskSwitch_stages hoff hfind h).frame hoff hp

/-- Settles O34: no later store of the switch reaches what the save has stored. -/
theorem switchSavesTask : Obligations.SwitchSavesTask := by
  intro k ext tsel ret s t a d hready hapart h
  have hoff := hready.paging
  exact (taskSwitch_stages hoff (findTss_ready hready) h).saved hoff ((taskSwitch_sameTables h).pg.trans hoff) hapart

/-! ## Table 7-2 -/

theorem switchApart_iff {a : Word} {d : Desc} {s : State} : switchApart a d s = true
    ↔ apart (s.tr.base + 32) 64 a 8 = true ∧ apart (s.tr.base + 32) 64 (outgoingDesc s) 8 = true
      ∧ apart (s.tr.base + 32) 64 (descBase d) 2 = true ∧ apart (descBase d) 2 a 8 = true
      ∧ apart (descBase d) 2 (outgoingDesc s) 8 = true := by
  simp only [switchApart, Bool.and_eq_true, and_assoc]

theorem descriptors_apart_of_tasksApart {a : Word} {d : Desc} {s : State} (h : tasksApart a d s = true) :
    apart a 8 (outgoingDesc s) 8 = true := by
  simp only [tasksApart, Bool.and_eq_true] at h
  obtain ⟨-, hdescs⟩ := h
  exact hdescs

theorem links_iff (k : SwitchKind) : links k = true ↔ k = .call ∨ k = .int := by
  cases k <;> simp [links]

theorem savedFlags_eq_ite (k : SwitchKind) (f : Word) : savedFlags k f = if k = .iret then f &&& ~~~0x4000 else f := by
  cases k <;> rfl

/-- Settles O36: each row is what one store of the switch leaves, or what none of them touches. -/
theorem linkingTable : Obligations.LinkingTable := by
  intro k ext tsel ret s t a d hout hoff hfind hapart hrow h
  obtain ⟨⟨-, -, hdesc, -⟩, hcheck⟩ := findTss_ok hfind
  obtain ⟨-, hhigh, -⟩ := readDesc_some hdesc
  have hbusy := descBusy_iff_of_checkTss_ok hcheck
  have hoff' : t.pg = false := (taskSwitch_sameTables h).pg.trans hoff
  have hst := taskSwitch_stages hoff hfind h
  have hframe (p : Word) : switchWrites k a d s p = false → memGet t.mem p.toNat = memGet s.mem p.toNat := hst.frame hoff
  have hsw := switchApart_of_tasksApart hapart
  obtain ⟨hsaveIn, hsaveOut, hsaveLink, hlinkIn, hlinkOut⟩ := switchApart_iff.mp hsw
  have hinOut := descriptors_apart_of_tasksApart hapart
  have hunread : read32 t (descBase d + 36) = read32 s (descBase d + 36) := by
    refine read32_unwritten hoff hoff' hframe fun p hp => ?_
    obtain ⟨i, hi, rfl⟩ := inRange_index hp
    exact incoming_unwritten hapart (36 + i) (by omega) (by omega) (by bv_omega)
  refine ⟨⟨hbusy, _, ?busyIn, rfl⟩, ⟨_, ?busyOut, rfl⟩, ?ntIn, ?ntOut, ?linkIn, ?linkOut⟩
  case busyIn =>
    by_cases hk : k = .iret
    · rw [or_busy_of_descBusy (hbusy.mpr hk), ← hhigh]
      exact read32_unwritten hoff hoff' hframe fun p hp => switchWrites_of_apart hsaveIn (fun _ => hinOut) (absurd hk)
        (fun _ => hlinkIn) (inRange_high_row hp)
    · exact hst.incoming_row hoff hoff' hk hsaveIn hinOut hlinkIn hhigh
  case busyOut =>
    split
    next hl =>
      rw [← links_iff] at hl
      rw [← hrow]
      exact read32_unwritten hoff hoff' hframe fun p hp => switchWrites_of_apart hsaveOut (by simp [hl])
        (fun _ => apart_comm ▸ hinOut) (fun _ => hlinkOut) (inRange_high_row hp)
    next hl =>
      rw [← links_iff] at hl
      exact hst.outgoing_row hoff hoff' (Bool.eq_false_iff.mpr hl) hsaveOut (fun _ => hinOut) hrow
  case ntIn =>
    obtain ⟨s', img, hruns, rfl⟩ := taskSwitch_runs_of_findTss hfind h
    obtain ⟨-, hflags, -⟩ := readImage_ok hruns.image
    have hoffs : s'.pg = false := by rw [hruns.enters.eq]; exact hoff
    refine ⟨img.flags, ?_, by cases k <;> rfl⟩
    exact hunread.symm.trans ((read32_mem hoffs hoff' rfl _).trans hflags)
  case ntOut =>
    rw [← savedFlags_eq_ite]
    exact (hst.saved hoff hoff' hsw).eflags
  case linkIn =>
    split
    next hl => exact hst.back_link hoff hoff' ((links_iff k).mpr hl)
    next hl =>
      rw [← links_iff] at hl
      exact read16_unwritten hoff hoff' hframe fun p hp => switchWrites_of_apart hsaveLink (fun _ => hlinkOut) (fun _ => hlinkIn)
        (absurd · hl) hp
  case linkOut =>
    refine read16_unwritten hoff hoff' hframe fun p hp => ?_
    obtain ⟨i, hi, rfl⟩ := inRange_index hp
    exact outgoing_unwritten hapart i (by omega) (by omega) rfl

/-! ## An IRET whose back-link names the running task -/

theorem gprs_eq_of_gprGet {g h : Gprs} (heq : ∀ r, gprGet g r = gprGet h r) : g = h := by
  cases g
  cases h
  simp only [Gprs.mk.injEq]
  exact ⟨heq .eax, heq .ecx, heq .edx, heq .ebx, heq .esp, heq .ebp, heq .esi, heq .edi⟩

/-- A TSS that does not overlap its own descriptor is all that a switch from its task to itself needs apart. -/
theorem switchApart_self {a : Word} {d : Desc} {s : State} (ha : a = outgoingDesc s) (hbase : descBase d = s.tr.base)
    (hapart : apart s.tr.base 104 a 8 = true) : switchApart a d s = true := by
  have hsave : apart (s.tr.base + 32) 64 a 8 = true := by
    have := apart_sub (i := 32) (n' := 64) (j := 0) (m' := 8) hapart (by decide) (by decide) (by decide) (by decide)
    rwa [BitVec.add_zero] at this
  have hlink : apart s.tr.base 2 a 8 = true := by
    have := apart_sub (i := 0) (n' := 2) (j := 0) (m' := 8) hapart (by decide) (by decide) (by decide) (by decide)
    rwa [BitVec.add_zero, BitVec.add_zero] at this
  have hself : apart (s.tr.base + 32) 64 s.tr.base 2 = true := by
    simp only [apart, Bool.and_eq_true, decide_eq_true_eq]
    bv_omega
  simp only [switchApart, ← ha, hbase, hsave, hlink, hself, Bool.and_self]

/-- Settles O40: the task's own save is what the switch then loads, and the busy bit it clears is that of the task it enters. -/
theorem iretToItself : Obligations.IretToItself := by
  intro s bl a d hnt hbl hready ha hbase hapart
  have hoff := hready.paging
  have hsw := switchApart_self ha hbase hapart
  obtain ⟨t, ht, hent⟩ := switchEntersTask .iret false bl (nextEip s .iret) s a d hready
  have hsaved := switchSavesTask .iret false bl (nextEip s .iret) s t a d hready hsw ht
  obtain ⟨-, hhigh, -⟩ := readDesc_some hready.names.2.2.1
  obtain ⟨f, hf, hflags⟩ := hent.eflags
  have ⟨_, hsaveOut, _⟩ := switchApart_iff.mp hsw
  refine ⟨t, ?_, ?_, ?_, ?_, fun g => ?_, ?_⟩
  · rw [exec_iret_of_flagNT hnt, hbl, ok_bind, ht, complete]
  · exact Except.ok.inj (hent.eip.symm.trans (hbase ▸ hsaved.eip))
  · exact hflags.trans (Except.ok.inj (hf.symm.trans (hbase ▸ hsaved.eflags)))
  · exact gprs_eq_of_gprGet fun r => Except.ok.inj ((hent.gpr r).symm.trans (hbase ▸ hsaved.gpr r))
  · exact Except.ok.inj ((hent.segs g).symm.trans (hbase ▸ hsaved.segs g))
  · subst ha
    exact (taskSwitch_stages hoff (findTss_ready hready) ht).outgoing_row hoff (hent.pg.trans hoff) rfl hsaveOut
      (absurd rfl) hhigh

end Sys2Proof.Machine
end

section
/-! The filling of the hidden parts at the end of a task switch, and what it leaves to be delivered (41_task_switch.md R168, R169;
60_exceptions.md R239). -/

namespace Sys2Proof.Machine

section Filling

variable {s t : State} {f : Filled} {k : SegName} {ks : List SegName} {e : Exn} {b : Bool}

/-! ## The exception that is left -/

theorem fillExn_eq_some : fillExn f = some e ↔ f.stop = some (.raise e) := by
  simp only [fillExn]
  split <;> simp [*]

theorem switchExn_of_raise (h : f.stop = some (.raise e)) (b : Bool) : switchExn f b = some e := by
  simp only [switchExn, fillExn_eq_some.mpr h]

theorem switchExn_false (f : Filled) : switchExn f false = fillExn f := by
  simp only [switchExn]
  split <;> simp [*]

theorem segFaultExn_ne_db (x : SegFault) : segFaultExn x ≠ .db := by
  obtain ⟨c, err⟩ := x
  cases c <;> simp [segFaultExn]

/-- The load of a segment register answers no DB. -/
theorem fillSeg_stop_ne_db (s : State) (k : SegName) (h : f.stop ≠ some (.raise .db)) :
    (fillSeg s f k).stop ≠ some (.raise .db) := by
  simp only [fillSeg]
  split
  · exact h
  · rcases loadSeg_cases k { s with segs := f.segs, ldtr := { s.ldtr with hidden := f.ldt } } with
      ⟨x, hx, -⟩ | ⟨e, he, hne⟩ | ⟨-, hnp⟩
    · simpa only [hx] using h
    · simpa [he] using hne
    · simp [hnp]

theorem foldl_fillSeg_stop_ne_db (s : State) (ks : List SegName) (h : f.stop ≠ some (.raise .db)) :
    (ks.foldl (fillSeg s) f).stop ≠ some (.raise .db) := by
  induction ks generalizing f with
  | nil => exact h
  | cons k ks ih => exact ih (fillSeg_stop_ne_db s k h)

theorem fillHidden_of_loadLdt_ok {l : LdtHidden} (h : loadLdt s = .ok l) : fillHidden s
    = [SegName.cs, .ss, .ds, .es, .fs, .gs].foldl (fillSeg s) { segs := s.segs, ldt := l, stop := none } := by
  simp only [fillHidden, h]

/-- DB is the T-bit's alone (60_exceptions.md R236). -/
theorem fillExn_fillHidden_ne_db (s : State) : fillExn (fillHidden s) ≠ some .db := by
  rw [ne_eq, fillExn_eq_some]
  rcases loadLdt_cases s with ⟨l, hl, -⟩ | ⟨x, hx, -⟩ | ⟨-, hnp⟩
  · rw [fillHidden_of_loadLdt_ok hl]
    exact foldl_fillSeg_stop_ne_db s _ (by simp)
  · simpa [fillHidden_of_loadLdt_error hx] using segFaultExn_ne_db x
  · simp [fillHidden_of_loadLdt_error hnp]

/-! ## The segment registers in their order -/

/-- The state in which the next load is asked, once `f` has been filled. -/
def fillingState (s : State) (f : Filled) : State := { s with segs := f.segs, ldtr := { s.ldtr with hidden := f.ldt } }

theorem fillSeg_of_ok {h : SegHidden} (hstop : f.stop = none) (hload : loadSeg k (fillingState s f) = .ok h) :
    fillSeg s f k = { f with segs := segSetHidden f.segs k h } := by
  rw [fillingState] at hload
  simp only [fillSeg, hstop, hload]

theorem fillSeg_of_error {st : FillStop} (hstop : f.stop = none) (hload : loadSeg k (fillingState s f) = .error st) :
    fillSeg s f k = { f with stop := some st } := by
  rw [fillingState] at hload
  simp only [fillSeg, hstop, hload]

theorem foldl_fillSeg_ended (s : State) (ks : List SegName) (h : f.stop ≠ none) : ks.foldl (fillSeg s) f = f := by
  induction ks with
  | nil => rfl
  | cons k ks ih => rw [List.foldl_cons, fillSeg_ended h, ih]

theorem foldl_fillSeg_ldt (s : State) (ks : List SegName) (f : Filled) : (ks.foldl (fillSeg s) f).ldt = f.ldt := by
  induction ks generalizing f with
  | nil => rfl
  | cons k ks ih => exact (ih _).trans (fillSeg_ldt s f k)

theorem foldl_fillSeg_sel (s : State) (ks : List SegName) (f : Filled) (g : SegName) :
    (segGet (ks.foldl (fillSeg s) f).segs g).sel = (segGet f.segs g).sel := by
  induction ks generalizing f with
  | nil => rfl
  | cons k ks ih => exact (ih _).trans (fillSeg_sel s f k g)

/-- A filling that meets no not-present page is one in order: each load is asked where the ones before it have been filled, and the
first that raises is the last that is asked. -/
theorem fillsInOrder_of_foldl (hnone : f.stop = none) (hpresent : (ks.foldl (fillSeg s) f).stop ≠ some .notPresentPage)
    (hsegs : t.segs = (ks.foldl (fillSeg s) f).segs) (hpending : t.pending = switchExn (ks.foldl (fillSeg s) f) b) :
    FillsInOrder ks (fillingState s f) t := by
  induction ks generalizing f with
  | nil =>
    refine ⟨hsegs, ?_⟩
    rw [hpending]
    cases b <;> simp [switchExn, fillExn, hnone]
  | cons k ks ih =>
    rw [List.foldl_cons] at hpresent hsegs hpending
    cases hload : loadSeg k (fillingState s f) with
    | ok h =>
      rw [fillSeg_of_ok hnone hload] at hpresent hsegs hpending
      simp only [FillsInOrder, hload]
      exact ih (f := { f with segs := segSetHidden f.segs k h }) hnone hpresent hsegs hpending
    | error st =>
      rw [fillSeg_of_error hnone hload, foldl_fillSeg_ended s ks (by simp)] at hpresent hsegs hpending
      simp only [FillsInOrder, hload]
      cases st with
      | raise e => exact ⟨hpending.trans (switchExn_of_raise rfl b), hsegs⟩
      | notPresentPage => exact hpresent rfl

/-! ## What `makeUsable` keeps of the filling -/

theorem fillHidden_sel (s : State) (g : SegName) : (segGet (fillHidden s).segs g).sel = (segGet s.segs g).sel := by
  cases hl : loadLdt s with
  | ok l =>
    rw [fillHidden_of_loadLdt_ok hl]
    exact foldl_fillSeg_sel s _ _ g
  | error st => rw [fillHidden_of_loadLdt_error hl]

theorem withHidden_of_sel_eq {r h : SegReg} (heq : h.sel = r.sel) : withHidden r h = h := by
  rw [withHidden, ← heq]

theorem segs_eq_of_segGet {x y : Segs} (heq : ∀ g, segGet x g = segGet y g) : x = y := by
  cases x
  cases y
  simp only [Segs.mk.injEq]
  exact ⟨heq .es, heq .cs, heq .ss, heq .ds, heq .fs, heq .gs⟩

theorem makeUsable_segs (b : Bool) (s : State) : (makeUsable b s).segs = (fillHidden s).segs := by
  apply segs_eq_of_segGet
  intro g
  have hkeep : withHidden (segGet s.segs g) (segGet (fillHidden s).segs g) = segGet (fillHidden s).segs g :=
    withHidden_of_sel_eq (fillHidden_sel s g)
  rw [← hkeep]
  cases g <;> rfl

theorem makeUsable_ldtr_hidden (b : Bool) (s : State) : (makeUsable b s).ldtr.hidden = (fillHidden s).ldt := rfl

end Filling

/-! ## The T-bit -/

theorem getLsbD_zero_of_and_one {w : Half} {b : Bool} (h : w &&& 1 = if b then 1 else 0) : w.getLsbD 0 = b := by
  have hbit := congrArg (fun v => v.getLsbD 0) h
  rw [BitVec.getLsbD_and] at hbit
  cases b <;> simpa using hbit

/-- Settles O41: the T-bit read stands in the incoming TSS still, and it has its say only where the filling has raised nothing; no
load raises DB. -/
theorem trapBitRaisesDebug : Obligations.TrapBitRaisesDebug := by
  intro k ext tsel ret s t a d w hready h hw
  have hoff' : t.pg = false := (taskSwitch_sameTables h).pg.trans hready.paging
  obtain ⟨s', img, hruns, rfl⟩ := taskSwitch_runs_of_findTss (findTss_ready hready) h
  obtain ⟨w', hw', hbit⟩ := readImage_trapBit hruns.image
  have hoffs : s'.pg = false := hoff'
  obtain rfl : w' = w := Except.ok.inj (hw'.symm.trans ((read16_mem hoff' hoffs rfl _).trans hw))
  rw [hruns.beforeFilling, makeUsable_pending, hbit]
  refine ⟨fun hset => ?_, fun hclear => ?_, fillExn_fillHidden_ne_db _⟩
  · rw [getLsbD_zero_of_and_one (b := true) hset, switchExn]
    cases fillExn (fillHidden (install k img s')) <;> rfl
  · rw [getLsbD_zero_of_and_one (b := false) hclear, switchExn_false]

/-! ## The loads in their order -/

/-- Settles O43: the LDT register's load comes first, and what it leaves is where the filling of the segment registers begins. -/
theorem switchFillsHiddenParts : Obligations.SwitchFillsHiddenParts := by
  intro k ext tsel ret s t h
  obtain ⟨a, d, s', img, hruns, rfl⟩ := switchRuns_of_ok h
  have hkept : (install k img s').ldtr.hidden = s.ldtr.hidden := by rw [install_ldtr, hruns.enters.eq]
  have hfills := hruns.fills
  rw [hruns.beforeFilling, makeUsable_ldtr_sel]
  rcases loadLdt_cases (install k img s') with ⟨l, hl, hask⟩ | ⟨x, hx, hask⟩ | ⟨-, hnp⟩
  · have hfill := fillHidden_of_loadLdt_ok hl
    rw [hask]
    refine ⟨?_, fillsInOrder_of_foldl (s := install k img s') (f := ⟨(install k img s').segs, l, none⟩) (b := img.t) rfl ?_ ?_ ?_⟩
    · rw [makeUsable_ldtr_hidden, hfill, foldl_fillSeg_ldt]
    · exact hfill ▸ hfills
    · rw [makeUsable_segs, hfill]
    · rw [makeUsable_pending, hfill]
  · have hfill := fillHidden_of_loadLdt_error hx
    rw [hask]
    refine ⟨?_, ?_, ?_⟩
    · exact switchExn_of_raise (by rw [hfill]) img.t
    · rw [makeUsable_ldtr_hidden, hfill, hkept]
    · rw [makeUsable_segs, hfill]
  · exact absurd (by rw [fillHidden_of_loadLdt_error hnp]) hfills

end Sys2Proof.Machine
end

section
/-! The far JMP and the far CALL (42 R201 to R205): each check with the exception it raises, the switch to the task the pointer leads
to, and the standard mechanism for any other descriptor. -/

namespace Sys2Proof.Machine

open Host (Outcome)

/-! ## A switch whose end is the outcome -/

section Completes

variable {k : SwitchKind} {ext : Bool} {tsel : Half} {ret a : Word} {d : Desc} {s s' : State} {img : TssImage} {x : Exn}
  {out : Outcome State Fault Refusal}

/-- Where the end of a switch is the outcome, a ready switch gives that outcome, in the task it enters. -/
theorem next_of_switchReady (hout : ∀ t, taskSwitch k ext tsel ret s = .ok t → out = .next t)
    (hready : SwitchReady k tsel a d s) :
    ∃ t, out = .next t ∧ taskSwitch k ext tsel ret s = .ok t ∧ Entered k tsel d s t := by
  obtain ⟨t, ht, hent⟩ := switchEntersTask k ext tsel ret s a d hready
  exact ⟨t, hout t ht, ht, hent⟩

/-- An instruction completes in the state its own effect ends in. -/
theorem next_of_eq_complete {r : Except Stop State} (hexec : out = complete s r) (t : State) (hr : r = .ok t) :
    out = .next t := by
  rw [hexec, hr, complete]

/-- The instruction that is a task switch completes where the switch's own accesses succeed. -/
theorem next_of_switchRuns (hexec : out = complete s (taskSwitch k ext tsel ret s))
    (hruns : SwitchRuns k ext tsel ret a d s s' img) : out = .next (makeUsable img.t (install k img s')) :=
  next_of_eq_complete hexec _ (taskSwitch_of_runs hruns)

/-- An exception of the switch's own checks is taken in the state the instruction started in. -/
theorem takeException_of_findTss_raise (hexec : out = complete s (taskSwitch k ext tsel ret s))
    (hfind : findTss k ext tsel s = .error (.raise x)) : out = takeException x s := by
  rw [hexec, taskSwitch_err hfind, complete]

end Completes

/-! ## Far transfers -/

section Far

variable {i : Instr} {s : State} {k : FarKind} {sel tsel : Half} {off next a : Word} {dn : Desc} {m : Addr}

theorem farOf_jmpMem (hptr : readFarPtr s m = .ok (sel, off)) : farOf (.jmpMem m) s = some (.jmp, sel, off) := by
  simp only [farOf, hptr]

theorem farOf_callMem (hptr : readFarPtr s m = .ok (sel, off)) : farOf (.callMem m) s = some (.call, sel, off) := by
  simp only [farOf, hptr]

/-- A far transfer that leads to a task is the switch to it, with the offset of the following instruction saved. -/
theorem exec_of_farLeadsTo (hfar : farOf i s = some (k, sel, off)) (hleads : FarLeadsTo s sel tsel) :
    exec i s = complete s (taskSwitch (farSwitch k) false tsel (nextEip s i) s) := by
  rw [exec_of_farOf hfar, farTransfer_of_farLeadsTo hleads]

theorem farTransfer_of_null (hnull : selNull sel = true) : farTransfer k sel off next s = .error (.raise (.gp 0)) :=
  if_pos hnull

theorem farTransfer_of_outOfTable (hnull : selNull sel = false) (hdesc : readDesc s sel = .ok none) :
    farTransfer k sel off next s = .error (.raise (.gp (errSel sel))) := by
  simp only [farTransfer, hnull, hdesc, Bool.false_eq_true, if_false, ok_bind]

/-- Once its descriptor has been read, a far transfer is what the descriptor makes of it. -/
theorem exec_of_farDescriptor (hfar : farOf i s = some (k, sel, off)) (hnull : selNull sel = false)
    (hdesc : readDesc s sel = .ok (some (a, dn))) :
    exec i s = complete s (farThrough k sel off (nextEip s i) dn s) := by
  rw [exec_of_farOf hfar, farTransfer_of_readDesc hnull hdesc]

/-! ### What the descriptor named makes of a far transfer -/

/-- The privilege check of 41_task_switch.md R152, as a comparison of numbers. -/
theorem privilegeFails_iff :
    privilegeFails s sel dn = true ↔ s.cpl.toNat > (descDPL dn).toNat ∨ (sel &&& 3).toNat > (descDPL dn).toNat := by
  rw [privilegeFails, decide_eq_true_eq, gt_iff_lt, lt_max_iff, selRPL_toNat]

theorem privilegeFails_eq_false (hcpl : s.cpl.toNat ≤ (descDPL dn).toNat) (hrpl : (sel &&& 3).toNat ≤ (descDPL dn).toNat) :
    privilegeFails s sel dn = false := by
  rw [Bool.eq_false_iff, ne_eq, privilegeFails_iff]
  omega

theorem farThrough_of_tss_ti (htss : isTss dn = true ∨ isTss16 dn = true) (hti : selTI sel = true) :
    farThrough k sel off next dn s = .error (.raise (.gp (errSel sel))) := by
  rw [← Bool.or_eq_true] at htss
  simp only [farThrough, htss, hti, if_true]

theorem farThrough_of_tss_privilege (htss : isTss dn = true ∨ isTss16 dn = true) (hpriv : privilegeFails s sel dn = true) :
    farThrough k sel off next dn s = .error (.raise (.gp (errSel sel))) := by
  rw [← Bool.or_eq_true] at htss
  simp only [farThrough, htss, hpriv, if_true, ite_self]

theorem farThrough_of_tss16 (h16 : isTss16 dn = true) (hti : selTI sel = false) (hpriv : privilegeFails s sel dn = false) :
    farThrough k sel off next dn s = taskSwitch (farSwitch k) false sel next s := by
  simp only [farThrough, h16, hti, hpriv, Bool.or_true, Bool.false_eq_true, if_true, if_false]

theorem farThrough_of_taskGate_privilege (hgate : isTaskGate dn = true) (hpriv : privilegeFails s sel dn = true) :
    farThrough k sel off next dn s = .error (.raise (.gp (errSel sel))) := by
  obtain ⟨htss, h16⟩ := not_tss_of_taskGate hgate
  simp only [farThrough, htss, h16, hgate, hpriv, Bool.or_self, Bool.false_eq_true, if_true, if_false]

theorem farThrough_of_taskGate_not_present (hgate : isTaskGate dn = true) (hpriv : privilegeFails s sel dn = false)
    (hpresent : descPresent dn = false) : farThrough k sel off next dn s = .error (.raise (.np (errSel sel))) := by
  obtain ⟨htss, h16⟩ := not_tss_of_taskGate hgate
  simp only [farThrough, htss, h16, hgate, hpriv, hpresent, Bool.or_self, Bool.not_false, Bool.false_eq_true, if_true, if_false]

theorem farThrough_of_other (htss : isTss dn = false) (h16 : isTss16 dn = false) (hgate : isTaskGate dn = false) :
    farThrough k sel off next dn s = otherTransfer (farOther k sel off next) s := by
  simp only [farThrough, htss, h16, hgate, Bool.or_self, Bool.false_eq_true, if_false]

end Far

/-- Settles O16: a far JMP that leads to a task is the switch of kind JMP, and a switch that is ready or runs ends. -/
theorem farJumpSwitchesTask : Obligations.FarJumpSwitchesTask := by
  refine ⟨fun off sel tsel s a d hleads hready => ?_, fun m off sel tsel s a d hptr hleads hready => ?_,
    fun off sel tsel s s' a d img hleads hruns => ?_, fun m off sel tsel s s' a d img hptr hleads hruns => ?_⟩
  · exact next_of_switchReady (next_of_eq_complete (exec_of_farLeadsTo (i := .jmpPtr off sel) rfl hleads)) hready
  · exact next_of_switchReady (next_of_eq_complete (exec_of_farLeadsTo (farOf_jmpMem hptr) hleads)) hready
  · exact next_of_switchRuns (exec_of_farLeadsTo (i := .jmpPtr off sel) rfl hleads) hruns
  · exact next_of_switchRuns (exec_of_farLeadsTo (farOf_jmpMem hptr) hleads) hruns

/-- Settles O17: a far CALL that leads to a task is the switch of kind CALL, and a switch that is ready or runs ends. -/
theorem farCallSwitchesTask : Obligations.FarCallSwitchesTask := by
  refine ⟨fun off sel tsel s a d hleads hready => ?_, fun m off sel tsel s a d hptr hleads hready => ?_,
    fun off sel tsel s s' a d img hleads hruns => ?_, fun m off sel tsel s s' a d img hptr hleads hruns => ?_⟩
  · exact next_of_switchReady (next_of_eq_complete (exec_of_farLeadsTo (i := .callPtr off sel) rfl hleads)) hready
  · exact next_of_switchReady (next_of_eq_complete (exec_of_farLeadsTo (farOf_callMem hptr) hleads)) hready
  · exact next_of_switchRuns (exec_of_farLeadsTo (i := .callPtr off sel) rfl hleads) hruns
  · exact next_of_switchRuns (exec_of_farLeadsTo (farOf_callMem hptr) hleads) hruns

/-- Settles O18: the checks in their order, each clause with the outcomes of those before its own; past them the transfer is a task
switch, whose checks come first. -/
theorem farTransferRefusals : Obligations.FarTransferRefusals := by
  intro i s k sel off hfar
  refine ⟨fun hnull => ?null, fun hnull hdesc => ?outOfTable, fun tsel hleads => ?task, fun a dn hnull hdesc => ?descriptor⟩
  case null => rw [exec_of_farOf hfar, farTransfer_of_null ((selNull_true_iff sel).mpr hnull), complete]
  case outOfTable =>
    rw [exec_of_farOf hfar, farTransfer_of_outOfTable ((selNull_false_iff sel).mpr hnull) hdesc, complete, errSel]
  case task =>
    have hexec := exec_of_farLeadsTo hfar hleads
    exact ⟨hexec, fun x => takeException_of_findTss_raise hexec⟩
  case descriptor =>
    rw [← selNull_false_iff] at hnull
    rw [exec_of_farDescriptor hfar hnull hdesc]
    refine ⟨fun htss hti => ?ti, fun hkind hpriv => ?privilege, fun h16 hti hcpl hrpl => ?tss16,
      fun hgate hcpl hrpl hpresent => ?gate⟩
    case ti => rw [farThrough_of_tss_ti htss ((selTI_true_iff sel).mpr hti), complete, errSel]
    case privilege =>
      rw [← privilegeFails_iff] at hpriv
      rcases or_assoc.mpr hkind with htss | hgate
      · rw [farThrough_of_tss_privilege htss hpriv, complete, errSel]
      · rw [farThrough_of_taskGate_privilege hgate hpriv, complete, errSel]
    case tss16 =>
      rw [← selTI_false_iff] at hti
      rw [farThrough_of_tss16 h16 hti (privilegeFails_eq_false hcpl hrpl),
        taskSwitch_of_checkTss_error _ hti hnull hdesc (checkTss_of_tss16 h16), complete]
    case gate =>
      rw [farThrough_of_taskGate_not_present hgate (privilegeFails_eq_false hcpl hrpl) hpresent, complete, errSel]

/-! ## The standard mechanism -/

theorem complete_otherTransfer_of_effect {r : OtherRequest} {s : State} {e : OtherEffect}
    (h : Config.otherTransfer r s = .effect e) : complete s (otherTransfer r s) = .next (applyOther e s) := by
  simp only [otherTransfer, h, complete]

theorem complete_otherTransfer_of_raise {r : OtherRequest} {s : State} {x : Exn} (h : Config.otherTransfer r s = .raise x) :
    complete s (otherTransfer r s) = takeException x s := by
  simp only [otherTransfer, h, complete]

/-- Settles O19: with none of the three kinds of descriptor left, the transfer is the standard mechanism, whose effect is
`applyOther`. -/
theorem farTransferOther : Obligations.FarTransferOther := by
  intro i s k sel off a dn hfar hnull hdesc htss h16 hgate
  rw [exec_of_farDescriptor hfar hnull hdesc, farThrough_of_other htss h16 hgate]
  cases hanswer : Config.otherTransfer (farOther k sel off (nextEip s i)) s with
  | effect e => exact ⟨complete_otherTransfer_of_effect hanswer, rfl, rfl, rfl, rfl, rfl, rfl, rfl, rfl⟩
  | raise x => exact complete_otherTransfer_of_raise hanswer

end Sys2Proof.Machine
end

section
/-! IRET and the interrupt instruction (42 R206, R207, R208): the return to the task the back-link names and the entry into the task a
gate names, the checks before either, and the standard mechanism. -/

namespace Sys2Proof.Machine

/-! ## IRET -/

section Iret

variable {s : State} {bl : Half}

/-- With NT set and its back-link read, IRET is the switch to the task the back-link names. -/
theorem exec_iret_of_backLink (hnt : flagNT s.eflags = true) (hbl : read16 s s.tr.base = .ok bl) :
    exec .iret s = complete s (taskSwitch .iret false bl (nextEip s .iret) s) := by
  rw [exec_iret_of_flagNT hnt, hbl, ok_bind]

theorem exec_iret_of_not_flagNT (hnt : flagNT s.eflags = false) :
    exec .iret s = complete s (otherTransfer (.iret (nextEip s .iret)) s) := by
  have hret : interruptReturn (nextEip s .iret) s = otherTransfer (.iret (nextEip s .iret)) s := if_neg (Bool.eq_false_iff.mp hnt)
  exact congrArg (complete s) hret

end Iret

/-- Settles O20: IRET with NT set is the switch of kind IRET, and a switch that is ready or runs ends. -/
theorem iretReturnsToLinkedTask : Obligations.IretReturnsToLinkedTask := by
  refine ⟨fun s bl a d hnt hbl hready => ?_, fun s s' bl a d img hnt hbl hruns => ?_⟩
  · exact next_of_switchReady (next_of_eq_complete (exec_iret_of_backLink hnt hbl)) hready
  · exact next_of_switchRuns (exec_iret_of_backLink hnt hbl) hruns

/-- Settles O22: the checks of a switch of kind IRET in their order, each clause with the outcomes of those before its own. -/
theorem iretRefusals : Obligations.IretRefusals := by
  intro s bl hnt hbl
  have hexec := exec_iret_of_backLink hnt hbl
  refine ⟨fun hsel => ?selector, fun hnull hti => ⟨fun hdesc => ?outOfTable, fun a d hdesc => ?descriptor⟩⟩
  case selector =>
    rcases hsel with hnull | hti
    · exact takeException_of_findTss_raise hexec (findTss_of_null ((selNull_true_iff bl).mpr hnull))
    · exact takeException_of_findTss_raise hexec (findTss_of_ti ((selTI_true_iff bl).mpr hti))
  all_goals
    rw [← selNull_false_iff] at hnull
    rw [← selTI_false_iff] at hti
  case outOfTable => exact takeException_of_findTss_raise hexec (findTss_of_outOfTable hti hnull hdesc)
  case descriptor =>
    have hstop {x : Exn} (hcheck : checkTss .iret (errSel bl) d = .error (.raise x)) : exec .iret s = takeException x s := by
      rw [hexec, taskSwitch_of_checkTss_error (ext := false) _ hti hnull hdesc hcheck, complete]
    refine ⟨fun h16 htss => hstop (checkTss_of_not_tss h16 htss), fun htss hpresent => hstop (checkTss_of_not_present htss hpresent),
      fun htss hpresent hbusy => hstop (checkTss_iret_of_available htss hpresent hbusy), fun htss hpresent hbusy hlimit => ?_⟩
    exact hstop (checkTss_of_short htss hpresent (busyAsNeeded_iff.mpr (iff_of_true hbusy rfl)) hlimit)

/-- Settles O21: IRET looks at NT first, and with it clear asks the parameter. -/
theorem iretWithoutNestedTask : Obligations.IretWithoutNestedTask := by
  intro s hnt
  rw [exec_iret_of_not_flagNT hnt]
  cases hanswer : Config.otherTransfer (.iret (s.eip + 1)) s with
  | effect e => exact complete_otherTransfer_of_effect hanswer
  | raise x => exact complete_otherTransfer_of_raise hanswer

/-! ## Vectoring -/

section Vectoring

variable {v : Byte} {o : Origin} {g : Desc} {s : State} {ret : Word} {f : IntForm}

theorem vectorTo_of_outOfTable (hidt : readIdt s v = .ok none) : vectorTo v o ret s = .error (.raise (.gp (idtErr v o))) := by
  simp only [vectorTo, hidt, ok_bind]

theorem vectorTo_of_gateDplRefuses (hidt : readIdt s v = .ok (some g)) (hgate : isTaskGate g = true)
    (hdpl : gateDplRefuses o g s = true) : vectorTo v o ret s = .error (.raise (.gp (idtErr v o))) := by
  simp only [vectorTo, hidt, hgate, hdpl, ok_bind, if_true]

theorem vectorTo_of_not_present (hidt : readIdt s v = .ok (some g)) (hgate : isTaskGate g = true)
    (hdpl : gateDplRefuses o g s = false) (hpresent : descPresent g = false) :
    vectorTo v o ret s = .error (.raise (.np (idtErr v o))) := by
  simp only [vectorTo, hidt, hgate, hdpl, hpresent, ok_bind, Bool.not_false, Bool.false_eq_true, if_true, if_false]

theorem vectorTo_of_other (hidt : readIdt s v = .ok (some g)) (hgate : isTaskGate g = false) :
    vectorTo v o ret s = otherTransfer (.int v o ret) s := by
  simp only [vectorTo, hidt, hgate, ok_bind, Bool.false_eq_true, if_false]

/-- The gate's DPL is looked at only where it is below CPL. -/
theorem gateDplRefuses_of_le (hdpl : s.cpl.toNat ≤ (descDPL g).toNat) : gateDplRefuses o g s = false := by
  rw [gateDplRefuses, decide_eq_false (Nat.not_lt.mpr hdpl), Bool.false_and, Bool.and_false]

/-- Where it is below CPL, an interrupt instruction is refused as the parameter says (log 9). -/
theorem gateDplRefuses_software_of_lt (hdpl : (descDPL g).toNat < s.cpl.toNat) :
    gateDplRefuses .software g s = Config.intNChecksGateDpl := by
  rw [gateDplRefuses, decide_eq_true rfl, decide_eq_true hdpl, Bool.true_and, Bool.true_and]

/-- An interrupt instruction through an open task gate is the switch to the gate's task. -/
theorem exec_intN_of_gateOpen (hvector : intVector f s = some v) (hopen : GateOpen s v .software g) :
    exec (.intN f) s = complete s (taskSwitch .int false (gateSel g) (nextEip s (.intN f)) s) := by
  rw [exec_intN_of_intVector hvector, vectorTo_of_gateOpen hopen, originExt]

/-- An interrupt instruction through a closed task gate, whose DPL does not refuse it. -/
theorem exec_intN_of_not_present (hvector : intVector f s = some v) (hidt : readIdt s v = .ok (some g)) (hgate : isTaskGate g = true)
    (hdpl : gateDplRefuses .software g s = false) (hpresent : descPresent g = false) :
    exec (.intN f) s = takeException (.np (idtErr v .software)) s := by
  rw [exec_intN_of_intVector hvector, vectorTo_of_not_present hidt hgate hdpl hpresent, complete]

end Vectoring

/-- Settles O23: an interrupt instruction that vectors through an open gate is the switch of kind INT, and a switch that is ready or
runs ends. -/
theorem interruptInstrSwitchesTask : Obligations.InterruptInstrSwitchesTask := by
  refine ⟨fun f s v g a d hvector hopen hready => ?_, fun f s s' v g a d img hvector hopen hruns => ?_⟩
  · exact next_of_switchReady (next_of_eq_complete (exec_intN_of_gateOpen hvector hopen)) hready
  · exact next_of_switchRuns (exec_intN_of_gateOpen hvector hopen) hruns

/-- Settles O25: the entry, the kind of gate, its DPL and its presence are looked at in this order; below CPL the DPL's part is the
open parameter's, so both of its values are gone through. -/
theorem interruptInstrRefusals : Obligations.InterruptInstrRefusals := by
  intro f s v hvector
  refine ⟨fun hidt => ?beyond, fun g hidt hgate hdpl hpresent => ?notPresent, fun g hidt hgate hdpl => ?dpl,
    fun g hopen => ?openGate, fun g hidt hgate => ?other⟩
  case beyond => rw [exec_intN_of_intVector hvector, vectorTo_of_outOfTable hidt]; rfl
  case notPresent => exact exec_intN_of_not_present hvector hidt hgate (gateDplRefuses_of_le hdpl) hpresent
  case dpl =>
    have hparam := gateDplRefuses_software_of_lt hdpl
    cases hchecks : Config.intNChecksGateDpl with
    | true => rw [exec_intN_of_intVector hvector, vectorTo_of_gateDplRefuses hidt hgate (hparam.trans hchecks)]; rfl
    | false =>
      have hignored := hparam.trans hchecks
      cases hpresent : descPresent g with
      | true => exact exec_intN_of_gateOpen hvector ⟨hidt, hgate, hignored, hpresent⟩
      | false => exact exec_intN_of_not_present hvector hidt hgate hignored hpresent
  case openGate =>
    have hexec := exec_intN_of_gateOpen hvector hopen
    exact ⟨hexec, fun x => takeException_of_findTss_raise hexec⟩
  case other =>
    rw [exec_intN_of_intVector hvector, vectorTo_of_other hidt hgate]
    cases hanswer : Config.otherTransfer (.int v .software (nextEip s (.intN f))) s with
    | effect e => exact complete_otherTransfer_of_effect hanswer
    | raise x => exact complete_otherTransfer_of_raise hanswer

end Sys2Proof.Machine
end

section
/-! Taking an exception and accepting an external interrupt (42 R208 to R210; 60_exceptions.md R230, R238 to R241, R243): the entry
into the task a gate names, and the standard mechanism. -/

namespace Sys2Proof.Machine

section Delivery

variable {v : Byte} {o : Origin} {g : Desc} {s : State} {ev : Event}

/-! ## Vectoring in the state a delivery starts in -/

/-- What an event is noted in, `lastExn` and the presented interrupts (log 15, log 16), is nothing that makes a switch ready. -/
theorem SwitchReady.with_event {k : SwitchKind} {tsel : Half} {a : Word} {d : Desc} (h : SwitchReady k tsel a d s)
    (ints : List (Option Byte)) (e : Option Exn) : SwitchReady k tsel a d { s with extInts := ints, lastExn := e } where
  paging := h.paging
  names := h.names
  present := h.present
  busy := h.busy
  limit := h.limit
  image := h.image
  outgoing := h.outgoing

/-- The gate's DPL stops nothing but the interrupt instruction (42 R208). -/
theorem gateOpen_of_not_software (ho : o ≠ .software) (hidt : readIdt s v = .ok (some g)) (hgate : isTaskGate g = true)
    (hpresent : descPresent g = true) : GateOpen s v o g :=
  ⟨hidt, hgate, by rw [gateDplRefuses, decide_eq_false ho, Bool.false_and], hpresent⟩

/-! ## The outcome of a delivery -/

theorem delivered_otherTransfer_of_effect {q : OtherRequest} {e : OtherEffect} (h : Config.otherTransfer q s = .effect e) :
    delivered ev (otherTransfer q s) = .next (applyOther e s) := by
  simp only [otherTransfer, h, delivered]

theorem delivered_otherTransfer_of_raise {q : OtherRequest} {x : Exn} (h : Config.otherTransfer q s = .raise x) :
    delivered ev (otherTransfer q s) = .fault (.exceptionDuringDelivery ev x) := by
  simp only [otherTransfer, h, delivered]

end Delivery

/-! ## Taking an exception -/

section Exception

variable {e : Exn} {g : Desc} {s : State}

/-- An exception whose vector has a present task gate is delivered by the switch to the gate's task. -/
theorem takeException_of_taskGate (hidt : readIdt s (exnVector e) = .ok (some g)) (hgate : isTaskGate g = true)
    (hpresent : descPresent g = true) : takeException e s
      = delivered (.exception e) (taskSwitch .int true (gateSel g) s.eip { s with lastExn := some e }) := by
  have hopen : GateOpen { s with lastExn := some e } (exnVector e) .exception g :=
    gateOpen_of_not_software (by decide) hidt hgate hpresent
  rw [takeException, vectorTo_of_gateOpen hopen, originExt]

theorem takeException_of_other (hidt : readIdt s (exnVector e) = .ok (some g)) (hgate : isTaskGate g = false) : takeException e s
    = delivered (.exception e) (otherTransfer (.int (exnVector e) .exception s.eip) { s with lastExn := some e }) := by
  have hidt' : readIdt { s with lastExn := some e } (exnVector e) = .ok (some g) := hidt
  rw [takeException, vectorTo_of_other hidt' hgate]

end Exception

/-- Settles O45: the delivery is the switch, or the standard mechanism, in the state that keeps the error information; neither that
state's readiness nor the entry differs from those of `s`. -/
theorem exceptionEntersHandler : Obligations.ExceptionEntersHandler := by
  intro e v s g hv hidt
  obtain rfl : v = exnVector e := hv.trans (by cases e <;> rfl)
  refine ⟨fun hgate hpresent a d => ?gate, fun hgate => ?other⟩
  case gate =>
    have htake := takeException_of_taskGate hidt hgate hpresent
    have hnext (t : State) (ht : taskSwitch .int true (gateSel g) s.eip { s with lastExn := some e } = .ok t) :
        takeException e s = .next t := htake.trans (delivered_next.mpr ht)
    refine ⟨fun hready => ?_, fun s' img hruns => hnext _ (taskSwitch_of_runs hruns)⟩
    obtain ⟨t, ht, hswitch, hent⟩ := next_of_switchReady hnext (hready.with_event s.extInts (some e))
    exact ⟨t, ht, hent.lastExn, hswitch, hent⟩
  case other =>
    rw [takeException_of_other hidt hgate]
    cases hanswer : Config.otherTransfer (.int (exnVector e) .exception s.eip) { s with lastExn := some e } with
    | effect o => exact delivered_otherTransfer_of_effect hanswer
    | raise x => exact delivered_otherTransfer_of_raise hanswer

/-! ## An external interrupt -/

section External

variable {v : Byte} {rest : List (Option Byte)} {g : Desc} {s : State}

/-- An external interrupt that is presented and admitted is taken at the boundary, and its presentation is used up (42 R209). -/
theorem step_of_admitted (hpending : s.pending = none) (hadmits : admitsExternal s = true) (hints : s.extInts = some v :: rest) :
    step s = takeExternal v { s with extInts := rest } := by
  have hevent : boundaryEvent s = .external v := by
    simp only [boundaryEvent, hpending, hadmits, hints, List.head?_cons]
  have hstate : boundaryState s = { s with extInts := rest } := by
    rw [boundaryState_of_pending_none hpending, if_pos hadmits, hints, List.tail_cons]
  simp only [step, hevent, hstate]

/-- Where external interrupts are not admitted and nothing is pending, the instruction runs. -/
theorem step_of_not_admitted (hpending : s.pending = none) (hadmits : admitsExternal s = false) : step s = runInstr s := by
  have hevent : boundaryEvent s = .run := by
    simp only [boundaryEvent, hpending, hadmits]
  have hstate : boundaryState s = s := by
    rw [boundaryState_of_pending_none hpending, hadmits, if_neg Bool.false_ne_true]
  rw [step_of_boundaryEvent_run hevent, hstate]

theorem takeExternal_of_taskGate (hidt : readIdt s v = .ok (some g)) (hgate : isTaskGate g = true) (hpresent : descPresent g = true) :
    takeExternal v s = delivered (.external v) (taskSwitch .int true (gateSel g) s.eip s) := by
  rw [takeExternal, vectorTo_of_gateOpen (gateOpen_of_not_software (by decide) hidt hgate hpresent), originExt]

theorem takeExternal_of_other (hidt : readIdt s v = .ok (some g)) (hgate : isTaskGate g = false) :
    takeExternal v s = delivered (.external v) (otherTransfer (.int v .external s.eip) s) := by
  rw [takeExternal, vectorTo_of_other hidt hgate]

end External

/-- Settles O48: admitted, the interrupt is taken in the state without its presentation, by the switch or the standard mechanism;
not admitted, the instruction runs. -/
theorem externalInterruptEntersHandler : Obligations.ExternalInterruptEntersHandler := by
  intro s v rest g hpending henabled hints hidt
  have hadmits : admitsExternal s = Config.eflagsAdmitExternal s.eflags := by rw [admitsExternal, henabled, Bool.true_and]
  split
  case isFalse hclosed => exact step_of_not_admitted hpending (hadmits.trans (Bool.eq_false_iff.mpr hclosed))
  case isTrue hadmitted =>
    have hidt' : readIdt { s with extInts := rest } v = .ok (some g) := hidt
    rw [step_of_admitted hpending (hadmits.trans hadmitted) hints]
    refine ⟨fun hgate hpresent a d => ?gate, fun hgate => ?other⟩
    case gate =>
      have hnext (t : State) (ht : taskSwitch .int true (gateSel g) s.eip { s with extInts := rest } = .ok t) :
          takeExternal v { s with extInts := rest } = .next t :=
        (takeExternal_of_taskGate hidt' hgate hpresent).trans (delivered_next.mpr ht)
      exact ⟨fun hready => next_of_switchReady hnext (hready.with_event rest s.lastExn),
        fun s' img hruns => hnext _ (taskSwitch_of_runs hruns)⟩
    case other =>
      rw [takeExternal_of_other hidt' hgate]
      cases hanswer : Config.otherTransfer (.int v .external s.eip) { s with extInts := rest } with
      | effect o => exact delivered_otherTransfer_of_effect hanswer
      | raise x => exact delivered_otherTransfer_of_raise hanswer

end Sys2Proof.Machine
end

section
/-! The return from a nested task (42 R206, R211; 41_task_switch.md R172): what the nesting switch saved is still there when the IRET
that answers it loads it. -/

namespace Sys2Proof.Machine

/-! ## The incoming TSS through a switch -/

section Incoming

variable {k : SwitchKind} {tsel : Half} {ret a : Word} {d : Desc} {s t : State} {n : Nat}

/-- Between two tasks that do not overlap, a switch stores to the back-link of the incoming TSS and to no word above it. -/
theorem CommitStages.incoming_read32 (hoff : s.pg = false) (hoff' : t.pg = false) (h : CommitStages k tsel ret a d s t)
    (hapart : tasksApart a d s = true) (hlo : 2 ≤ n) (hhi : n + 4 ≤ 104) :
    read32 t (descBase d + BitVec.ofNat 32 n) = read32 s (descBase d + BitVec.ofNat 32 n) := by
  refine read32_unwritten hoff hoff' (fun p => h.frame hoff) fun p hp => ?_
  obtain ⟨i, hi, rfl⟩ := inRange_index hp
  exact incoming_unwritten hapart (n + i) (by omega) (by omega) (by bv_omega)

theorem CommitStages.incoming_read16 (hoff : s.pg = false) (hoff' : t.pg = false) (h : CommitStages k tsel ret a d s t)
    (hapart : tasksApart a d s = true) (hlo : 2 ≤ n) (hhi : n + 2 ≤ 104) :
    read16 t (descBase d + BitVec.ofNat 32 n) = read16 s (descBase d + BitVec.ofNat 32 n) := by
  refine read16_unwritten hoff hoff' (fun p => h.frame hoff) fun p hp => ?_
  obtain ⟨i, hi, rfl⟩ := inRange_index hp
  exact incoming_unwritten hapart (n + i) (by omega) (by omega) (by bv_omega)

/-- What was saved of a task is still there when a switch back to it has ended. -/
theorem Saved.stays_incoming {k0 : SwitchKind} {ret0 : Word} {s0 : State} (hsaved : Saved k0 ret0 s0 s)
    (hbase : s0.tr.base = descBase d) (hoff : s.pg = false) (hoff' : t.pg = false) (h : CommitStages k tsel ret a d s t)
    (hapart : tasksApart a d s = true) : Saved k0 ret0 s0 t := by
  constructor
  case eip =>
    rw [← hsaved.eip, hbase]
    exact h.incoming_read32 hoff hoff' hapart (n := 32) (by decide) (by decide)
  case eflags =>
    rw [← hsaved.eflags, hbase]
    exact h.incoming_read32 hoff hoff' hapart (n := 36) (by decide) (by decide)
  case gpr =>
    intro r
    have := regNum_toNat_lt r
    rw [← hsaved.gpr r, hbase,
      show gprSlot (descBase d) r = descBase d + BitVec.ofNat 32 (40 + 4 * (regNum r).toNat) by rw [gprSlot]; bv_omega]
    exact h.incoming_read32 hoff hoff' hapart (by omega) (by omega)
  case segs =>
    intro g
    have := segNum_lt g
    rw [← hsaved.segs g, hbase,
      show segSlot (descBase d) g = descBase d + BitVec.ofNat 32 (72 + 4 * segNum g) by rw [segSlot]; bv_omega]
    exact h.incoming_read16 hoff hoff' hapart (by omega) (by omega)

end Incoming

/-! ## A task that enters what was saved -/

/-- The registers of `s0` are those of `t`, but for EIP, which is `ret` (42 R211). -/
structure Resumes (ret : Word) (s0 t : State) : Prop where
  eip : t.eip = ret
  eflags : t.eflags = s0.eflags
  gpr : t.gpr = s0.gpr
  segs : ∀ g, (segGet t.segs g).sel = (segGet s0.segs g).sel
  cpl : t.cpl = s0.segs.cs.sel.extractLsb' 0 2

section Resumed

variable {k0 : SwitchKind} {ret0 : Word} {s0 s t : State} {tsel : Half} {d : Desc}

/-- An IRET into a task that a nesting switch saved resumes it: such a save keeps NT, and IRET loads EFLAGS as they are saved
(41_task_switch.md R160, R167). -/
theorem Entered.resumes (hent : Entered .iret tsel d s t) (hsaved : Saved k0 ret0 s0 t) (hbase : s0.tr.base = descBase d)
    (hl : links k0 = true) : Resumes ret0 s0 t := by
  have hsegs (g : SegName) : (segGet t.segs g).sel = (segGet s0.segs g).sel :=
    Except.ok.inj ((hent.segs g).symm.trans (hbase ▸ hsaved.segs g))
  obtain ⟨f, hf, hflags⟩ := hent.eflags
  have hkept : savedFlags k0 s0.eflags = s0.eflags := by
    rcases (links_iff k0).mp hl with rfl | rfl <;> rfl
  constructor
  case eip => exact Except.ok.inj (hent.eip.symm.trans (hbase ▸ hsaved.eip))
  case eflags =>
    calc t.eflags = f := hflags
      _ = savedFlags k0 s0.eflags := Except.ok.inj (hf.symm.trans (hbase ▸ hsaved.eflags))
      _ = s0.eflags := hkept
  case gpr => exact gprs_eq_of_gprGet fun r => Except.ok.inj ((hent.gpr r).symm.trans (hbase ▸ hsaved.gpr r))
  case segs => exact hsegs
  case cpl => exact hent.cpl.trans (congrArg selRPL (hsegs .cs))

end Resumed

/-! ## The nesting switch leaves a task that can be returned to -/

section Nesting

variable {k : SwitchKind} {ext : Bool} {tsel : Half} {ret a a0 : Word} {d d0 : Desc} {s t : State}

/-- Clearing the busy bit undoes setting it. -/
theorem clear_busy_of_set (h : Word) : (h ||| 0x200) &&& ~~~0x200 = h &&& ~~~0x200 := by
  ext i hi
  interval_cases i <;> simp

/-- A range is listed where both of its parts are. -/
theorem listed_append {x : Word} {n m : Nat} (h1 : listed s x n = true) (h2 : listed s (x + BitVec.ofNat 32 n) m = true) :
    listed s x (n + m) = true := by
  simp only [listed, List.all_eq_true, List.mem_range] at h1 h2 ⊢
  intro j hj
  by_cases hn : j < n
  · exact h1 j hn
  · have := h2 (j - n) (by omega)
    rwa [show x + BitVec.ofNat 32 n + BitVec.ofNat 32 (j - n) = x + BitVec.ofNat 32 j by bv_omega] at this

/-- Every byte a save stores to has a value when the switch has ended. -/
theorem CommitStages.saved_listed (hoff : s.pg = false) (h : CommitStages k tsel ret a d s t) (hapart : switchApart a d s = true) :
    listed t (s.tr.base + 32) 64 = true := by
  simp only [listed, List.all_eq_true, List.mem_range]
  intro j hj
  have hlen := saveImage_val_length k ret s
  rw [saved_bytes_stay hoff h hapart _ (inRange_offset hj (by omega)), memGet_placeBytes_inside (by omega) (by omega)]
  rfl

/-- Where in the GDT the descriptor that a selector names lies (10_state.md R59). -/
theorem namesTss_address {sel : Half} (h : NamesTss s sel a d) : a = s.gdtr.base + BitVec.ofNat 32 (8 * selIndex sel) := by
  obtain ⟨hti, -, hdesc, -⟩ := h
  obtain ⟨-, -, haddr⟩ := readDesc_some hdesc
  simp only [descAddr, hti, Bool.false_eq_true, if_false, tableEntry] at haddr
  split at haddr
  · cases haddr
  · exact (Option.some.inj haddr).symm

/-- The task that a switch has entered is the next one's outgoing task (41_task_switch.md R162, R163). -/
theorem Entered.outgoingDesc_eq (hent : Entered k tsel d s t) (hnames : NamesTss s tsel a d) : outgoingDesc t = a := by
  rw [outgoingDesc, hent.tr, hent.gdtr, namesTss_address hnames]

/-- NT is set in the task that a nesting switch enters (41_task_switch.md R167). -/
theorem Entered.flagNT_of_links (hent : Entered k tsel d s t) (hl : links k = true) : flagNT t.eflags = true := by
  obtain ⟨f, -, hflags⟩ := hent.eflags
  have hset : incomingFlags k f = f ||| ntMask := by
    rcases (links_iff k).mp hl with rfl | rfl <;> rfl
  rw [hflags, hset]
  simp [flagNT, ntMask]

/-- The outgoing task of a nesting switch is named after it as before: its descriptor is not stored to (41_task_switch.md R162). -/
theorem namesTss_outgoing (hready : SwitchReady k tsel a d s) (hl : links k = true) (hapart : tasksApart a d s = true)
    (ht : taskSwitch k ext tsel ret s = .ok t) (h : NamesTss s s.tr.sel a0 d0) : NamesTss t s.tr.sel a0 d0 := by
  obtain ⟨hti, hnull, hdesc, htss⟩ := h
  obtain rfl : a0 = outgoingDesc s := namesTss_address ⟨hti, hnull, hdesc, htss⟩
  obtain ⟨hlow, hhigh, haddr⟩ := readDesc_some hdesc
  obtain ⟨hpg, hgdtr, -⟩ := taskSwitch_sameTables ht
  have hoff := hready.paging
  obtain ⟨-, hsaveOut, -, -, hlinkOut⟩ := switchApart_iff.mp (switchApart_of_tasksApart hapart)
  have hunwritten {p : Word} (hp : inRange p (outgoingDesc s) 8 = true) : switchWrites k a d s p = false :=
    switchWrites_of_apart hsaveOut (by simp [hl]) (fun _ => apart_comm ▸ descriptors_apart_of_tasksApart hapart)
      (fun _ => hlinkOut) hp
  have hrow {x : Word} (hx : ∀ p, inRange p x 4 = true → inRange p (outgoingDesc s) 8 = true) : read32 t x = read32 s x :=
    read32_unwritten hoff (hpg.trans hoff) (fun p => (taskSwitch_stages hoff (findTss_ready hready) ht).frame hoff)
      fun p hp => hunwritten (hx p hp)
  refine ⟨hti, hnull, ?_, htss⟩
  exact readDesc_eq ((descAddr_gdt hti hgdtr).trans haddr) ((hrow fun _ => inRange_descriptor).trans hlow)
    ((hrow fun _ => inRange_high_row).trans hhigh)

/-- The tasks of the switch back are those of the switch, with their parts exchanged. -/
theorem tasksApart_back (hapart : tasksApart a d s = true) (hout : a0 = outgoingDesc s) (hbase : s.tr.base = descBase d0)
    (hbase' : t.tr.base = descBase d) (hback : outgoingDesc t = a) : tasksApart a0 d0 t = true := by
  simp only [tasksApart, Bool.and_eq_true] at hapart ⊢
  obtain ⟨⟨⟨⟨⟨htsss, houtIn⟩, houtOut⟩, hinIn⟩, hinOut⟩, hdescs⟩ := hapart
  rw [hout, hbase', hback, ← hbase]
  exact ⟨⟨⟨⟨⟨apart_comm ▸ htsss, hinOut⟩, hinIn⟩, houtOut⟩, houtIn⟩, apart_comm ▸ hdescs⟩

/-- A nesting switch leaves the interrupted task ready for the IRET: present and busy as it was, its save readable, and the handler's
busy bit there to be cleared. -/
theorem switchReady_back (hready : SwitchReady k tsel a d s) (hl : links k = true) (hapart : tasksApart a d s = true)
    (ht : taskSwitch k ext tsel ret s = .ok t) (hent : Entered k tsel d s t) (hcan : CanReturn a0 d0 s) :
    SwitchReady .iret s.tr.sel a0 d0 t where
  paging := hent.pg.trans hready.paging
  names := namesTss_outgoing hready hl hapart ht hcan.names
  present := hcan.present
  busy := busyAsNeeded_iff.mpr (iff_of_true hcan.busy rfl)
  limit := hcan.limit
  image := by
    have hst := taskSwitch_stages hready.paging (findTss_ready hready) ht
    have hstatics : listed t (s.tr.base + 32 + BitVec.ofNat 32 64) 6 = true := by
      rw [show s.tr.base + 32 + BitVec.ofNat 32 64 = s.tr.base + 96 by bv_omega]
      exact listed_mono (taskSwitch_some ht) hcan.statics
    rw [← hcan.base]
    exact listed_append (hst.saved_listed hready.paging (switchApart_of_tasksApart hapart)) hstatics
  outgoing _ := by
    obtain ⟨-, hhigh, -⟩ := readDesc_some hready.names.2.2.1
    rw [hent.outgoingDesc_eq hready.names]
    exact listed_mono (taskSwitch_some ht) (read32_listed hready.paging hhigh)

/-- The handler's descriptor is busy after the nesting switch and available again after the switch back (41_task_switch.md R162,
R163). -/
theorem handler_available {u : State} {sel : Half} {ret' : Word} (hready : SwitchReady k tsel a d s) (hl : links k = true)
    (hapart : tasksApart a d s = true) (ht : taskSwitch k ext tsel ret s = .ok t) (hout : outgoingDesc t = a)
    (hready' : SwitchReady .iret sel a0 d0 t) (hapart' : tasksApart a0 d0 t = true)
    (hu : taskSwitch .iret false sel ret' t = .ok u) : read32 u (a + 4) = .ok (d.high &&& ~~~0x200) := by
  have hoff := hready.paging
  have hoff' := hready'.paging
  obtain ⟨-, hhigh, -⟩ := readDesc_some hready.names.2.2.1
  obtain ⟨hsaveIn, -, -, hlinkIn, -⟩ := switchApart_iff.mp (switchApart_of_tasksApart hapart)
  obtain ⟨-, hsaveOut, -⟩ := switchApart_iff.mp (switchApart_of_tasksApart hapart')
  have hk : k ≠ .iret := by rintro rfl; cases hl
  have hbusy : read32 t (a + 4) = .ok (d.high ||| 0x200) :=
    (taskSwitch_stages hoff (findTss_ready hready) ht).incoming_row hoff hoff' hk hsaveIn
      (descriptors_apart_of_tasksApart hapart) hlinkIn hhigh
  rw [← clear_busy_of_set, ← hout]
  exact (taskSwitch_stages hoff' (findTss_ready hready') hu).outgoing_row hoff' ((taskSwitch_sameTables hu).pg.trans hoff') rfl
    hsaveOut (absurd rfl) (hout ▸ hbusy)

end Nesting

/-- Settles O39: the nesting switch leaves the interrupted task saved, linked and busy, so the IRET is a ready switch back to it; what
was saved is what that switch loads, and the busy bit it clears is the handler's. -/
theorem nestedTaskReturns : Obligations.NestedTaskReturns := by
  intro k ext tsel ret s a d a0 d0 hl hready hapart hcan
  have hoff := hready.paging
  obtain ⟨t, ht, hent⟩ := switchEntersTask k ext tsel ret s a d hready
  have hoff' : t.pg = false := hent.pg.trans hoff
  have hbase' : t.tr.base = descBase d := by rw [hent.tr]
  have hlink : read16 t t.tr.base = .ok s.tr.sel := by
    rw [hbase']
    exact (taskSwitch_stages hoff (findTss_ready hready) ht).back_link hoff hoff' hl
  have hready' := switchReady_back hready hl hapart ht hent hcan
  have hout := hent.outgoingDesc_eq hready.names
  have hapart' : tasksApart a0 d0 t = true := tasksApart_back hapart (namesTss_address hcan.names) hcan.base hbase' hout
  obtain ⟨u, hexec, hu, hent'⟩ :=
    next_of_switchReady (next_of_eq_complete (exec_iret_of_backLink (hent.flagNT_of_links hl) hlink)) hready'
  have hsaved := switchSavesTask k ext tsel ret s t a d hready (switchApart_of_tasksApart hapart) ht
  have hstays := hsaved.stays_incoming hcan.base hoff' (hent'.pg.trans hoff')
    (taskSwitch_stages hoff' (findTss_ready hready') hu) hapart'
  obtain ⟨heip, heflags, hgpr, hsegs, hcpl⟩ := hent'.resumes hstays hcan.base hl
  refine ⟨t, u, ht, hexec, heip, heflags, hgpr, hsegs, hcpl, hent'.tr, ?admits, ?available⟩
  case admits => rw [admitsExternal, admitsExternal, heflags, hent'.extIntEnabled, hent.extIntEnabled]
  case available => exact handler_available hready hl hapart ht hout hready' hapart' hu

end Sys2Proof.Machine
end

section
/-! The selectors that R237 bars from a segment register, error information by value, and what no step writes of the acceptance of
external interrupts (60_exceptions.md R231, R237, R238). -/

namespace Sys2Proof.Machine

/-! ## Barred selectors -/

section Barred

variable {s t u : State} {g k : SegName} {ks : List SegName} {d : Desc}

theorem segForbidden_iff : segForbidden g d = true ↔ isTss d = true ∨ (isTaskGate d = true ∧ g ≠ .cs) := by
  rw [segForbidden, Bool.or_eq_true, Bool.and_eq_true, decide_eq_true_eq]

/-- Segment register `g` has a selector that 60_exceptions.md R237 bars from it. -/
def HoldsBarred (u : State) (g : SegName) : Prop :=
  selNull (segGet u.segs g).sel = false
    ∧ ∃ a d, readDesc u (segGet u.segs g).sel = .ok (some (a, d)) ∧ segForbidden g d = true

/-- The load of a barred selector raises before the parameter is asked (log 27). -/
theorem loadSeg_of_holdsBarred (h : HoldsBarred u g) : loadSeg g u = .error (.raise (.ts (errSel (segGet u.segs g).sel))) := by
  obtain ⟨hnull, a, d, hdesc, hforbidden⟩ := h
  have hpeek : peekDesc u (segGet u.segs g).sel = .ok (some d) := by
    simp only [peekDesc, hnull, hdesc, Bool.false_eq_true, if_false, Option.map_some]
  simp only [loadSeg, hpeek, Option.any_some, hforbidden, if_true]

/-- A hidden part of a segment register decides nothing about which descriptor a selector names. -/
theorem HoldsBarred.segSetHidden (h : HoldsBarred u g) (k : SegName) (x : SegHidden) :
    HoldsBarred { u with segs := segSetHidden u.segs k x } g := by
  rw [HoldsBarred, segSetHidden_sel]
  exact h

theorem segGet_beforeFilling_sel (s t : State) (g : SegName) : (segGet (beforeFilling s t).segs g).sel = (segGet t.segs g).sel := by
  cases g <;> rfl

/-- Selectors, tables and memory are during the filling what they are at its end, once the LDT register has been filled. -/
theorem HoldsBarred.during_filling (h : HoldsBarred t g) (s : State) :
    HoldsBarred { beforeFilling s t with ldtr := { sel := t.ldtr.sel, hidden := t.ldtr.hidden } } g := by
  rw [HoldsBarred, segGet_beforeFilling_sel]
  exact h

/-- Filling registers of which one holds a barred selector leaves an exception: that of its load, or an earlier one. -/
theorem FillsInOrder.raises_of_holdsBarred (h : FillsInOrder ks u t) (hmem : g ∈ ks) (hbarred : HoldsBarred u g) :
    ∃ e, t.pending = some e ∧ e ≠ .db := by
  induction ks generalizing u with
  | nil => cases hmem
  | cons k ks ih =>
    rw [FillsInOrder] at h
    rcases loadSeg_cases k u with ⟨x, hload, -⟩ | ⟨e, hload, hne⟩ | ⟨-, hload⟩
    · rw [hload] at h
      have hother : g ≠ k := by
        rintro rfl
        cases hload.symm.trans (loadSeg_of_holdsBarred hbarred)
      exact ih h (List.mem_of_ne_of_mem hother hmem) (hbarred.segSetHidden k x)
    · rw [hload] at h
      obtain ⟨hpending, -⟩ := h
      exact ⟨e, hpending, hne⟩
    · rw [hload] at h
      exact h.elim

theorem mem_fillOrder (g : SegName) : g ∈ [SegName.cs, .ss, .ds, .es, .fs, .gs] := by
  cases g <;> decide

/-- A switch that leaves a barred selector in a segment register leaves an exception to be delivered. -/
theorem taskSwitch_raises_of_holdsBarred {kind : SwitchKind} {ext : Bool} {tsel : Half} {ret : Word}
    (h : taskSwitch kind ext tsel ret s = .ok t) (hbarred : HoldsBarred t g) : ∃ e, t.pending = some e ∧ e ≠ .db := by
  have hfills := switchFillsHiddenParts kind ext tsel ret s t h
  cases hldt : Config.loadLdt t.ldtr.sel (beforeFilling s t) with
  | error f =>
    rw [hldt] at hfills
    obtain ⟨hpending, -⟩ := hfills
    exact ⟨segFaultExn f, hpending, segFaultExn_ne_db f⟩
  | ok l =>
    rw [hldt] at hfills
    obtain ⟨rfl, horder⟩ := hfills
    exact horder.raises_of_holdsBarred (mem_fillOrder g) (hbarred.during_filling s)

end Barred

/-- Settles O42: the load of a barred selector raises TS, so the filling that reaches it ends in an exception, and one that does not
has ended in an exception before. -/
theorem barredSelectorRaises : Obligations.BarredSelectorRaises := by
  refine ⟨fun k ext tsel ret s t g a d h hnull hdesc hkind => ?_, fun u g a d hnull hdesc hkind => ?_⟩
  · exact taskSwitch_raises_of_holdsBarred h ⟨hnull, a, d, hdesc, segForbidden_iff.mpr hkind⟩
  · exact loadSeg_of_holdsBarred ⟨hnull, a, d, hdesc, segForbidden_iff.mpr hkind⟩

/-! ## Error information -/

theorem errSel_getLsbD (sel : Half) (i : Nat) : (errSel sel).getLsbD i = (decide (2 ≤ i) && sel.getLsbD i) := by
  have hmask : (0xFFFC : Half) = BitVec.allOnes 16 <<< 2 := by decide
  rw [errSel, hmask, BitVec.getLsbD_and, BitVec.getLsbD_shiftLeft, BitVec.getLsbD_allOnes]
  by_cases hi : i < 16
  · by_cases hlow : i < 2
    · simp [hlow]
    · simp [hlow, hi, show 2 ≤ i by omega, show i - 2 < 16 by omega]
  · simp [BitVec.getLsbD_of_ge sel i (by omega)]

/-- `IdtErr` as a number: no vector is so large that it wraps. -/
theorem idtErr_toNat (v : Byte) (o : Origin) : (idtErr v o).toNat = 8 * v.toNat + 2 + (originExt o).toNat := by
  rw [idtErr]
  cases originExt o with
  | false => simp only [Bool.false_eq_true, if_false, Bool.toNat_false]; bv_omega
  | true => simp only [if_true, Bool.toNat_true]; bv_omega

/-- Settles O44: the mask of `E(sel)` bit by bit, `IdtErr` as a number. -/
theorem errorInformation : Obligations.ErrorInformation := by
  refine ⟨errSel_getLsbD, fun sel => ⟨rfl, rfl⟩, fun v => ⟨?_, ?_, ?_⟩, rfl, rfl, rfl⟩
  · exact idtErr_toNat v .software
  · exact idtErr_toNat v .external
  · exact idtErr_toNat v .exception

/-! ## What no step writes of the acceptance of external interrupts -/

@[simp] theorem boundaryState_extIntEnabled (s : State) : (boundaryState s).extIntEnabled = s.extIntEnabled := rfl

theorem taskSwitch_extIntEnabled {k : SwitchKind} {ext : Bool} {tsel : Half} {ret : Word} {s t : State}
    (h : taskSwitch k ext tsel ret s = .ok t) : t.extIntEnabled = s.extIntEnabled := by
  obtain ⟨a, d, s', img, -, -, henter, -, rfl⟩ := taskSwitch_ok h
  rw [makeUsable_extIntEnabled, install_extIntEnabled, henter.eq]

theorem otherTransfer_extIntEnabled {r : OtherRequest} {s t : State} (h : otherTransfer r s = .ok t) :
    t.extIntEnabled = s.extIntEnabled := by
  obtain ⟨e, rfl⟩ := otherTransfer_ok h
  exact applyOther_extIntEnabled e s

/-- None of the four ways in which a state follows another writes `ext_int_enabled`. -/
theorem Follows.extIntEnabled {l : Prop} {s t : State} (h : Follows l s t) : t.extIntEnabled = s.extIntEnabled := by
  cases h with
  | plain eq => rw [eq]
  | ltr _ _ eq => rw [eq]
  | switch s1 k ext tsel ret eq h => exact (taskSwitch_extIntEnabled h).trans (by rw [eq])
  | other s1 r eq h => exact (otherTransfer_extIntEnabled h).trans (by rw [eq])

/-- Settles O59: neither the boundary nor what follows it writes `ext_int_enabled`. -/
theorem stepKeepsExtIntEnabled : Obligations.StepKeepsExtIntEnabled := by
  intro s t h
  exact (step_follows h).extIntEnabled.trans (boundaryState_extIntEnabled s)

end Sys2Proof.Machine
end

section
/-! Exceptions during a delivery (60_exceptions.md R243), and the boundary at which an instruction runs (60_exceptions.md R238; 42 R209;
log 15). -/

namespace Sys2Proof.Machine

/-! ## An exception raised during a delivery -/

section Nested

variable {v : Byte} {o : Origin} {e x : Exn} {g : Desc} {s : State} {ret : Word}

/-- The gate's DPL is the interrupt instruction's concern alone (42 R208). -/
theorem vectorTo_of_not_present_of_not_software (ho : o ≠ .software) (hidt : readIdt s v = .ok (some g))
    (hgate : isTaskGate g = true) (hpresent : descPresent g = false) :
    vectorTo v o ret s = .error (.raise (.np (idtErr v o))) := by
  have hdpl : gateDplRefuses o g s = false := by rw [gateDplRefuses, decide_eq_false ho, Bool.false_and]
  exact vectorTo_of_not_present hidt hgate hdpl hpresent

theorem takeException_of_vectorTo_raise
    (h : vectorTo (exnVector e) .exception s.eip { s with lastExn := some e } = .error (.raise x)) :
    takeException e s = .fault (.exceptionDuringDelivery (.exception e) x) := by
  rw [takeException, h, delivered]

theorem takeExternal_of_vectorTo_raise (h : vectorTo v .external s.eip s = .error (.raise x)) :
    takeExternal v s = .fault (.exceptionDuringDelivery (.external v) x) := by
  rw [takeExternal, h, delivered]

end Nested

/-- Settles O46: a delivery turns whatever its vectoring raises into the fault; each case says what the vectoring raises there. Noting
the exception in `lastExn` changes nothing of the IDT. -/
theorem exceptionDuringDelivery : Obligations.ExceptionDuringDelivery := by
  refine ⟨fun e x s => takeException_of_vectorTo_raise, fun v x s => takeExternal_of_vectorTo_raise,
    fun e s hidt => ?exceptionBeyond, fun v s hidt => ?externalBeyond,
    fun e s g hidt hgate => ⟨fun hpresent => ?exceptionNotPresent, fun hpresent x hswitch => ?exceptionSwitch⟩,
    fun v s g hidt hgate => ⟨fun hpresent => ?externalNotPresent, fun hpresent x hswitch => ?externalSwitch⟩⟩
  case exceptionBeyond =>
    have hidt' : readIdt { s with lastExn := some e } (exnVector e) = .ok none := hidt
    exact takeException_of_vectorTo_raise (vectorTo_of_outOfTable hidt')
  case externalBeyond => exact takeExternal_of_vectorTo_raise (vectorTo_of_outOfTable hidt)
  case exceptionNotPresent =>
    have hidt' : readIdt { s with lastExn := some e } (exnVector e) = .ok (some g) := hidt
    exact takeException_of_vectorTo_raise (vectorTo_of_not_present_of_not_software (by decide) hidt' hgate hpresent)
  case exceptionSwitch => rw [takeException_of_taskGate hidt hgate hpresent, hswitch, delivered]
  case externalNotPresent =>
    exact takeExternal_of_vectorTo_raise (vectorTo_of_not_present_of_not_software (by decide) hidt hgate hpresent)
  case externalSwitch => rw [takeExternal_of_taskGate hidt hgate hpresent, hswitch, delivered]

/-! ## The boundary at which an instruction runs -/

section Runs

variable {s : State} {rest : List (Option Byte)}

theorem admitsExternal_of_disabled (h : s.extIntEnabled = false) : admitsExternal s = false := by
  rw [admitsExternal, h, Bool.false_and]

theorem boundaryEvent_of_not_admitted (hpending : s.pending = none) (hadmits : admitsExternal s = false) :
    boundaryEvent s = .run := by
  simp only [boundaryEvent, hpending, hadmits]

/-- The outside presents nothing at this boundary, and `rest` at the boundaries after it (log 15). -/
def PresentsNothing (s : State) (rest : List (Option Byte)) : Prop := s.extInts = [] ∧ rest = [] ∨ s.extInts = none :: rest

theorem PresentsNothing.tail (h : PresentsNothing s rest) : s.extInts.tail = rest := by
  rcases h with ⟨hints, rfl⟩ | hints <;> rw [hints] <;> rfl

theorem boundaryEvent_of_presentsNothing (hpending : s.pending = none) (h : PresentsNothing s rest) : boundaryEvent s = .run := by
  rcases h with ⟨hints, -⟩ | hints <;> simp [boundaryEvent, hpending, hints]

end Runs

/-- Settles O49: with nothing pending the boundary delivers nothing but an interrupt that is both admitted and presented; an
instruction that runs finds the boundary's entry used up where interrupts are admitted. -/
theorem noInterruptRunsInstruction : Obligations.NoInterruptRunsInstruction := by
  intro s hpending
  have hshut (h : admitsExternal s = false) : step s = runInstr s ∧ boundaryEvent s = .run :=
    ⟨step_of_not_admitted hpending h, boundaryEvent_of_not_admitted hpending h⟩
  refine ⟨hshut, fun hdisabled => hshut (admitsExternal_of_disabled hdisabled), fun rest hnothing => ?_⟩
  replace hnothing : PresentsNothing s rest := hnothing
  have hrun := boundaryEvent_of_presentsNothing hpending hnothing
  refine ⟨hrun, ?_⟩
  calc step s = runInstr (boundaryState s) := step_of_boundaryEvent_run hrun
    _ = runInstr { s with extInts := if admitsExternal s then rest else s.extInts } := by
      rw [boundaryState_of_pending_none hpending, hnothing.tail]

end Sys2Proof.Machine
end

section
/-! MSW.TS through a step (10_state.md R33; 70_reset_and_hazards.md R280): a task switch sets it, and nothing else writes it. -/

namespace Sys2Proof.Machine

@[simp] theorem boundaryState_ts (s : State) : (boundaryState s).ts = s.ts := rfl

theorem taskSwitch_ts {k : SwitchKind} {ext : Bool} {tsel : Half} {ret : Word} {s t : State}
    (h : taskSwitch k ext tsel ret s = .ok t) : t.ts = true := by
  obtain ⟨a, d, s', img, -, -, henter, -, rfl⟩ := taskSwitch_ok h
  rw [makeUsable_ts, install_ts, henter.eq]

theorem otherTransfer_ts {r : OtherRequest} {s t : State} (h : otherTransfer r s = .ok t) : t.ts = s.ts := by
  obtain ⟨e, rfl⟩ := otherTransfer_ok h
  exact applyOther_ts e s

/-- Of the four ways in which a state follows another, the task switch sets MSW.TS and the others leave it. -/
theorem Follows.ts_set_or_same {l : Prop} {s t : State} (h : Follows l s t) : t.ts = true ∨ t.ts = s.ts := by
  cases h with
  | plain eq => exact .inr (by rw [eq])
  | ltr _ _ eq => exact .inr (by rw [eq])
  | switch s1 k ext tsel ret eq h => exact .inl (taskSwitch_ts h)
  | other s1 r eq h => exact .inr ((otherTransfer_ts h).trans (by rw [eq]))

/-- Settles O55: a step that does not set MSW.TS by a task switch leaves it as the boundary found it. -/
theorem stepNeverClearsTaskSwitched : Obligations.StepNeverClearsTaskSwitched := by
  intro s t h hset
  rcases (step_follows h).ts_set_or_same with hts | hts
  · exact hts
  · rw [hts, boundaryState_ts, hset]

end Sys2Proof.Machine
end

section
/-! The launch premise P-tr after the two writers of TR (70_reset_and_hazards.md R271, R272): the descriptor TR names afterwards is the
one that was found, busy now (40_task_register.md R140; 41_task_switch.md R163). -/

namespace Sys2Proof.Machine

section PremiseTr

variable {k : SwitchKind} {tsel sel : Half} {ret a : Word} {d : Desc} {s t : State}

/-- A descriptor whose high row reads back with its busy bit set is still a TSS descriptor, with the same base, limit and presence, so
TR loaded from it as it was found is as P-tr wants it. -/
theorem premiseTr_of_busy_row (hnames : NamesTss s sel a d) (hpresent : descPresent d = true) (hgdtr : t.gdtr = s.gdtr)
    (htr : t.tr = { sel := sel, base := descBase d, limit := effLimit d }) (hlow : read32 t a = read32 s a)
    (hhigh : read32 t (a + 4) = .ok (withBusy true d.high)) : PremiseTr t := by
  obtain ⟨hti, hnull, hdesc, htss⟩ := hnames
  obtain ⟨hlow', -, haddr⟩ := readDesc_some hdesc
  obtain ⟨hbase, hlimit, hsame, hbusy, hkeeps⟩ := descriptor_with_busy d
  have hnamed : NamesTss t sel a ⟨d.low, withBusy true d.high⟩ :=
    ⟨hti, hnull, readDesc_eq ((descAddr_gdt hti hgdtr).trans haddr) (hlow.trans hlow') hhigh, hkeeps htss⟩
  rw [PremiseTr, htr]
  exact ⟨a, _, hnamed, hsame.trans hpresent, hbusy, hbase.symm, hlimit.symm⟩

/-- A switch does not store to the low row of the incoming descriptor. -/
theorem CommitStages.incoming_low_row (hoff : s.pg = false) (hoff' : t.pg = false) (h : CommitStages k tsel ret a d s t)
    (hapart : tasksApart a d s = true) : read32 t a = read32 s a := by
  obtain ⟨hsaveIn, -, -, hlinkIn, -⟩ := switchApart_iff.mp (switchApart_of_tasksApart hapart)
  exact read32_unwritten hoff hoff' (fun p => h.frame hoff) fun p hp => descriptor_row_unwritten hsaveIn hlinkIn
    (fun _ => ne_busy_byte_of_apart (descriptors_apart_of_tasksApart hapart) (inRange_descriptor hp)) (fun _ => ne_busy_byte hp) hp

/-- After a switch of any kind the incoming descriptor is busy: an IRET finds it so and leaves it alone (41_task_switch.md R163). -/
theorem CommitStages.incoming_busy (hoff : s.pg = false) (hoff' : t.pg = false) (h : CommitStages k tsel ret a d s t)
    (hapart : tasksApart a d s = true) (hbusy : busyAsNeeded k d = true) (hrow : read32 s (a + 4) = .ok d.high) :
    read32 t (a + 4) = .ok (withBusy true d.high) := by
  obtain ⟨hsaveIn, -, -, hlinkIn, -⟩ := switchApart_iff.mp (switchApart_of_tasksApart hapart)
  have hinOut := descriptors_apart_of_tasksApart hapart
  by_cases hk : k = .iret
  · rw [withBusy_true, or_busy_of_descBusy ((busyAsNeeded_iff.mp hbusy).mpr hk), ← hrow]
    exact read32_unwritten hoff hoff' (fun p => h.frame hoff) fun p hp => switchWrites_of_apart hsaveIn (fun _ => hinOut)
      (absurd hk) (fun _ => hlinkIn) (inRange_high_row hp)
  · exact h.incoming_row hoff hoff' hk hsaveIn hinOut hlinkIn hrow

/-- A ready switch between two tasks that do not overlap leaves P-tr (70_reset_and_hazards.md R271). -/
theorem taskSwitch_premiseTr {ext : Bool} (hready : SwitchReady k tsel a d s) (hapart : tasksApart a d s = true)
    (h : taskSwitch k ext tsel ret s = .ok t) : PremiseTr t := by
  obtain ⟨t', ht', hent⟩ := switchEntersTask k ext tsel ret s a d hready
  obtain rfl : t' = t := Except.ok.inj (ht'.symm.trans h)
  have ⟨_, _, hdesc, _⟩ := hready.names
  obtain ⟨-, hhigh, -⟩ := readDesc_some hdesc
  have hoff := hready.paging
  have hoff' := hent.pg.trans hoff
  have hst := taskSwitch_stages hoff (findTss_ready hready) h
  exact premiseTr_of_busy_row hready.names hready.present hent.gdtr hent.tr (hst.incoming_low_row hoff hoff' hapart)
    (hst.incoming_busy hoff hoff' hapart hready.busy hhigh)

/-- LTR establishes P-tr (70_reset_and_hazards.md R272): its locked update makes the descriptor busy and leaves its low row alone. -/
theorem exec_ltr_premiseTr {src : RM16} (hoff : s.pg = false) (hcpl : s.cpl = 0) (hread : readRM16 s src = .ok sel)
    (hnames : NamesTss s sel a d) (hbusy : descBusy d = false) (hpresent : descPresent d = true) :
    ∃ t, exec (.ltr src) s = .next t ∧ PremiseTr t := by
  have ⟨_, _, hdesc, _⟩ := hnames
  obtain ⟨-, hhigh, -⟩ := readDesc_some hdesc
  obtain ⟨hframe, hback⟩ := setBusy_stage (m := s.mem) (b := true) hoff hhigh rfl
  refine ⟨_, ltrUnderPaging src s _ sel a d hcpl hread hnames hbusy hpresent (setBusy_flat hoff true hhigh), ?_⟩
  refine premiseTr_of_busy_row hnames hpresent rfl rfl ?low ?high
  case low => exact read32_agree hoff (by exact hoff) fun p hp => hframe p (ne_busy_byte hp)
  case high => exact (read32_congr rfl rfl rfl _).trans hback

end PremiseTr

/-- Settles O37: a switch leaves the incoming descriptor busy, LTR makes the one it loads so, and neither changes another field. -/
theorem ltrAndSwitchGivePremiseTr : Obligations.LtrAndSwitchGivePremiseTr :=
  ⟨fun _ _ _ _ _ _ _ _ => taskSwitch_premiseTr, fun _ _ _ _ _ => exec_ltr_premiseTr⟩

end Sys2Proof.Machine
end

section
/-! The descriptor tables through a task switch (70_reset_and_hazards.md R271, R277; 41_task_switch.md R162, R163): with both TSSs off
the tables, only its two updates of a busy bit reach them. -/

namespace Sys2Proof.Machine

/-! ## Bytes that keep all but bit 1 -/

/-- The byte at `p`, where it has a value in `m`, has one in `m'` that differs from it in bit 1 at most, which in the byte at offset 5
of a descriptor is the busy bit (10_state.md R47). -/
def SameButBusy (m m' : List Host.Cell) (p : Word) : Prop :=
  ∀ b, memGet m p.toNat = some b → ∃ b', memGet m' p.toNat = some b' ∧ ∀ i, i ≠ 1 → b'.getLsbD i = b.getLsbD i

section Busy

variable {m m' m'' : List Host.Cell} {p : Word}

theorem SameButBusy.of_eq (h : memGet m' p.toNat = memGet m p.toNat) : SameButBusy m m' p :=
  fun b hb => ⟨b, h.trans hb, fun _ _ => rfl⟩

theorem SameButBusy.trans (h : SameButBusy m m' p) (h' : SameButBusy m' m'' p) : SameButBusy m m'' p := by
  intro b hb
  obtain ⟨b', hb', hbits⟩ := h b hb
  obtain ⟨b'', hb'', hbits'⟩ := h' b' hb'
  exact ⟨b'', hb'', fun i hi => (hbits' i hi).trans (hbits i hi)⟩

/-- An update of a busy bit changes that bit of one byte (10_state.md R60). -/
theorem SameButBusy.of_withBusy {s : State} {x hi : Word} {b : Bool} (hoff : s.pg = false)
    (hframe : ∀ p : Word, p ≠ x + 5 → memGet m' p.toNat = memGet m p.toNat)
    (hread : read32 { s with mem := m } (x + 4) = .ok hi)
    (hback : read32 { s with mem := m' } (x + 4) = .ok (withBusy b hi)) (p : Word) : SameButBusy m m' p := by
  by_cases hp : p = x + 5
  · have hfive : x + 4 + 1 = p := by rw [hp]; bv_omega
    have hold := read32_second_byte (s := { s with mem := m }) hoff hread
    have hnew := read32_second_byte (s := { s with mem := m' }) hoff hback
    rw [hfive] at hold hnew
    intro c hc
    obtain rfl : hi.extractLsb' 8 8 = c := Option.some.inj (hold.symm.trans hc)
    exact ⟨_, hnew, fun i h1 => by rw [withBusy_byte_getLsbD, if_neg h1]⟩
  · exact .of_eq (hframe p hp)

end Busy

/-! ## Bytes off the two TSSs -/

section Tables

variable {k : SwitchKind} {ext : Bool} {tsel : Half} {ret a b : Word} {d : Desc} {s t : State} {p : Word} {x : Word × Nat}

/-- Outside what a switch stores to the two TSSs there are its updates of two busy bits. -/
theorem CommitStages.sameButBusy (hoff : s.pg = false) (h : CommitStages k tsel ret a d s t)
    (hsave : inRange p (s.tr.base + 32) 64 = false) (hlink : inRange p (descBase d) 2 = false) : SameButBusy s.mem t.mem p := by
  obtain ⟨m1, m2, m3, -, hm1, hm2, hm2', hm3, hm3', hm4, hm4'⟩ := commitSwitch_frames hoff h
  have h1 : SameButBusy s.mem m1 p := .of_eq (hm1 p hsave)
  have h2 : SameButBusy m1 m2 p := by
    cases hl : links k with
    | true => exact .of_eq (by rw [hm2 hl])
    | false =>
      obtain ⟨hframe, hi, hread, hback⟩ := hm2' hl
      exact .of_withBusy hoff hframe hread hback p
  have h3 : SameButBusy m2 m3 p := by
    by_cases hk : k = .iret
    · exact .of_eq (by rw [hm3 hk])
    · obtain ⟨hframe, hi, hread, hback⟩ := hm3' hk
      exact .of_withBusy hoff hframe hread hback p
  have h4 : SameButBusy m3 t.mem p := by
    cases hl : links k with
    | true => exact .of_eq (by rw [hm4' hl]; exact backLink_frame hlink)
    | false => exact .of_eq (by rw [hm4 hl])
  exact ((h1.trans h2).trans h3).trans h4

/-- A byte of a descriptor table lies in no part of a TSS that is off the tables. -/
theorem offTables_outside {i n : Nat} (hoffTables : offTables s b = true) (hx : x ∈ tables s) (hp : inRange p x.1 x.2 = true)
    (hin : i + n ≤ 104) : inRange p (b + BitVec.ofNat 32 i) n = false := by
  have hapart : apart b 104 x.1 x.2 = true := List.all_eq_true.mp hoffTables x hx
  have hout : inRange p b 104 = false := apart_outside (apart_comm ▸ hapart) hp
  refine Bool.eq_false_iff.mpr fun hpart => ?_
  exact Bool.eq_false_iff.mp hout (inRange_sub hpart hin (by decide))

end Tables

/-- Settles O38: a table's byte lies where the save and the back-link are not stored, so what is left of the switch's stores is the
two updates of a busy bit. -/
theorem switchLeavesTables : Obligations.SwitchLeavesTables := by
  intro k ext tsel ret s t a d hoff ⟨_, _, houtgoing, _⟩ hincoming hfind h x hx p hp
  have hst := taskSwitch_stages hoff hfind h
  have hsave : inRange p (s.tr.base + 32) 64 = false := offTables_outside (i := 32) houtgoing hx hp (by decide)
  have hlink : inRange p (descBase d) 2 = false := by
    have := offTables_outside (i := 0) (n := 2) hincoming hx hp (by decide)
    rwa [BitVec.add_zero] at this
  exact ⟨fun hin hout => hst.frame hoff (switchWrites_outside hsave (fun _ => hout) (fun _ => hin) fun _ => hlink),
    hst.sameButBusy hoff hsave hlink⟩

end Sys2Proof.Machine
end
